-- ==== Sys2Proof/Word.lean ====
section
/-! DEFINITION. The word types of FFTU and the IEEE 754 values its datapath computes with
(00_scope.md R8, R10, R11, R12). -/

namespace Sys2Proof

/-- A byte of the local offset space (20_memory.md R36). -/
abbrev Byte := BitVec 8

/-- A command word, a 32-bit register, a local offset (10_state.md R19, 20_memory.md R36). -/
abbrev Word := BitVec 32

/-- A 64-bit register or buffer slot (10_state.md R28, R31). -/
abbrev DWord := BitVec 64

/-- The IEEE 754 value of a binary64 pattern (R11: `fp64(b)`). A finite value is a sign and a magnitude counted in
units of 2^-1074, the smallest positive binary64 value, of which every finite binary64 value is a whole multiple.
A NaN is one value: no rule depends on the sign or payload of a NaN (93_implementation_defined.md U4), and the bits a
stored NaN gets are drawn when it is stored. -/
inductive Fp where
  | nan
  | inf (neg : Bool)
  | fin (neg : Bool) (units : Nat)
  deriving DecidableEq, Repr

/-- A complex value, an ordered pair of binary64 values (R12). -/
structure Cplx where
  re : Fp
  im : Fp
  deriving DecidableEq, Repr

end Sys2Proof
end

