-- ==== Sys2Proof/Syntax.lean ====
section
/-! DEFINITION. The commands of FFTU: one constructor for each row of spec/opcode_table.json
(30_encoding.md R58), and the fields of the one command format (R56). -/

namespace Sys2Proof

/-- The storage format of the buffers a command touches, its PREC field (R56, 00_scope.md R7). -/
inductive Prec where
  | f32
  | f64
  deriving DecidableEq, Repr

/-- BFLY's ROLE field (R56): `straight` is 0 (A = OUT_RE, B = OUT_IM), `swap` is 1 (A = OUT_IM, B = OUT_RE). -/
inductive Role where
  | straight
  | swap
  deriving DecidableEq, Repr

/-- The commands (R58). -/
inductive Instr where
  | nop
  | fwd (prec : Prec)
  | inv (prec : Prec)
  | setup (prec : Prec)
  | bfly (prec : Prec) (role : Role)
  | bitrev
  | cadd
  | csub
  | cmul
  | cmag
  | uroot
  deriving DecidableEq, Repr

/-- The command word cut into its fields (R56), lowest field first. -/
structure Fields where
  op : BitVec 4
  rsvdLo : BitVec 4
  prec : BitVec 1
  role : BitVec 1
  rsvdHi : BitVec 22
  deriving DecidableEq, Repr

/-- The suffix of R63 for PREC. -/
def Prec.suffix : Prec → String
  | .f32 => ".f32"
  | .f64 => ".f64"

/-- The suffix of R63 for ROLE, written after the precision suffix. -/
def Role.suffix : Role → String
  | .straight => ""
  | .swap => ".swap"

/-- A command as the assembler syntax of R63 writes it. -/
def Instr.asm : Instr → String
  | .nop => "nop"
  | .fwd p => "fwd" ++ p.suffix
  | .inv p => "inv" ++ p.suffix
  | .setup p => "setup" ++ p.suffix
  | .bfly p r => "bfly" ++ p.suffix ++ r.suffix
  | .bitrev => "bitrev"
  | .cadd => "cadd"
  | .csub => "csub"
  | .cmul => "cmul"
  | .cmag => "cmag"
  | .uroot => "uroot"

/-- The commands that use x[LEN], which R61 checks when they are issued. -/
def Instr.usesLen : Instr → Bool
  | .fwd _ | .inv _ | .setup _ | .bfly _ _ => true
  | .nop | .bitrev | .cadd | .csub | .cmul | .cmag | .uroot => false

end Sys2Proof
end

