-- ==== Sys2Proof/WellFormed.lean ====
section
/-! DEFINITION. Which field values are a command (30_encoding.md R56, R58, R59). -/

namespace Sys2Proof

/-- OP 0x0 to 0xA is assigned, 0xB to 0xF is not (R58). -/
def Fields.opAssigned (f : Fields) : Bool := f.op < 0xB#4

/-- The opcodes that use PREC: FWD, INV, SETUP, BFLY (R58). -/
def Fields.usesPrec (f : Fields) : Bool := f.op == 1#4 || f.op == 2#4 || f.op == 3#4 || f.op == 4#4

/-- The opcode that uses ROLE: BFLY (R58). -/
def Fields.usesRole (f : Fields) : Bool := f.op == 4#4

/-- Bits 7:4 and 31:10 are zero (R56). -/
def Fields.reservedZero (f : Fields) : Bool := f.rsvdLo == 0#4 && f.rsvdHi == 0#22

/-- PREC is zero where the opcode does not use it (R59). -/
def Fields.precAllowed (f : Fields) : Bool := f.prec == 0#1 || f.usesPrec

/-- ROLE is zero where the opcode does not use it (R59). -/
def Fields.roleAllowed (f : Fields) : Bool := f.role == 0#1 || f.usesRole

/-- The fields are a command: they match a row of R58. -/
def Fields.wellFormed (f : Fields) : Bool :=
  f.opAssigned && f.reservedZero && f.precAllowed && f.roleAllowed

/-- The bit of PREC (00_scope.md R7). -/
def Prec.bit : Prec → BitVec 1
  | .f32 => 0#1
  | .f64 => 1#1

/-- The bit of ROLE (R56). -/
def Role.bit : Role → BitVec 1
  | .straight => 0#1
  | .swap => 1#1

/-- A command's fields (R58). -/
def Instr.fields : Instr → Fields
  | .nop => ⟨0x0#4, 0, 0, 0, 0⟩
  | .fwd p => ⟨0x1#4, 0, p.bit, 0, 0⟩
  | .inv p => ⟨0x2#4, 0, p.bit, 0, 0⟩
  | .setup p => ⟨0x3#4, 0, p.bit, 0, 0⟩
  | .bfly p r => ⟨0x4#4, 0, p.bit, r.bit, 0⟩
  | .bitrev => ⟨0x5#4, 0, 0, 0, 0⟩
  | .cadd => ⟨0x6#4, 0, 0, 0, 0⟩
  | .csub => ⟨0x7#4, 0, 0, 0, 0⟩
  | .cmul => ⟨0x8#4, 0, 0, 0, 0⟩
  | .cmag => ⟨0x9#4, 0, 0, 0, 0⟩
  | .uroot => ⟨0xA#4, 0, 0, 0, 0⟩

/-- Every term of `Instr` is a command: its operand fields have exactly the values R56 allows, so that its fields
pass the checks of `Fields.wellFormed` (proved constructor by constructor in Laws/PerInstr.lean). -/
def Instr.wellFormed (i : Instr) : Bool := i.fields.wellFormed

end Sys2Proof
end

