-- ==== Sys2Proof/Decode.lean ====
section
/-! DEFINITION. The command decoder and encoder (30_encoding.md R55 to R59). Decoding is total on 32-bit words and
rejects by name, in the order of R61. -/

namespace Sys2Proof

/-- Why a word is no command (R59). -/
inductive DecodeError where
  /-- OP is 0xB to 0xF. -/
  | illegalOp
  /-- A reserved bit, or a field the opcode does not use, is nonzero. -/
  | rsvdField
  deriving DecidableEq, Repr

/-- The fields of a command word (R56). -/
def fieldsOf (c : Word) : Fields where
  op := c.extractLsb' 0 4
  rsvdLo := c.extractLsb' 4 4
  prec := c.extractLsb' 8 1
  role := c.extractLsb' 9 1
  rsvdHi := c.extractLsb' 10 22

/-- The word with the given fields (R56). -/
def wordOf (f : Fields) : Word := f.rsvdHi ++ f.role ++ f.prec ++ f.rsvdLo ++ f.op

/-- `PREC = c[8]` (R57). -/
def precOf (b : BitVec 1) : Prec := if b = 0#1 then .f32 else .f64

/-- `ROLE = c[9]` (R57). -/
def roleOf (b : BitVec 1) : Role := if b = 0#1 then .straight else .swap

/-- The opcode map (R58); `none` for the reserved opcodes. -/
def instrOf (f : Fields) : Option Instr :=
  match f.op.toNat with
  | 0x0 => some .nop
  | 0x1 => some (.fwd (precOf f.prec))
  | 0x2 => some (.inv (precOf f.prec))
  | 0x3 => some (.setup (precOf f.prec))
  | 0x4 => some (.bfly (precOf f.prec) (roleOf f.role))
  | 0x5 => some .bitrev
  | 0x6 => some .cadd
  | 0x7 => some .csub
  | 0x8 => some .cmul
  | 0x9 => some .cmag
  | 0xA => some .uroot
  | _ => none

/-- The command a word is, or why it is none: OP is checked first, then the reserved bits, PREC and ROLE (R61). -/
def decode (c : Word) : Except DecodeError Instr :=
  let f := fieldsOf c
  match instrOf f with
  | none => .error .illegalOp
  | some i =>
    if !f.reservedZero then .error .rsvdField
    else if !f.precAllowed then .error .rsvdField
    else if !f.roleAllowed then .error .rsvdField
    else .ok i

/-- The word of a command (R58, R63: `enc(m)`). -/
def encode (i : Instr) : Word := wordOf i.fields

/-- The command the decoder reads from a word whose bits are `w` in the numbering of spec/opcode_table.json, the
bits at `nbits` and above being zero. Every command is one 32-bit word (R55). -/
def decodeTableWord (nbits w : Nat) : Option Instr :=
  if 32 < nbits then none
  else
    match decode (BitVec.ofNat 32 (w % 2 ^ nbits)) with
    | .ok i => some i
    | .error _ => none

end Sys2Proof
end

