-- ==== Sys2Proof/Config.lean ====
section
/-! DEFINITION. What the spec fixes for every FFTU (00_scope.md R6), and the free values it leaves open
(93_implementation_defined.md U4, U5, U9). A free value is a constant without a body: nothing can be proved about it. -/

namespace Sys2Proof.Config

/-- The value ID always reads (10_state.md R20). -/
def idValue : Word := 0x46465401#32

/-- The default of the parameter NMAX_LOG2 (R6). An FFTU carries its own value in `State.inst`. -/
def nmaxLog2Default : Fin 25 := 24

/-- The host address space is divided into pages of 2^32 bytes; BASE is aligned to one (R6). -/
def pageBytes : Nat := 0x100000000

/-- The precisions, in bits beyond what the argument's size takes, at which cos and sin are enclosed in turn until
the enclosure settles the correctly rounded value (40_complex_arith.md R69). -/
def trigGuards : List Nat := [96, 384, 1536]

/-- Sign and payload of the binary64 NaN that the `n`-th store draws (U4, parameter NANVAL). Free value. -/
opaque nanBits64 : Nat → BitVec 52

/-- Sign and payload of the binary32 NaN that the `n`-th store draws (U4, parameter NANVAL). Free value. -/
opaque nanBits32 : Nat → BitVec 23

/-- The byte at a local offset of a buffer after the `epoch`-th reset, until it is written (U5, U7). Free value. -/
opaque resetByte : (epoch offset : Nat) → Byte

/-- Which of the two neighbours an enclosure leaves open is taken, for an argument on which no precision of
`trigGuards` settles the correctly rounded cos (`false`) or sin (`true`). Free value: log entry 6. -/
opaque trigTie : (sine : Bool) → (units : Nat) → Bool

end Sys2Proof.Config
end

