-- ==== Sys2Proof/Machine/State.lean ====
section
/-! DEFINITION. The state of FFTU as plain data (10_state.md), the accesses and reset edges the outside world may
make (20_memory.md, 70_reset_and_hazards.md R119), why a step may stop, and the state right after reset. -/

namespace Sys2Proof.Machine

/-- The host-visible registers that have storage (10_state.md R19). ID is a constant (R20) and has none. -/
structure Regs where
  /-- Interrupt enables (R21); bits 31:2 are 0. -/
  ctrl : Word
  /-- BUSY, DONE, ERR, ERR_OVF (R22); bits 31:4 are 0. -/
  status : Word
  /-- Code of the first error recorded since ERR was last cleared (R23). -/
  errcode : Word
  /-- Local offset of the access that caused it (R24). -/
  erraddr : Word
  /-- The last word written while BUSY = 0 (R25). -/
  cmd : Word
  /-- The transform length N (R26). -/
  len : Word
  /-- BITREV's index (R27). -/
  idx : Word
  /-- BITREV's bit width (R27). -/
  bits : Word
  /-- BITREV's result (R27). -/
  ridx : Word
  /-- The primitives' operands, binary64 patterns (R28). -/
  opaRe : DWord
  opaIm : DWord
  opbRe : DWord
  opbIm : DWord
  /-- The primitives' result (R29). -/
  resRe : DWord
  resIm : DWord
  deriving DecidableEq, Repr

/-- The engine's internal registers (10_state.md R35): the loop counters and twiddle registers of
43_butterfly.md R87 and the scale register of 42_setup.md R81. No host access reads them. -/
structure Hidden where
  stride : Nat
  i : Nat
  j : Nat
  w : Cplx
  wm : Cplx
  scale : Fp
  deriving DecidableEq, Repr

/-- What the outside world does next (00_scope.md R13, 20_memory.md R36). `addr` is a host byte address, `bytes` the
width of the access. -/
inductive Input where
  | read (addr bytes : Nat)
  | write (addr bytes : Nat) (data : DWord)
  /-- The reset input is asserted (`true`) or released (`false`): 70_reset_and_hazards.md R119. -/
  | reset (asserted : Bool)
  deriving DecidableEq, Repr

/-- FFTU's answer to a host access: the read data and whether it is an error response (20_memory.md R41). -/
structure Response where
  data : DWord
  error : Bool
  deriving DecidableEq, Repr

/-- The parameters of one FFTU (00_scope.md R6); no step changes them. -/
structure Params where
  /-- NMAX_LOG2. -/
  nmaxLog2 : Fin 25
  /-- BASE is `basePage` times 2^32. -/
  basePage : Nat
  deriving DecidableEq, Repr

/-- The outside world and what it sees of FFTU. -/
structure World where
  /-- The accesses and reset edges still to come, in the order the host makes them (20_memory.md R50). -/
  inputs : List Input
  /-- For each command still to be accepted, how many inputs come before its completion (LATENCY, R6). -/
  latencies : List Nat
  /-- How many inputs still come before the pending command's completion. -/
  delay : Nat
  /-- The answer to the most recent host access; `none` where it got none. -/
  response : Option Response
  /-- The reset input is asserted (70_reset_and_hazards.md R119). -/
  inReset : Bool
  deriving DecidableEq, Repr

/-- The state of the machine. -/
structure State where
  /-- The host-visible registers. -/
  regs : Regs
  /-- The accepted command between issue and completion (10_state.md R35). -/
  pending : Option Instr
  /-- The engine's internal registers. -/
  hidden : Hidden
  /-- The bytes of the four buffers written since reset, by local offset (20_memory.md R37). -/
  mem : List Host.Cell
  /-- How many buffer and result values have been stored: which NaN a store draws (93 U4). -/
  draws : Nat
  /-- How many times reset was asserted: which contents the buffers took (93 U5, U7). -/
  epoch : Nat
  /-- The parameters of this FFTU. -/
  inst : Params
  /-- The outside world. -/
  world : World
  deriving DecidableEq, Repr

/-- The four buffer memories (10_state.md R31). -/
inductive Buf where
  | inRe
  | inIm
  | outRe
  | outIm
  deriving DecidableEq, Repr

/-- The host-visible registers by name (10_state.md R19). -/
inductive Reg where
  | id | ctrl | status | errcode | erraddr | cmd | len | idx | bits | ridx
  | opaRe | opaIm | opbRe | opbIm | resRe | resIm
  deriving DecidableEq, Repr

/-- What an aligned offset names (20_memory.md R37): a register's slot or a buffer slot. -/
inductive Place where
  | reg (r : Reg)
  | slot (b : Buf) (k : Nat)
  deriving DecidableEq, Repr

/-- The errors FFTU records (60_exceptions.md R101). -/
inductive Err where
  | illegalOp
  | rsvdField
  | invalidLen
  | invalidBits
  | busyAccess
  | badWidth
  | misaligned
  | unmapped
  deriving DecidableEq, Repr

/-- Why the machine stops with a fault. -/
inductive Fault where
  /-- Raised by `Machine.engineTurn` when BUSY = 1 and no command is pending, a state no rule reaches: BUSY is set
  when a command becomes pending and cleared when it completes. Safe. -/
  | busyWithoutCommand
  deriving DecidableEq, Repr

/-- Why a command has no meaning. -/
inductive Refusal where
  /-- Raised by an arm of `Machine.exec` for a command without a meaning yet. No arm raises it. Safe. -/
  | notModelled (mnemonic : String)
  deriving DecidableEq, Repr

/-- The registers after reset: all 0 (70_reset_and_hazards.md R119). -/
def Regs.reset : Regs where
  ctrl := 0
  status := 0
  errcode := 0
  erraddr := 0
  cmd := 0
  len := 0
  idx := 0
  bits := 0
  ridx := 0
  opaRe := 0
  opaIm := 0
  opbRe := 0
  opbIm := 0
  resRe := 0
  resIm := 0

/-- The internal registers after reset. R119: unspecified, and never read before a command writes them. DESIGN
CHOICE: zero (log entry 7, unsafe). -/
def Hidden.reset : Hidden where
  stride := 0
  i := 0
  j := 0
  w := ⟨.fin false 0, .fin false 0⟩
  wm := ⟨.fin false 0, .fin false 0⟩
  scale := .fin false 0

/-- The machine right after reset (70_reset_and_hazards.md R119), with no host access to come. The buffers list
nothing: what they hold is drawn (log entry 4). The parameters are R6's default and, for BASE, page 0 (log entry 2). -/
def State.reset : State where
  regs := Regs.reset
  pending := none
  hidden := Hidden.reset
  mem := []
  draws := 0
  epoch := 0
  inst := ⟨Config.nmaxLog2Default, 0⟩
  world := ⟨[], [], 0, none, false⟩

end Sys2Proof.Machine
end

