-- ==== Sys2Proof/Machine/Flags.lean ====
section
/-! DEFINITION. FFTU has no arithmetic flags (10_state.md R30). Its status bits are those of STATUS (R22), enabled
onto `irq` by CTRL (R21, 60_exceptions.md R109). -/

namespace Sys2Proof.Machine

/-- STATUS.BUSY is bit 0 (R22). -/
def Regs.busy (r : Regs) : Bool := r.status.getLsbD 0

/-- STATUS.DONE is bit 1 (R22). -/
def Regs.done (r : Regs) : Bool := r.status.getLsbD 1

/-- STATUS.ERR is bit 2 (R22). -/
def Regs.err (r : Regs) : Bool := r.status.getLsbD 2

/-- STATUS.ERR_OVF is bit 3 (R22). -/
def Regs.errOvf (r : Regs) : Bool := r.status.getLsbD 3

/-- CTRL.IE_DONE is bit 0 (R21). -/
def Regs.ieDone (r : Regs) : Bool := r.ctrl.getLsbD 0

/-- CTRL.IE_ERR is bit 1 (R21). -/
def Regs.ieErr (r : Regs) : Bool := r.ctrl.getLsbD 1

/-- Set the STATUS bits of `m`. -/
def Regs.setStatus (r : Regs) (m : Word) : Regs := { r with status := r.status ||| m }

/-- Clear the STATUS bits of `m`. -/
def Regs.clearStatus (r : Regs) (m : Word) : Regs := { r with status := r.status &&& ~~~m }

/-- The masks of the STATUS bits (R22). -/
def busyMask : Word := 1#32
def doneMask : Word := 2#32
def errMask : Word := 4#32
def errOvfMask : Word := 8#32

/-- A host write of `v` to STATUS: a 1 clears DONE, ERR or ERR_OVF, a 0 and every other bit do nothing, and clearing
ERR also clears ERRCODE and ERRADDR (R22, 60_exceptions.md R111). -/
def Regs.writeStatus (r : Regs) (v : Word) : Regs :=
  let r' := r.clearStatus (v &&& (doneMask ||| errMask ||| errOvfMask))
  if v.getLsbD 2 then { r' with errcode := 0, erraddr := 0 } else r'

/-- A host write of `v` to CTRL: bits 31:2 are reserved and stay 0 (R21). -/
def Regs.writeCtrl (r : Regs) (v : Word) : Regs := { r with ctrl := v &&& 3#32 }

/-- The interrupt output (60_exceptions.md R109). -/
def Regs.irq (r : Regs) : Bool := (r.ieDone && r.done) || (r.ieErr && r.err)

/-- The interrupt output of the machine (60_exceptions.md R109). -/
def State.irq (s : State) : Bool := s.regs.irq

end Sys2Proof.Machine
end

