-- ==== Sys2Proof/Machine/Float.lean ====
section
/-! DEFINITION. IEEE 754 binary64 arithmetic with round to nearest, ties to even (00_scope.md R8, R9, R11): each
operation computes the exact result, a ratio of natural numbers in units of 2^-1074, and rounds it once. The special
value rules are IEEE 754's (93_implementation_defined.md G1, G2; log entry 13). -/

namespace Sys2Proof.Machine

/-- The units in 1.0: a finite magnitude of `u` units is `u / 2^1074`. -/
@[irreducible] def oneUnits : Nat := 2 ^ 1074

/-- The units in 2^1024, the least magnitude binary64 has no finite value for. -/
@[irreducible] def overflowUnits64 : Nat := 2 ^ 2098

/-- The units of binary64 in one unit of binary32, 2^-149. -/
@[irreducible] def unitsPer32 : Nat := 2 ^ 925

/-- 2^128 in units of 2^-149: the least magnitude binary32 has no finite value for. -/
@[irreducible] def overflowUnits32 : Nat := 2 ^ 277

/-- `num / den` rounded to the nearest natural number, ties to even. -/
def rneDiv (num den : Nat) : Nat :=
  if 2 * (num % den) < den then num / den
  else if den < 2 * (num % den) then num / den + 1
  else if num / den % 2 = 0 then num / den else num / den + 1

/-- How many low bits a number of `prec` significant bits has to leave out at the size of `q`. -/
def dropBits (prec q : Nat) : Nat := q.log2 + 1 - prec

/-- `num / den` rounded to the nearest natural number of at most `prec` significant bits, ties to even. -/
def roundRatio (prec num den : Nat) : Nat :=
  rneDiv num (den * 2 ^ dropBits prec (num / den)) * 2 ^ dropBits prec (num / den)

/-- The binary64 value nearest to plus or minus `num / den` units; a magnitude that rounds to 2^1024 or above is an
infinity. -/
def ofRatio (neg : Bool) (num den : Nat) : Fp :=
  if roundRatio 53 num den < overflowUnits64 then .fin neg (roundRatio 53 num den) else .inf neg

/-- The value of a natural number (exact up to 2^53; 42_setup.md R81 uses it up to 2^24). -/
def fpOfNat (n : Nat) : Fp := ofRatio false (n * oneUnits) 1

/-- +1.0. -/
def fpOne : Fp := .fin false oneUnits

/-- +0.0. -/
def fpZero : Fp := .fin false 0

/-- The value with the opposite sign. -/
def fneg : Fp → Fp
  | .nan => .nan
  | .inf n => .inf (!n)
  | .fin n u => .fin (!n) u

/-- The sum of two finite values: an exact zero sum of operands of unlike sign is +0. -/
def faddFin (n : Bool) (u : Nat) (m : Bool) (v : Nat) : Fp :=
  if n = m then ofRatio n (u + v) 1
  else if u = v then fpZero
  else if v < u then ofRatio n (u - v) 1
  else ofRatio m (v - u) 1

/-- IEEE 754 addition (R11). -/
def fadd : Fp → Fp → Fp
  | .nan, _ => .nan
  | _, .nan => .nan
  | .inf n, .inf m => if n = m then .inf n else .nan
  | .inf n, .fin _ _ => .inf n
  | .fin _ _, .inf m => .inf m
  | .fin n u, .fin m v => faddFin n u m v

/-- IEEE 754 subtraction (R11). -/
def fsub (a b : Fp) : Fp := fadd a (fneg b)

/-- IEEE 754 multiplication (R11). -/
def fmul : Fp → Fp → Fp
  | .nan, _ => .nan
  | _, .nan => .nan
  | .inf n, .inf m => .inf (n ^^ m)
  | .inf n, .fin m v => if v = 0 then .nan else .inf (n ^^ m)
  | .fin n u, .inf m => if u = 0 then .nan else .inf (n ^^ m)
  | .fin n u, .fin m v => ofRatio (n ^^ m) (u * v) oneUnits

/-- IEEE 754 division (R11). -/
def fdiv : Fp → Fp → Fp
  | .nan, _ => .nan
  | _, .nan => .nan
  | .inf _, .inf _ => .nan
  | .inf n, .fin m _ => .inf (n ^^ m)
  | .fin n _, .inf m => .fin (n ^^ m) 0
  | .fin n u, .fin m v =>
    if v = 0 then (if u = 0 then .nan else .inf (n ^^ m)) else ofRatio (n ^^ m) (u * oneUnits) v

/-- The integer square root of `x`, given that it is `r` plus a number below 2^k: its bits are found from 2^(k-1)
down. -/
def isqrtFrom (x : Nat) : (k r : Nat) → Nat
  | 0, r => r
  | k + 1, r => if (r + 2 ^ k) * (r + 2 ^ k) ≤ x then isqrtFrom x k (r + 2 ^ k) else isqrtFrom x k r

/-- The integer square root. -/
def isqrt (x : Nat) : Nat := isqrtFrom x (x.log2 / 2 + 1) 0

/-- How many low bits of the root of `x` are left out before it is rounded: all but 64 or 65. -/
def sqrtDrop (x : Nat) : Nat := (x.log2 - 128) / 2

/-- The root of `x`, doubled, to 64 or 65 bits, with its lowest bit set where it is inexact: between two whole
numbers it stands for the root when that is rounded to 53 bits. -/
def sqrtSticky (x : Nat) : Nat :=
  let h := sqrtDrop x
  let r := isqrt (x / 4 ^ h)
  (if r * r * 4 ^ h = x then 2 * r else 2 * r + 1) * 2 ^ h

/-- IEEE 754 square root (R11): of `u` units it is the root of `u * 2^1074` units. -/
def fsqrt : Fp → Fp
  | .nan => .nan
  | .inf n => if n then .nan else .inf false
  | .fin n u =>
    if u = 0 then .fin n 0 else if n then .nan else ofRatio false (sqrtSticky (u * oneUnits)) 2

/-- The exponent and fraction fields of a magnitude of `u` units in a format with `frac` fraction bits. -/
def magnitudeBits (frac u : Nat) : Nat := (u.log2 - frac) * 2 ^ frac + u / 2 ^ (u.log2 - frac)

/-- The units of the magnitude with exponent field `e` (not all ones) and fraction field `f` (R8). -/
def magnitudeUnits (frac e f : Nat) : Nat := if e = 0 then f else (2 ^ frac + f) * 2 ^ (e - 1)

/-- `fp64(b)`: the value of a binary64 pattern (R8, R11). -/
def fp64 (b : DWord) : Fp :=
  let neg := b.getLsbD 63
  let e := (b.extractLsb' 52 11).toNat
  let f := (b.extractLsb' 0 52).toNat
  if e = 2047 then (if f = 0 then .inf neg else .nan) else .fin neg (magnitudeUnits 52 e f)

/-- `fp32to64(b)`: the value of a binary32 pattern, exactly (R8, R11). -/
def fp32to64 (b : Word) : Fp :=
  let neg := b.getLsbD 31
  let e := (b.extractLsb' 23 8).toNat
  let f := (b.extractLsb' 0 23).toNat
  if e = 255 then (if f = 0 then .inf neg else .nan) else .fin neg (magnitudeUnits 23 e f * unitsPer32)

/-- The quiet binary64 NaN with the given sign and payload (93 U4). -/
def quietNan64 (x : BitVec 52) : DWord := x.extractLsb' 51 1 ++ 0xFFF#12 ++ x.extractLsb' 0 51

/-- The quiet binary32 NaN with the given sign and payload (93 U4). -/
def quietNan32 (x : BitVec 23) : Word := x.extractLsb' 22 1 ++ 0x1FF#9 ++ x.extractLsb' 0 22

/-- `bits64(x)`: the pattern of a value (R8, R11). A NaN is the `draw`-th drawn one (93 U4, log entry 5). -/
def bits64 (draw : Nat) : Fp → DWord
  | .nan => quietNan64 (Config.nanBits64 draw)
  | .inf n => BitVec.ofBool n ++ 0x7FF#11 ++ 0#52
  | .fin n u => BitVec.ofBool n ++ BitVec.ofNat 63 (magnitudeBits 52 u)

/-- `rn32(x)`: the value rounded to binary32, ties to even (R11). A magnitude that rounds to 2^128 or above is an
infinity. -/
def rn32 : Fp → Fp
  | .nan => .nan
  | .inf n => .inf n
  | .fin n u =>
    if roundRatio 24 u unitsPer32 < overflowUnits32 then .fin n (roundRatio 24 u unitsPer32 * unitsPer32) else .inf n

/-- `bits32(x)`: the binary32 pattern of a value binary32 has (R8, 20_memory.md R47). A NaN is the `draw`-th drawn
one (93 U4, log entry 5). -/
def bits32 (draw : Nat) : Fp → Word
  | .nan => quietNan32 (Config.nanBits32 draw)
  | .inf n => BitVec.ofBool n ++ 0xFF#8 ++ 0#23
  | .fin n u => BitVec.ofBool n ++ BitVec.ofNat 31 (magnitudeBits 23 (u / unitsPer32))

/-- A finite value binary64 has: its magnitude is below 2^1024 and is a multiple of its last place. -/
def representable : Fp → Bool
  | .nan => true
  | .inf _ => true
  | .fin _ u => u < overflowUnits64 && u % 2 ^ dropBits 53 u == 0

end Sys2Proof.Machine
end

