-- ==== Sys2Proof/Machine/Ops.lean ====
section
/-! DEFINITION. The shared operations: the buffer memory, the register file as the host sees it, the outcome of an
error (FFTU's exception: 60_exceptions.md R105, R107, R110), acceptance, rejection and completion of a command. -/

namespace Sys2Proof.Machine

/-! ## The buffer memory: the bytes written since reset, by local offset, addresses strictly rising -/

/-- The byte listed at `a`. -/
def Memory.get? : List Host.Cell → Nat → Option Byte
  | [], _ => none
  | c :: m, a => if a < c.1 then none else if a = c.1 then some c.2 else Memory.get? m a

/-- What an unlisted address holds: no byte written since reset. A read there gives the byte drawn at reset. -/
def Memory.unlisted : Option Byte := none

/-- The cells of consecutive bytes from `a` on. -/
def Memory.cells : (a : Nat) → List Byte → List Host.Cell
  | _, [] => []
  | a, v :: vs => (a, v) :: Memory.cells (a + 1) vs

/-- The memory with consecutive bytes listed from `a` on. -/
def Memory.splice (m : List Host.Cell) (a : Nat) (vs : List Byte) : List Host.Cell :=
  m.takeWhile (fun c => decide (c.1 < a)) ++ Memory.cells a vs ++
    m.dropWhile (fun c => decide (c.1 < a + vs.length))

/-- Addresses strictly rise. No entry equals what an unlisted address holds, since that is no byte. -/
def Memory.wf : List Host.Cell → Bool
  | [] => true
  | [_] => true
  | c :: d :: m => decide (c.1 < d.1) && Memory.wf (d :: m)

/-- The byte at local offset `a`: the byte written there since reset, else the one drawn at reset (10_state.md R33). -/
def State.byte (s : State) (a : Nat) : Byte := (Memory.get? s.mem a).getD (Config.resetByte s.epoch a)

/-- The first local offset of a buffer's window (20_memory.md R37). -/
def Buf.window : Buf → Nat
  | .inRe => 0x10000000
  | .inIm => 0x20000000
  | .outRe => 0x30000000
  | .outIm => 0x40000000

/-- The number of slots of each buffer, 2^NMAX_LOG2 (10_state.md R31). -/
def Params.slots (p : Params) : Nat := 2 ^ (p.nmaxLog2 : Nat)

/-- The local offset of slot `k` of a buffer (20_memory.md R37). -/
def slotAddr (b : Buf) (k : Nat) : Nat := b.window + 8 * k

/-- The 64 bits at local offset `a`: bits 7:0 lie at the lowest offset (20_memory.md R38). The listed bytes below
`a` are passed over once. -/
def State.bytes8 (s : State) (a : Nat) : DWord :=
  let m := s.mem.dropWhile (fun c => decide (c.1 < a))
  let byte (j : Nat) : Byte := (Memory.get? m (a + j)).getD (Config.resetByte s.epoch (a + j))
  byte 7 ++ byte 6 ++ byte 5 ++ byte 4 ++ byte 3 ++ byte 2 ++ byte 1 ++ byte 0

/-- `Buf[b][k]` (00_scope.md R13). -/
def State.slot (s : State) (b : Buf) (k : Nat) : DWord := s.bytes8 (slotAddr b k)

/-- The bytes of a slot's value, bits 7:0 first (20_memory.md R38). -/
def bytesOf (v : DWord) : List Byte := (List.range 8).map (fun j => v.extractLsb' (8 * j) 8)

/-- `Buf[b][k] <- v`. -/
def State.setSlot (s : State) (b : Buf) (k : Nat) (v : DWord) : State :=
  { s with mem := Memory.splice s.mem (slotAddr b k) (bytesOf v) }

/-! ## Registers as the host sees them -/

/-- The local offset of a register's slot (10_state.md R19). -/
def Reg.offset : Reg → Nat
  | .id => 0x000
  | .ctrl => 0x008
  | .status => 0x010
  | .errcode => 0x018
  | .erraddr => 0x020
  | .cmd => 0x028
  | .len => 0x030
  | .idx => 0x038
  | .bits => 0x040
  | .ridx => 0x048
  | .opaRe => 0x050
  | .opaIm => 0x058
  | .opbRe => 0x060
  | .opbIm => 0x068
  | .resRe => 0x070
  | .resIm => 0x078

/-- The registers in the order of their slots (10_state.md R19). -/
def Reg.all : List Reg :=
  [.id, .ctrl, .status, .errcode, .erraddr, .cmd, .len, .idx, .bits, .ridx, .opaRe, .opaIm, .opbRe, .opbIm, .resRe,
    .resIm]

/-- The value of a register's slot: a 32-bit register is zero-extended (20_memory.md R43). -/
def Regs.read (r : Regs) : Reg → DWord
  | .id => Config.idValue.setWidth 64
  | .ctrl => r.ctrl.setWidth 64
  | .status => r.status.setWidth 64
  | .errcode => r.errcode.setWidth 64
  | .erraddr => r.erraddr.setWidth 64
  | .cmd => r.cmd.setWidth 64
  | .len => r.len.setWidth 64
  | .idx => r.idx.setWidth 64
  | .bits => r.bits.setWidth 64
  | .ridx => r.ridx.setWidth 64
  | .opaRe => r.opaRe
  | .opaIm => r.opaIm
  | .opbRe => r.opbRe
  | .opbIm => r.opbIm
  | .resRe => r.resRe
  | .resIm => r.resIm

/-! ## Errors -/

/-- The code of an error in ERRCODE[7:0] (60_exceptions.md R101). -/
def Err.code : Err → Word
  | .illegalOp => 0x01
  | .rsvdField => 0x02
  | .invalidLen => 0x03
  | .invalidBits => 0x04
  | .busyAccess => 0x05
  | .badWidth => 0x06
  | .misaligned => 0x07
  | .unmapped => 0x08

/-- `record(E, a)`: the first error since ERR was cleared is kept with its offset, a later one sets ERR_OVF (R105). -/
def Regs.record (r : Regs) (e : Err) (a : Word) : Regs :=
  if r.err then r.setStatus errOvfMask
  else { r.setStatus errMask with errcode := e.code, erraddr := a }

/-- Taking an exception: the error is recorded and nothing else changes (R105, R107, R110). -/
def State.recordError (s : State) (e : Err) (a : Word) : State := { s with regs := s.regs.record e a }

/-- The answer to a host access. -/
def State.respond (s : State) (data : DWord) (error : Bool) : State :=
  { s with world := { s.world with response := some ⟨data, error⟩ } }

/-- A host access ends in a bus error: the error is recorded with the access's offset, the data read is 0 and the
host sees an error response (20_memory.md R41). -/
def State.busError (s : State) (e : Err) (a : Word) : State := (s.recordError e a).respond 0 true

/-! ## The life of a command -/

/-- The offset of CMD, which ERRADDR holds for a command error (10_state.md R24). -/
def cmdOffset : Word := 0x028#32

/-- `reject(E)`: the error is recorded at CMD's offset and DONE is set (30_encoding.md R61). -/
def State.reject (s : State) (e : Err) : State :=
  { s with regs := (s.regs.record e cmdOffset).setStatus doneMask }

/-- `validLen(n)` (30_encoding.md R60). -/
def validLen (p : Params) (n : Word) : Bool := n != 0#32 && n &&& (n - 1#32) == 0#32 && decide (n.toNat ≤ p.slots)

/-- The checks of R61 on the operand registers of a decoded command. -/
def operandError (s : State) (i : Instr) : Option Err :=
  if i.usesLen && !validLen s.inst s.regs.len then some .invalidLen
  else if i == .bitrev && decide (24#32 < s.regs.bits) then some .invalidBits
  else none

/-- The latency of a command accepted now: how many inputs come before its completion (LATENCY, 00_scope.md R6). -/
def World.nextDelay (w : World) : World :=
  { w with delay := w.latencies.headD 0, latencies := w.latencies.tail }

/-- Acceptance: the command becomes pending, DONE is cleared and BUSY set (R61, 10_state.md R22). DEDUCED: R109 names
the host's write to STATUS alone as what clears DONE (log entry 15, unsafe). -/
def State.accept (s : State) (i : Instr) : State :=
  { s with
    pending := some i
    regs := (s.regs.clearStatus doneMask).setStatus busyMask
    world := s.world.nextDelay }

/-- `issue(c)` once BUSY is known to be 0: CMD latches the word, then the word and the operand registers are checked
in R61's order. -/
def State.issue (s : State) (c : Word) : State :=
  let s := { s with regs := { s.regs with cmd := c } }
  match decode c with
  | .error .illegalOp => s.reject .illegalOp
  | .error .rsvdField => s.reject .rsvdField
  | .ok i =>
    match operandError s i with
    | some e => s.reject e
    | none => s.accept i

/-- Completion: BUSY is cleared, DONE set, and no command is pending (60_exceptions.md R108). -/
def State.complete (s : State) : State :=
  { s with pending := none, regs := (s.regs.clearStatus busyMask).setStatus doneMask }

/-- A reset: the registers take their reset values, the pending command is abandoned, the buffers are drawn anew;
the parameters and the outside world stay (70_reset_and_hazards.md R119). -/
def State.afterReset (s : State) : State :=
  { s with
    regs := Regs.reset
    pending := none
    hidden := Hidden.reset
    mem := []
    epoch := s.epoch + 1
    world := { s.world with delay := 0, response := none } }

end Sys2Proof.Machine
end

