-- ==== Sys2Proof/Machine/Bus.lean ====
section
/-! DEFINITION. The host's accesses to the local offset space (20_memory.md): the checks in R106's order, register
and buffer accesses, and the busy lockout (70_reset_and_hazards.md R122). -/

namespace Sys2Proof.Machine

/-! ## Addresses -/

/-- BASE, the host address of local offset 0 (00_scope.md R6, 20_memory.md R36). -/
def Params.base (p : Params) : Nat := p.basePage * Config.pageBytes

/-- The local offset a host address reaches; `none` where it does not reach this FFTU (R36). -/
def Params.localOffset (p : Params) (addr : Nat) : Option Word :=
  if addr / Config.pageBytes = p.basePage then some (BitVec.ofNat 32 (addr % Config.pageBytes)) else none

/-- The register whose slot holds a local offset below 0x80 (10_state.md R19). -/
def regAt (off : Nat) : Option Reg := Reg.all[off / 8]?

/-- The buffer whose window, as far as it is populated, holds a local offset, and the slot (R37, R44). -/
def slotAt (p : Params) (b : Buf) (off : Nat) : Option Place :=
  if b.window ≤ off ∧ (off - b.window) / 8 < p.slots then some (.slot b ((off - b.window) / 8)) else none

/-- What a local offset names; `none` where it is unmapped (R37, R42). -/
def placeAt (p : Params) (off : Nat) : Option Place :=
  if off < 0x80 then (regAt off).map .reg
  else if off < 0x10000000 then none
  else if off < 0x20000000 then slotAt p .inRe off
  else if off < 0x30000000 then slotAt p .inIm off
  else if off < 0x40000000 then slotAt p .outRe off
  else if off < 0x50000000 then slotAt p .outIm off
  else none

/-! ## Data lanes -/

/-- An access that reaches bits 31:0 of its slot: every 8-byte access, and a 4-byte one at the slot's offset
(R38, R43, R44). -/
def coversLow (off bytes : Nat) : Bool := bytes == 8 || off % 8 == 0

/-- The data read from a slot that holds `v` (R38, R43, R44). -/
def readLanes (off bytes : Nat) (v : DWord) : DWord :=
  if bytes = 8 then v
  else if off % 8 = 0 then (v.extractLsb' 0 32).setWidth 64
  else (v.extractLsb' 32 32).setWidth 64

/-- A slot that holds `v` after `data` is written to it: a 4-byte write leaves the other half (R43, R44). -/
def writeLanes (off bytes : Nat) (v data : DWord) : DWord :=
  if bytes = 8 then data
  else if off % 8 = 0 then v.extractLsb' 32 32 ++ data.extractLsb' 0 32
  else data.extractLsb' 0 32 ++ v.extractLsb' 0 32

/-! ## The checks -/

/-- The registers a write to which is refused while BUSY = 1 (70_reset_and_hazards.md R122). -/
def Reg.lockedOnWrite : Reg → Bool
  | .cmd | .len | .idx | .bits | .opaRe | .opaIm | .opbRe | .opbIm => true
  | .id | .ctrl | .status | .errcode | .erraddr | .ridx | .resRe | .resIm => false

/-- The accesses refused while BUSY = 1: every buffer access, and writes to CMD and the operand registers (R122). -/
def Place.locked (write : Bool) : Place → Bool
  | .reg r => write && r.lockedOnWrite
  | .slot _ _ => true

/-- What an access reaches, or the error it ends in: BAD_WIDTH, then MISALIGNED, then UNMAPPED, then BUSY_ACCESS
(60_exceptions.md R106). -/
def checkAccess (s : State) (write : Bool) (off bytes : Nat) : Except Err Place :=
  if ¬(bytes = 4 ∨ bytes = 8) then .error .badWidth
  else if off % bytes ≠ 0 then .error .misaligned
  else
    match placeAt s.inst off with
    | none => .error .unmapped
    | some p => if s.regs.busy && p.locked write then .error .busyAccess else .ok p

/-! ## Reads and writes -/

/-- The value of the slot a place names (R43, R44). -/
def State.readPlace (s : State) : Place → DWord
  | .reg r => s.regs.read r
  | .slot b k => s.slot b k

/-- `MemRead`: a host read of `bytes` bytes at a local offset (00_scope.md R13). No read has a side effect (R48). -/
def State.hostRead (s : State) (off : Word) (bytes : Nat) : State :=
  match checkAccess s false off.toNat bytes with
  | .error e => s.busError e off
  | .ok p => s.respond (readLanes off.toNat bytes (s.readPlace p)) false

/-- A host write to a register. One that does not reach bits 31:0 of a 32-bit register is ignored, as is one to a
read-only register (R43); one that reaches bits 31:0 of CMD issues a command (10_state.md R25). -/
def State.writeReg (s : State) (r : Reg) (off bytes : Nat) (data : DWord) : State :=
  let low := data.extractLsb' 0 32
  let whole (v : DWord) := writeLanes off bytes v data
  match r with
  | .opaRe => { s with regs := { s.regs with opaRe := whole s.regs.opaRe } }
  | .opaIm => { s with regs := { s.regs with opaIm := whole s.regs.opaIm } }
  | .opbRe => { s with regs := { s.regs with opbRe := whole s.regs.opbRe } }
  | .opbIm => { s with regs := { s.regs with opbIm := whole s.regs.opbIm } }
  | .ctrl => if coversLow off bytes then { s with regs := s.regs.writeCtrl low } else s
  | .status => if coversLow off bytes then { s with regs := s.regs.writeStatus low } else s
  | .cmd => if coversLow off bytes then s.issue low else s
  | .len => if coversLow off bytes then { s with regs := { s.regs with len := low } } else s
  | .idx => if coversLow off bytes then { s with regs := { s.regs with idx := low } } else s
  | .bits => if coversLow off bytes then { s with regs := { s.regs with bits := low } } else s
  | .id | .errcode | .erraddr | .ridx | .resRe | .resIm => s

/-- A host write to the slot a place names (R43, R44). -/
def State.writePlace (s : State) (p : Place) (off bytes : Nat) (data : DWord) : State :=
  match p with
  | .reg r => s.writeReg r off bytes data
  | .slot b k => s.setSlot b k (writeLanes off bytes (s.slot b k) data)

/-- `MemWrite`: a host write of `bytes` bytes at a local offset (00_scope.md R13). -/
def State.hostWrite (s : State) (off : Word) (bytes : Nat) (data : DWord) : State :=
  match checkAccess s true off.toNat bytes with
  | .error e => s.busError e off
  | .ok p => (s.writePlace p off.toNat bytes data).respond 0 false

/-! ## One input -/

/-- No answer: the access does not reach this FFTU, or reset is asserted (20_memory.md R36,
70_reset_and_hazards.md R119). -/
def State.unanswered (s : State) : State := { s with world := { s.world with response := none } }

/-- Reset is asserted or released (70_reset_and_hazards.md R119). -/
def State.setReset (s : State) (asserted : Bool) : State :=
  let s := if asserted then s.afterReset else s
  { s with world := { s.world with inReset := asserted } }

/-- What one input does (10_state.md R15: a host step is one bus access). While reset is asserted no access is
answered. -/
def State.input (s : State) : Input → State
  | .reset asserted => s.setReset asserted
  | .read addr bytes =>
    match s.inst.localOffset addr with
    | some off => if s.world.inReset then s.unanswered else s.hostRead off bytes
    | none => s.unanswered
  | .write addr bytes data =>
    match s.inst.localOffset addr with
    | some off => if s.world.inReset then s.unanswered else s.hostWrite off bytes data
    | none => s.unanswered

/-- The host's step: its next input, or nothing where it makes none. -/
def hostTurn (s : State) : State :=
  match s.world.inputs with
  | [] => s
  | x :: xs => State.input { s with world := { s.world with inputs := xs, delay := s.world.delay - 1 } } x

/-- The engine has the next step: a command is running, and no further host access comes before its completion
(60_exceptions.md R108, 70_reset_and_hazards.md R126). -/
def engineReady (s : State) : Bool :=
  !s.world.inReset && s.regs.busy && (s.world.delay == 0 || s.world.inputs.isEmpty)

/-! ## Host programs (30_encoding.md R64), on local offsets -/

/-- `st32 off, v`. -/
def Params.st32 (p : Params) (off : Nat) (v : Word) : Input := .write (p.base + off) 4 (v.setWidth 64)

/-- `st64 off, v`. -/
def Params.st64 (p : Params) (off : Nat) (v : DWord) : Input := .write (p.base + off) 8 v

/-- `ld32 off`. -/
def Params.ld32 (p : Params) (off : Nat) : Input := .read (p.base + off) 4

/-- `ld64 off`. -/
def Params.ld64 (p : Params) (off : Nat) : Input := .read (p.base + off) 8

/-- `cmd m`. -/
def Params.cmd (p : Params) (i : Instr) : Input := p.st32 0x028 (encode i)

/-- `clrst`. -/
def Params.clrst (p : Params) : Input := p.st32 0x010 0x0000000E

/-- One access of `wait`'s polling loop. -/
def Params.poll (p : Params) : Input := p.ld32 0x010

end Sys2Proof.Machine
end

