-- ==== Sys2Proof/Machine/Operands.lean ====
section
/-! DEFINITION. The operands of the commands (30_encoding.md R57): LEN, IDX and BITS, the complex operands OPA and
OPB, the result registers, and the typed slot accesses `ld` and `st` (20_memory.md R45 to R47). -/

namespace Sys2Proof.Machine

/-- N = x[LEN], an unsigned number (10_state.md R26). -/
def State.lenN (s : State) : Nat := s.regs.len.toNat

/-- `log2(N)` (30_encoding.md R60). For a valid N it is the k with 2^k = N. -/
def log2N (n : Nat) : Nat := n.log2

/-- OPA (10_state.md R28). -/
def State.opA (s : State) : Cplx := ⟨fp64 s.regs.opaRe, fp64 s.regs.opaIm⟩

/-- OPB (10_state.md R28). -/
def State.opB (s : State) : Cplx := ⟨fp64 s.regs.opbRe, fp64 s.regs.opbIm⟩

/-- `x[RES_RE] <- z.re ; x[RES_IM] <- z.im` (10_state.md R29). -/
def State.writeRes (s : State) (z : Cplx) : State :=
  { s with
    regs := { s.regs with resRe := bits64 s.draws z.re, resIm := bits64 (s.draws + 1) z.im }
    draws := s.draws + 2 }

/-- `ld(b, k, prec)`: the engine's typed slot read (20_memory.md R46). -/
def State.ld (s : State) (b : Buf) (k : Nat) (p : Prec) : Fp :=
  match p with
  | .f64 => fp64 (s.slot b k)
  | .f32 => fp32to64 ((s.slot b k).extractLsb' 0 32)

/-- The value a stored value is read back as: with PREC = 0 it was rounded once to binary32 (00_scope.md R9). -/
def storedValue (p : Prec) (x : Fp) : Fp :=
  match p with
  | .f64 => x
  | .f32 => rn32 x

/-- The 64 bits a value takes in a slot: with PREC = 0 it is rounded once to binary32, bits 63:32 being 0 (R45,
R47). -/
def storeBits (p : Prec) (draw : Nat) (x : Fp) : DWord :=
  match p with
  | .f64 => bits64 draw x
  | .f32 => (bits32 draw (rn32 x)).setWidth 64

/-- `st(b, k, prec, x)`: the engine's typed slot write (20_memory.md R47). -/
def State.st (s : State) (b : Buf) (k : Nat) (p : Prec) (x : Fp) : State :=
  { s.setSlot b k (storeBits p s.draws x) with draws := s.draws + 1 }

/-- The complex value at slot k of a buffer pair (43_butterfly.md R86). -/
def State.ldPair (s : State) (a b : Buf) (k : Nat) (p : Prec) : Cplx := ⟨s.ld a k p, s.ld b k p⟩

/-- Store a complex value at slot k of a buffer pair, the A part first (43_butterfly.md R87). -/
def State.stPair (s : State) (a b : Buf) (k : Nat) (p : Prec) (z : Cplx) : State :=
  (s.st a k p z.re).st b k p z.im

end Sys2Proof.Machine
end

