-- ==== Sys2Proof/Machine/Trig.lean ====
section
/-! DEFINITION. The twiddle-factor generator (40_complex_arith.md R69): cos and sin of the exact value of a binary64
number, correctly rounded. Both are enclosed by whole numbers in units of 2^-p; where the two ends of an enclosure
round to the same binary64 value, that value is the correctly rounded one. -/

namespace Sys2Proof.Machine

/-- An enclosure in units of 2^-p: cos differs from `c` and sin from `s` by at most `e`. -/
structure TrigBox where
  c : Int
  s : Int
  e : Nat
  deriving DecidableEq, Repr

/-- The enclosure at the angle `x / 2^p` between 0 and 1: cos is 1 - a^2/2 and sin is a - a^3/6, each to within
a^4/16. -/
def trigStart (p x : Nat) : TrigBox where
  c := (2 ^ p : Nat) - ((x ^ 2 / 2 ^ (p + 1) : Nat) : Int)
  s := (x : Int) - ((x ^ 3 / (6 * 2 ^ (2 * p)) : Nat) : Int)
  e := x ^ 4 / (16 * 2 ^ (3 * p)) + 2

/-- The enclosure at twice the angle, by the double-angle formulas. -/
def trigDouble (p : Nat) (b : TrigBox) : TrigBox where
  c := (b.c * b.c - b.s * b.s) / ((2 ^ p : Nat) : Int)
  s := (2 * b.c * b.s) / ((2 ^ p : Nat) : Int)
  e := 2 * b.e * (b.c.natAbs + b.s.natAbs + b.e) / 2 ^ p + 2

/-- The enclosure after doubling the angle `m` times. One wider than 1 says nothing more and is given up for the
one that holds at every angle. -/
def trigDoubles (p : Nat) : (m : Nat) → TrigBox → TrigBox
  | 0, b => b
  | m + 1, b => if 2 ^ p < b.e then ⟨0, 0, 2 ^ p⟩ else trigDoubles p m (trigDouble p b)

/-- How often an angle of `units` units is halved before it is enclosed, for `guard` bits of precision: until it is
below 2^-guard, and once more for each bit of its whole part. -/
def trigHalvings (guard units : Nat) : Nat :=
  (units.log2 + 1 + guard - 1074) + (units.log2 + 1 - 1074)

/-- The precision `p` at which the angle is enclosed. -/
def trigPrecision (guard units : Nat) : Nat := 1074 + 2 * trigHalvings guard units + guard

/-- The enclosure of cos and sin at `units` units. -/
def trigEnclose (guard units : Nat) : TrigBox :=
  let m := trigHalvings guard units
  let p := trigPrecision guard units
  trigDoubles p m (trigStart p (units * 2 ^ (p - 1074 - m)))

/-- Which of the two functions: `false` is cos, `true` is sin. -/
def TrigBox.mid (b : TrigBox) (sine : Bool) : Int := if sine then b.s else b.c

/-- The binary64 value nearest to `v` in units of 2^-p. -/
def roundAt (p : Nat) (v : Int) : Fp := ofRatio (decide (v < 0)) v.natAbs (2 ^ (p - 1074))

/-- cos or sin of `units` units, correctly rounded: the guards are tried in turn until an enclosure's two ends
round alike. Where the last one still leaves two neighbours, which of them it is stays open (log entry 6). -/
def trigRound (sine : Bool) (units : Nat) : List Nat → Fp
  | [] => .nan
  | g :: gs =>
    let b := trigEnclose g units
    let p := trigPrecision g units
    let lo := roundAt p (b.mid sine - b.e)
    let hi := roundAt p (b.mid sine + b.e)
    if lo = hi then lo
    else match gs with
      | [] => if Config.trigTie sine units then hi else lo
      | _ :: _ => trigRound sine units gs

/-- `RN64(cos(t))` for a finite t (R69): cos is even, and cos of either zero is 1.0. -/
def cosRN (units : Nat) : Fp := if units = 0 then fpOne else trigRound false units Config.trigGuards

/-- `RN64(sin(t))` for a finite t (R69): sin is odd, and sin of a zero is that zero. -/
def sinRN (neg : Bool) (units : Nat) : Fp :=
  if units = 0 then .fin neg 0
  else if neg then fneg (trigRound true units Config.trigGuards)
  else trigRound true units Config.trigGuards

/-- `π64`, pattern 0x400921FB54442D18 (00_scope.md R11). -/
def piFp : Fp := fp64 0x400921FB54442D18#64

/-- `unitRoot(x)` (R69): cos and sin of the rounded product of π64 and x. -/
def unitRoot (x : Fp) : Cplx :=
  match fmul piFp x with
  | .nan => ⟨.nan, .nan⟩
  | .inf _ => ⟨.nan, .nan⟩
  | .fin n u => ⟨cosRN u, sinRN n u⟩

end Sys2Proof.Machine
end

