-- ==== Sys2Proof/Machine/Arith.lean ====
section
/-! DEFINITION. Complex arithmetic (40_complex_arith.md): the adder/subtractor, the cross-term multiplier, the
magnitude, and the commands CADD, CSUB, CMUL, CMAG and UROOT. -/

namespace Sys2Proof.Machine

/-- Complex addition (R65). -/
def cadd (a b : Cplx) : Cplx := ⟨fadd a.re b.re, fadd a.im b.im⟩

/-- Complex subtraction (R66). -/
def csub (a b : Cplx) : Cplx := ⟨fsub a.re b.re, fsub a.im b.im⟩

/-- Complex multiplication by the cross-term rule: four rounded products, one rounded difference, one rounded sum
(R67). -/
def cmul (a b : Cplx) : Cplx :=
  ⟨fsub (fmul a.re b.re) (fmul a.im b.im), fadd (fmul a.re b.im) (fmul a.im b.re)⟩

/-- Magnitude by the Euclidean norm, without scaling (R68). -/
def cmag (a : Cplx) : Fp := fsqrt (fadd (fmul a.re a.re) (fmul a.im a.im))

/-- CADD (R71). -/
def execCadd (s : State) : Host.Outcome State Fault Refusal := .next (s.writeRes (cadd s.opA s.opB)).complete

/-- CSUB (R72). -/
def execCsub (s : State) : Host.Outcome State Fault Refusal := .next (s.writeRes (csub s.opA s.opB)).complete

/-- CMUL (R73). -/
def execCmul (s : State) : Host.Outcome State Fault Refusal := .next (s.writeRes (cmul s.opA s.opB)).complete

/-- CMAG: OPB is ignored, RES_IM is +0.0 (R74). -/
def execCmag (s : State) : Host.Outcome State Fault Refusal := .next (s.writeRes ⟨cmag s.opA, fpZero⟩).complete

/-- UROOT: OPA_IM and OPB are ignored (R75). -/
def execUroot (s : State) : Host.Outcome State Fault Refusal := .next (s.writeRes (unitRoot s.opA.re)).complete

end Sys2Proof.Machine
end

