-- ==== Sys2Proof/Machine/Butterfly.lean ====
section
/-! DEFINITION. The butterfly unit (43_butterfly.md): the in-place radix-2 stages on a pair of output buffers. The
loop counters and twiddle registers of R87 are `State.hidden`. -/

namespace Sys2Proof.Machine

/-- A for BFLY with the given ROLE (R86). -/
def roleA : Role → Buf
  | .straight => .outRe
  | .swap => .outIm

/-- B for BFLY with the given ROLE (R86). -/
def roleB : Role → Buf
  | .straight => .outIm
  | .swap => .outRe

/-- The body of R87's innermost loop at index `j`: one butterfly, then the running twiddle advances (R88). -/
def bflyPoint (a b : Buf) (p : Prec) (s : State) (j : Nat) : State :=
  let idx0 := s.hidden.i + j
  let idx1 := idx0 + s.hidden.stride
  let x := s.ldPair a b idx0 p
  let q := cmul s.hidden.w (s.ldPair a b idx1 p)
  let s := (s.stPair a b idx0 p (cadd x q)).stPair a b idx1 p (csub x q)
  { s with hidden := { s.hidden with j := j + 1, w := cmul s.hidden.w s.hidden.wm } }

/-- One block of a stage, at block offset `i`: the twiddle starts at (1.0, +0.0) (R87, R88). -/
def bflyBlock (a b : Buf) (p : Prec) (s : State) (i : Nat) : State :=
  (List.range s.hidden.stride).foldl (bflyPoint a b p)
    { s with hidden := { s.hidden with i := i, j := 0, w := ⟨fpOne, fpZero⟩ } }

/-- The block offsets of a stage: 0, 2·stride, 4·stride, … below N (R87). -/
def blockOffsets (n stride : Nat) : List Nat := (List.range (n / (2 * stride))).map (· * (2 * stride))

/-- The twiddle increment of a stage, `unitRoot(fdiv(-1.0, stride))` (R87). -/
def twiddleStep (stride : Nat) : Cplx := unitRoot (fdiv (fneg fpOne) (fpOfNat stride))

/-- One stage with the given stride, after which the stride doubles (R87). -/
def bflyStage (a b : Buf) (n : Nat) (p : Prec) (s : State) (stride : Nat) : State :=
  let s := (blockOffsets n stride).foldl (bflyBlock a b p)
    { s with hidden := { s.hidden with stride := stride, wm := twiddleStep stride } }
  { s with hidden := { s.hidden with stride := 2 * stride } }

/-- The strides of the stages: 1, 2, 4, … below N (R87). -/
def strides (n : Nat) : List Nat := (List.range (log2N n)).map (2 ^ ·)

/-- `butterfly(A, B, N, prec)` (R87). -/
def butterfly (a b : Buf) (n : Nat) (p : Prec) (s : State) : State :=
  (strides n).foldl (bflyStage a b n p) { s with hidden := { s.hidden with stride := 1 } }

/-- BFLY (R92). -/
def execBfly (p : Prec) (r : Role) (s : State) : Host.Outcome State Fault Refusal :=
  .next (butterfly (roleA r) (roleB r) s.lenN p s).complete

end Sys2Proof.Machine
end

