-- ==== Sys2Proof/Machine/BitRev.lean ====
section
/-! DEFINITION. The bit-reversal permutation unit (41_bitrev.md): the ROM, the 24-bit reversal and BITREV. -/

namespace Sys2Proof.Machine

/-- The bit-reversal ROM: 64 entries of 6 bits (R76; 10_state.md R34). -/
def rev6Rom : List Nat :=
  [0, 32, 16, 48, 8, 40, 24, 56] ++ [4, 36, 20, 52, 12, 44, 28, 60] ++
  [2, 34, 18, 50, 10, 42, 26, 58] ++ [6, 38, 22, 54, 14, 46, 30, 62] ++
  [1, 33, 17, 49, 9, 41, 25, 57] ++ [5, 37, 21, 53, 13, 45, 29, 61] ++
  [3, 35, 19, 51, 11, 43, 27, 59] ++ [7, 39, 23, 55, 15, 47, 31, 63]

/-- `REV6[k]` (R76). -/
def rev6 (k : Nat) : Nat := rev6Rom.getD k 0

/-- The 6-bit group of `i` whose lowest bit is bit `lo`. -/
def group6 (i lo : Nat) : Nat := i / 2 ^ lo % 64

/-- `rev24(i)`: four ROM lookups (R77). -/
def rev24 (i : Nat) : Nat :=
  rev6 (group6 i 0) <<< 18 ||| rev6 (group6 i 6) <<< 12 ||| rev6 (group6 i 12) <<< 6 ||| rev6 (group6 i 18)

/-- `bitrev(i, b)` for 0 ≤ b ≤ 24 (R78). -/
def bitrev (i b : Nat) : Nat := rev24 (i % 2 ^ 24) >>> (24 - b)

/-- BITREV (R80). -/
def execBitrev (s : State) : Host.Outcome State Fault Refusal :=
  .next { s with
    regs := { s.regs with ridx := BitVec.ofNat 32 (bitrev s.regs.idx.toNat s.regs.bits.toNat) } }.complete

end Sys2Proof.Machine
end

