-- ==== Sys2Proof/Machine/Setup.lean ====
section
/-! DEFINITION. Input permutation and output scaling (42_setup.md). -/

namespace Sys2Proof.Machine

/-- `scale(N)`: one rounded square root, then one rounded reciprocal (R81). -/
def scaleOf (n : Nat) : Fp := fdiv fpOne (fsqrt (fpOfNat n))

/-- One round of Setup's loop: input sample `i`, scaled, to the bit-reversed output slot (R82). -/
def setupPoint (p : Prec) (b : Nat) (s : State) (i : Nat) : State :=
  let s := s.st .outRe (bitrev i b) p (fmul (s.ld .inRe i p) s.hidden.scale)
  s.st .outIm (bitrev i b) p (fmul (s.ld .inIm i p) s.hidden.scale)

/-- `setup(N, prec)` (R82). The scale register takes `scale(N)`. -/
def setup (n : Nat) (p : Prec) (s : State) : State :=
  (List.range n).foldl (setupPoint p (log2N n)) { s with hidden := { s.hidden with scale := scaleOf n } }

/-- SETUP (R85). -/
def execSetup (p : Prec) (s : State) : Host.Outcome State Fault Refusal := .next (setup s.lenN p s).complete

end Sys2Proof.Machine
end

