-- ==== Sys2Proof/Machine/Transform.lean ====
section
/-! DEFINITION. The forward and inverse transforms (44_transform.md): Setup, then the butterfly; the inverse
exchanges the butterfly's buffers. -/

namespace Sys2Proof.Machine

/-- FWD (R93). -/
def execFwd (p : Prec) (s : State) : Host.Outcome State Fault Refusal :=
  .next (butterfly .outRe .outIm s.lenN p (setup s.lenN p s)).complete

/-- INV (R94). -/
def execInv (p : Prec) (s : State) : Host.Outcome State Fault Refusal :=
  .next (butterfly .outIm .outRe s.lenN p (setup s.lenN p s)).complete

end Sys2Proof.Machine
end

