-- ==== Sys2Proof/Machine/Dispatch.lean ====
section
/-! DEFINITION. The engine's step on a command: `perform` and completion (60_exceptions.md R108), one arm per
constructor of `Instr`. -/

namespace Sys2Proof.Machine

def exec (i : Instr) (s : State) : Host.Outcome State Fault Refusal :=
  match i with
  | .nop => Sys2Proof.Machine.execNop s
  | .fwd p => Sys2Proof.Machine.execFwd p s
  | .inv p => Sys2Proof.Machine.execInv p s
  | .setup p => Sys2Proof.Machine.execSetup p s
  | .bfly p r => Sys2Proof.Machine.execBfly p r s
  | .bitrev => Sys2Proof.Machine.execBitrev s
  | .cadd => Sys2Proof.Machine.execCadd s
  | .csub => Sys2Proof.Machine.execCsub s
  | .cmul => Sys2Proof.Machine.execCmul s
  | .cmag => Sys2Proof.Machine.execCmag s
  | .uroot => Sys2Proof.Machine.execUroot s

end Sys2Proof.Machine
end

