-- ==== Sys2Proof/Machine/Step.lean ====
section
/-! DEFINITION. One step of the machine: a step of the engine or a step of the host (10_state.md R15), in the one
total order of 20_memory.md R50. -/

namespace Sys2Proof.Machine

/-- The engine's step: it performs the pending command and completes it (60_exceptions.md R108). -/
def engineTurn (s : State) : Host.Outcome State Fault Refusal :=
  match s.pending with
  | some i => exec i s
  | none => .fault .busyWithoutCommand

/-- One step. An FFTU with no command running and no access to come stays as it is (60_exceptions.md R118). -/
def step (s : State) : Host.Outcome State Fault Refusal :=
  if engineReady s then engineTurn s else .next (hostTurn s)

/-- The state in which the command whose bits are `w` has just been accepted and the engine has the next step. A
length or bit width that R61 would not accept for it is replaced by the least one it would. A word that is no
command is the host's next CMD write instead. -/
def State.withFetchWord (s : State) (nbits w : Nat) : State :=
  match decodeTableWord nbits w with
  | some i =>
    { s with
      pending := some i
      regs :=
        { (s.regs.clearStatus doneMask).setStatus busyMask with
          cmd := encode i
          len := if operandError s i = some .invalidLen then 1 else s.regs.len
          bits := if operandError s i = some .invalidBits then 0 else s.regs.bits }
      world := { s.world with delay := 0, inReset := false } }
  | none =>
    { s with
      pending := none
      regs := s.regs.clearStatus busyMask
      world :=
        { s.world with
          inputs := s.inst.st32 0x028 (BitVec.ofNat 32 (w % 2 ^ nbits)) :: s.world.inputs
          inReset := false } }

end Sys2Proof.Machine
end

