-- ==== Sys2Proof/Safety.lean ====
section
/-! DEFINITION. What counts as a safe run, and the terms the statements are made in: the invariant of the machine, the
pure values the transforms compute, and what it means to be a correctly rounded value. -/

namespace Sys2Proof.Machine

/-! ## The invariant -/

/-- The byte at `x` belongs to a slot of a buffer (20_memory.md R37). -/
def inSlot (p : Params) (x : Nat) : Prop := ∃ b k, k < p.slots ∧ slotAddr b k ≤ x ∧ x < slotAddr b k + 8

/-- What holds of every state a run reaches. -/
structure State.Inv (s : State) : Prop where
  /-- The memory is in canonical form. -/
  memWf : Memory.wf s.mem = true
  /-- Memory lists bytes of buffer slots only. -/
  memMapped : ∀ c ∈ s.mem, inSlot s.inst c.1
  /-- CTRL's reserved bits read 0 (10_state.md R21). -/
  ctrlReserved : ∀ i, 2 ≤ i → s.regs.ctrl.getLsbD i = false
  /-- STATUS's reserved bits read 0 (10_state.md R22). -/
  statusReserved : ∀ i, 4 ≤ i → s.regs.status.getLsbD i = false
  /-- BUSY is 1 exactly while a command is pending (10_state.md R35). -/
  busyPending : s.regs.busy = s.pending.isSome
  /-- The pending command passed R61's checks of its operand registers. -/
  accepted : ∀ i, s.pending = some i → operandError s i = none
  /-- ERRCODE holds a named code while ERR = 1 (60_exceptions.md R101). -/
  errNamed : s.regs.err = true → ∃ e : Err, s.regs.errcode = e.code
  /-- ERRCODE and ERRADDR hold 0 while ERR = 0 (10_state.md R23, R24). -/
  errClear : s.regs.err = false → s.regs.errcode = 0 ∧ s.regs.erraddr = 0

/-- A safe run: none of its first `k` steps stops with a fault or a refusal. -/
def SafeFor (k : Nat) (s : State) : Prop := ∃ t, Host.Core.run Sys2Proof.core k s = .next t

/-! ## What an access or a command leaves behind -/

/-- STATUS, ERRCODE and ERRADDR of `t` are those of `s` with the error `e` recorded at offset `a`
(60_exceptions.md R105), and DONE is set if `done` says so. -/
structure Recorded (s t : Regs) (e : Err) (a : Word) (done : Bool) : Prop where
  status : ∀ i, t.status.getLsbD i =
    if i = 1 then done || s.done else if i = 2 then true else if i = 3 then s.errOvf || s.err
    else s.status.getLsbD i
  errcode : t.errcode = if s.err then s.errcode else e.code
  erraddr : t.erraddr = if s.err then s.erraddr else a

/-- `t` is `s` after a host access at offset `a` ended in the bus error `e` (20_memory.md R41): the error is
recorded, the data is 0, the response is an error, and nothing else changes. -/
structure BusErrored (s t : State) (e : Err) (a : Word) : Prop where
  recorded : Recorded s.regs t.regs e a false
  frame : t = { s with
    regs := { s.regs with status := t.regs.status, errcode := t.regs.errcode, erraddr := t.regs.erraddr }
    world := { s.world with response := some ⟨0, true⟩ } }

/-- A write of `data` that covers bits 31:0 of CMD, of 4 or 8 bytes at 0x028, issues the word in bits 31:0 of `data` and
is answered without a bus error (20_memory.md R43, 30_encoding.md R61). -/
def WriteIssues (s : State) (data : DWord) : Prop :=
  ∀ bytes, bytes = 4 ∨ bytes = 8 →
    s.hostWrite 0x028#32 bytes data = (s.issue (data.extractLsb' 0 32)).respond 0 false

/-- `t` is `s` after the word `c` was rejected with the error `e` (30_encoding.md R61): CMD holds the word, the error
is recorded at 0x028, DONE is set, and nothing else changes. -/
structure Rejected (s t : State) (c : Word) (e : Err) : Prop where
  recorded : Recorded s.regs t.regs e 0x028#32 true
  frame : t = { s with
    regs := { s.regs with
      cmd := c, status := t.regs.status, errcode := t.regs.errcode, erraddr := t.regs.erraddr } }

/-- `t` is `s` after the word `c` was accepted as the command `i` (30_encoding.md R61): CMD holds the word, the
command is pending, BUSY is set, DONE is cleared, and nothing else changes but the count to its completion. -/
structure Accepted (s t : State) (c : Word) (i : Instr) : Prop where
  status : ∀ j, t.regs.status.getLsbD j =
    if j = 0 then true else if j = 1 then false else s.regs.status.getLsbD j
  frame : t = { s with
    pending := some i
    regs := { s.regs with cmd := c, status := t.regs.status }
    world := { s.world with delay := t.world.delay, latencies := t.world.latencies } }

/-- What the completion of any command leaves: BUSY is 0 and DONE is 1, no command is pending
(60_exceptions.md R108), no error is recorded (30_encoding.md R62), and no register changes but RIDX, RES_RE and
RES_IM. -/
structure Completed (s t : State) : Prop where
  status : ∀ j, t.regs.status.getLsbD j =
    if j = 0 then false else if j = 1 then true else s.regs.status.getLsbD j
  pending : t.pending = none
  regs : t.regs = { s.regs with
    status := t.regs.status, ridx := t.regs.ridx, resRe := t.regs.resRe, resIm := t.regs.resIm }
  epoch : t.epoch = s.epoch
  inst : t.inst = s.inst
  world : t.world = s.world

/-- No byte of the buffers changes. -/
def SameMemory (s t : State) : Prop := t.mem = s.mem ∧ ∀ x, t.byte x = s.byte x

/-- No byte of the buffers changes but those of OUT_RE and OUT_IM slots 0 to n - 1. -/
def OnlyOutBelow (n : Nat) (s t : State) : Prop :=
  ∀ x, (∀ k < n, ∀ b, b = .outRe ∨ b = .outIm → x < slotAddr b k ∨ slotAddr b k + 8 ≤ x) → t.byte x = s.byte x

/-- Bits 63:32 of OUT_RE and OUT_IM slots 0 to n - 1 are 0, as a store with PREC = 0 leaves them (20_memory.md R45,
R47). -/
def OutHighHalvesZero (n : Nat) (t : State) : Prop :=
  ∀ k < n, (t.slot .outRe k).extractLsb' 32 32 = 0#32 ∧ (t.slot .outIm k).extractLsb' 32 32 = 0#32

/-! ## What the transforms compute, index by index -/

/-- A complex value as it is read back from a slot pair (20_memory.md R47). -/
def storedPair (p : Prec) (z : Cplx) : Cplx := ⟨storedValue p z.re, storedValue p z.im⟩

/-- `w_j` of the stage with the given stride (43_butterfly.md R88). -/
def runningTwiddle (stride : Nat) : Nat → Cplx
  | 0 => ⟨fpOne, fpZero⟩
  | j + 1 => cmul (runningTwiddle stride j) (twiddleStep stride)

/-- The value at index `k` after the stage with the given stride, from the values `x` before it: in the block that
holds `k`, p + q in the lower half and p - q in the upper (43_butterfly.md R87). -/
def stageValue (p : Prec) (stride : Nat) (x : Nat → Cplx) (k : Nat) : Cplx :=
  let j := k % stride
  let idx0 := k / (2 * stride) * (2 * stride) + j
  let q := cmul (runningTwiddle stride j) (x (idx0 + stride))
  storedPair p (if k % (2 * stride) < stride then cadd (x idx0) q else csub (x idx0) q)

/-- The value at index `k` after all stages (43_butterfly.md R87). -/
def butterflyValue (p : Prec) (n : Nat) (x : Nat → Cplx) : Nat → Cplx :=
  (strides n).foldl (fun x stride => stageValue p stride x) x

/-- The value at index `k` of Setup's output, from the input values `x` (42_setup.md R82). -/
def setupValue (p : Prec) (n : Nat) (x : Nat → Cplx) (k : Nat) : Cplx :=
  let z := x (bitrev k (log2N n))
  storedPair p ⟨fmul z.re (scaleOf n), fmul z.im (scaleOf n)⟩

/-! ## Correct rounding -/

/-- The real number a finite value is; 0 for the others. -/
noncomputable def fpReal : Fp → ℝ
  | .fin n u => (if n then -1 else 1) * ((u : ℝ) / (oneUnits : ℝ))
  | .inf _ => 0
  | .nan => 0

/-- `m` has at most `prec` significant bits. -/
def fitsIn (prec m : Nat) : Prop := m % 2 ^ dropBits prec m = 0

/-- `m` is `y` rounded to `prec` significant bits: no number of as few bits is nearer, and of two equally near ones
it is the one with an even significand (00_scope.md R9). -/
def IsRounding (prec : Nat) (y : ℝ) (m : Nat) : Prop :=
  fitsIn prec m ∧ ∀ m', fitsIn prec m' →
    |y - m| ≤ |y - m'| ∧ (|y - m| = |y - m'| → m ≠ m' → m / 2 ^ dropBits prec m % 2 = 0)

/-- `r` is the binary64 value that `x` rounds to: its magnitude is rounded to 53 significant bits, not below 2^-1074,
and is an infinity from 2^1024 on; its sign is that of `x` (a zero `x` leaves it open). -/
def RoundsTo (x : ℝ) (r : Fp) : Prop :=
  ∃ (n : Bool) (m : Nat), IsRounding 53 (|x| * oneUnits) m ∧
    r = (if m < overflowUnits64 then .fin n m else .inf n) ∧ (x < 0 → n = true) ∧ (0 < x → n = false)

/-- An enclosure settles the correctly rounded cos (`false`) or sin (`true`) of `units` units: its two ends round
alike at one of the precisions tried (log entry 6). -/
def TrigSettled (sine : Bool) (units : Nat) : Prop :=
  ∃ g ∈ Config.trigGuards,
    roundAt (trigPrecision g units) ((trigEnclose g units).mid sine - (trigEnclose g units).e) =
      roundAt (trigPrecision g units) ((trigEnclose g units).mid sine + (trigEnclose g units).e)

end Sys2Proof.Machine
end

