-- ==== Sys2Proof/Certificates/Slice0/Obligations.lean ====
section
/-! DEFINITION. The statements about the machine, made for the provers. Each docstring names the rules of the spec it
formalises. -/

open Sys2Proof Sys2Proof.Machine

/-! ## Encoding -/

/-- Decoding an encoded command gives it back, and a word that decodes is the encoding of its command: no word has two
meanings and no bit of it is dropped (30_encoding.md R56, R57, R58). -/
def Obligations.CommandsAndWordsCorrespond : Prop :=
  (∀ i : Instr, decode (encode i) = .ok i) ∧ ∀ (c : Word) (i : Instr), decode c = .ok i → encode i = c

/-- R58: a word selects a row of the opcode map when `c & mask == match`. -/
def Obligations.RowsAreSelectedByMaskAndMatch : Prop :=
  ∀ c : Word,
    (decode c = .ok .nop ↔ c &&& 0xFFFFFFFF#32 = 0x00000000#32) ∧
    ((∃ p, decode c = .ok (.fwd p)) ↔ c &&& 0xFFFFFEFF#32 = 0x00000001#32) ∧
    ((∃ p, decode c = .ok (.inv p)) ↔ c &&& 0xFFFFFEFF#32 = 0x00000002#32) ∧
    ((∃ p, decode c = .ok (.setup p)) ↔ c &&& 0xFFFFFEFF#32 = 0x00000003#32) ∧
    ((∃ p r, decode c = .ok (.bfly p r)) ↔ c &&& 0xFFFFFCFF#32 = 0x00000004#32) ∧
    (decode c = .ok .bitrev ↔ c &&& 0xFFFFFFFF#32 = 0x00000005#32) ∧
    (decode c = .ok .cadd ↔ c &&& 0xFFFFFFFF#32 = 0x00000006#32) ∧
    (decode c = .ok .csub ↔ c &&& 0xFFFFFFFF#32 = 0x00000007#32) ∧
    (decode c = .ok .cmul ↔ c &&& 0xFFFFFFFF#32 = 0x00000008#32) ∧
    (decode c = .ok .cmag ↔ c &&& 0xFFFFFFFF#32 = 0x00000009#32) ∧
    (decode c = .ok .uroot ↔ c &&& 0xFFFFFFFF#32 = 0x0000000A#32)

/-- Words written out from R58 and the examples of R63 decode to the commands they stand for. -/
def Obligations.WrittenWordsDecode : Prop :=
  decode 0x00000000#32 = .ok .nop ∧ decode 0x00000101#32 = .ok (.fwd .f64) ∧
    decode 0x00000002#32 = .ok (.inv .f32) ∧ decode 0x00000103#32 = .ok (.setup .f64) ∧
    decode 0x00000304#32 = .ok (.bfly .f64 .swap) ∧ decode 0x00000204#32 = .ok (.bfly .f32 .swap) ∧
    decode 0x00000005#32 = .ok .bitrev ∧ decode 0x00000008#32 = .ok .cmul

/-- R59: with BUSY = 0, a word whose OP is 0xB to 0xF is rejected with ILLEGAL_OP, and one whose OP is 0x0 to 0xA but
has a reserved bit set, or PREC or ROLE where the opcode does not use it, with RSVD_FIELD; a rejected word changes
nothing but CMD, STATUS, ERRCODE and ERRADDR. The word is the low half of what the host writes to CMD (R43, R61). -/
def Obligations.ReservedEncodingsAreRejected : Prop :=
  ∀ (s : State) (data : DWord) (c : Word), s.regs.busy = false → c = data.extractLsb' 0 32 →
    WriteIssues s data ∧
    (0xB ≤ (c.extractLsb' 0 4).toNat → Rejected s (s.issue c) c .illegalOp) ∧
    ((c.extractLsb' 0 4).toNat ≤ 0xA →
      c.extractLsb' 4 4 ≠ 0#4 ∨ c.extractLsb' 10 22 ≠ 0#22 ∨
        (c.getLsbD 8 = true ∧ (c.extractLsb' 0 4).toNat ∉ [1, 2, 3, 4]) ∨
        (c.getLsbD 9 = true ∧ (c.extractLsb' 0 4).toNat ≠ 4) →
      Rejected s (s.issue c) c .rsvdField)

/-! ## Issue and the step -/

/-- When the engine has its turn and a command is pending, a step is that command's meaning (60_exceptions.md R108); the
state `withFetchWord` makes of a word that decodes is one where that is so (the model's choice, log entry 1). -/
def Obligations.StepRunsThePendingCommand : Prop :=
  (∀ (s : State) (i : Instr), s.pending = some i → engineReady s = true → step s = exec i s) ∧
    ∀ (s : State) (nbits w : Nat) (i : Instr), decodeTableWord nbits w = some i →
      step (s.withFetchWord nbits w) = exec i (s.withFetchWord nbits w)

/-- R61, as a whole host write to CMD: while BUSY = 0, a 4-byte or an 8-byte write of a word that decodes to a command
whose operand registers pass its checks makes exactly that command pending; a 4-byte write to the upper half of CMD's
slot issues nothing (20_memory.md R43). -/
def Obligations.CommandWriteMakesTheDecodedCommandPending : Prop :=
  ∀ (s : State) (data : DWord) (i : Instr), s.regs.busy = false →
    decode (data.extractLsb' 0 32) = .ok i →
    (i.usesLen = true → validLen s.inst s.regs.len = true) →
    (i = .bitrev → s.regs.bits.toNat ≤ 24) →
    (∀ bytes, bytes = 4 ∨ bytes = 8 →
      ∃ t, Accepted s t (data.extractLsb' 0 32) i ∧ t.world.delay = s.world.latencies.headD 0 ∧
        t.world.latencies = s.world.latencies.tail ∧ s.hostWrite 0x028#32 bytes data = t.respond 0 false) ∧
    s.hostWrite 0x02C#32 4 data = s.respond 0 false

/-- R60: a length is valid when it is a power of two from 1 to 2^NMAX_LOG2, and log2 of a valid length is the k with
2^k = n. -/
def Obligations.ValidLengthsArePowersOfTwo : Prop :=
  ∀ (p : Params) (n : Word),
    (validLen p n = true ↔ ∃ k, k ≤ (p.nmaxLog2 : Nat) ∧ n.toNat = 2 ^ k) ∧
    (validLen p n = true → 2 ^ log2N n.toNat = n.toNat)

/-- R102: FWD, INV, SETUP and BFLY are rejected with INVALID_LEN when LEN is 0, no power of two, or above
2^NMAX_LOG2. The word is the low half of what the host writes to CMD (R43, R61). -/
def Obligations.InvalidLengthsAreRejected : Prop :=
  ∀ (s : State) (data : DWord) (c : Word) (i : Instr), s.regs.busy = false → c = data.extractLsb' 0 32 →
    decode c = .ok i →
    (∃ p r, i = .fwd p ∨ i = .inv p ∨ i = .setup p ∨ i = .bfly p r) →
    (s.regs.len.toNat = 0 ∨ (∀ k, s.regs.len.toNat ≠ 2 ^ k) ∨ 2 ^ (s.inst.nmaxLog2 : Nat) < s.regs.len.toNat) →
    WriteIssues s data ∧ Rejected s (s.issue c) c .invalidLen

/-- R103: BITREV is rejected with INVALID_BITS when BITS is above 24, and RIDX is unchanged. The word is the low half of
what the host writes to CMD (R43, R61). -/
def Obligations.InvalidBitsAreRejected : Prop :=
  ∀ (s : State) (data : DWord) (c : Word), s.regs.busy = false → c = data.extractLsb' 0 32 →
    decode c = .ok .bitrev → 24 < s.regs.bits.toNat →
    WriteIssues s data ∧ Rejected s (s.issue c) c .invalidBits ∧ (s.issue c).regs.ridx = s.regs.ridx

/-- R62, with the completion of R108: every command whose operand registers pass R61's checks runs to completion and
raises no error: of the registers only RIDX, RES_RE and RES_IM, and in STATUS only BUSY and DONE, change. -/
def Obligations.EveryCommandCompletesWithoutError : Prop :=
  ∀ (i : Instr) (s : State), operandError s i = none → ∃ t, exec i s = .next t ∧ Completed s t

/-! ## The primitives -/

/-- R71: CADD writes the two rounded sums. -/
def Obligations.CaddResult : Prop :=
  ∀ s : State, ∃ t, exec .cadd s = .next t ∧
    fp64 t.regs.resRe = fadd (fp64 s.regs.opaRe) (fp64 s.regs.opbRe) ∧
    fp64 t.regs.resIm = fadd (fp64 s.regs.opaIm) (fp64 s.regs.opbIm)

/-- R72: CSUB writes the two rounded differences. -/
def Obligations.CsubResult : Prop :=
  ∀ s : State, ∃ t, exec .csub s = .next t ∧
    fp64 t.regs.resRe = fsub (fp64 s.regs.opaRe) (fp64 s.regs.opbRe) ∧
    fp64 t.regs.resIm = fsub (fp64 s.regs.opaIm) (fp64 s.regs.opbIm)

/-- R67 and R73: CMUL writes the cross-term product, each product, difference and sum rounded once. -/
def Obligations.CmulResult : Prop :=
  ∀ s : State, ∃ t, exec .cmul s = .next t ∧
    fp64 t.regs.resRe =
      fsub (fmul (fp64 s.regs.opaRe) (fp64 s.regs.opbRe)) (fmul (fp64 s.regs.opaIm) (fp64 s.regs.opbIm)) ∧
    fp64 t.regs.resIm =
      fadd (fmul (fp64 s.regs.opaRe) (fp64 s.regs.opbIm)) (fmul (fp64 s.regs.opaIm) (fp64 s.regs.opbRe))

/-- R68 and R74: CMAG writes the root of the sum of squares, and +0.0; OPB has no influence. -/
def Obligations.CmagResult : Prop :=
  ∀ s : State, ∃ t, exec .cmag s = .next t ∧
    fp64 t.regs.resRe =
      fsqrt (fadd (fmul (fp64 s.regs.opaRe) (fp64 s.regs.opaRe)) (fmul (fp64 s.regs.opaIm) (fp64 s.regs.opaIm))) ∧
    t.regs.resIm = 0x0000000000000000#64

/-- R75: UROOT writes unitRoot of OPA_RE. -/
def Obligations.UrootResult : Prop :=
  ∀ s : State, ∃ t, exec .uroot s = .next t ∧
    fp64 t.regs.resRe = (unitRoot (fp64 s.regs.opaRe)).re ∧ fp64 t.regs.resIm = (unitRoot (fp64 s.regs.opaRe)).im

/-- The frame of CADD, CSUB, CMUL, CMAG, UROOT, BITREV and NOP (40_complex_arith.md section 2, 41_bitrev.md R80,
45_control.md R99): beside completion, a primitive changes RES_RE and RES_IM only, BITREV changes RIDX only, NOP changes
nothing; no byte of memory and no internal register changes. -/
def Obligations.RegisterCommandsFrame : Prop :=
  ∀ (i : Instr) (s t : State), exec i s = .next t →
    (i ∈ [.cadd, .csub, .cmul, .cmag, .uroot] →
      Completed s t ∧ t.regs.ridx = s.regs.ridx ∧ t.hidden = s.hidden ∧ SameMemory s t) ∧
    (i = .bitrev →
      Completed s t ∧ t.regs.resRe = s.regs.resRe ∧ t.regs.resIm = s.regs.resIm ∧ t.hidden = s.hidden ∧
        t.draws = s.draws ∧ SameMemory s t) ∧
    (i = .nop →
      Completed s t ∧ t.regs.ridx = s.regs.ridx ∧ t.regs.resRe = s.regs.resRe ∧ t.regs.resIm = s.regs.resIm ∧
        t.hidden = s.hidden ∧ t.draws = s.draws ∧ SameMemory s t)

/-- R99: NOP does nothing but complete: BUSY goes to 0 and DONE to 1. -/
def Obligations.NopOnlyCompletes : Prop :=
  ∀ s : State, ∃ t, exec .nop s = .next t ∧
    t = { s with pending := none, regs := { s.regs with status := t.regs.status } } ∧
    t.regs.busy = false ∧ t.regs.done = true ∧ t.regs.err = s.regs.err ∧ t.regs.errOvf = s.regs.errOvf

/-! ## Bit reversal -/

/-- R76 and R77: the ROM has 64 entries of 6 bits, bit m of entry k is bit 5-m of k, and the four lookups give the
number below 2^24 whose bit 23-m is bit m of the index: its bits above 23 have no effect. -/
def Obligations.RomReversesSixBits : Prop :=
  rev6Rom.length = 64 ∧ (∀ k, k < 64 → rev6 k < 64 ∧ ∀ m, m < 6 → (rev6 k).testBit m = k.testBit (5 - m)) ∧
    ∀ i, rev24 i < 2 ^ 24 ∧ ∀ m, m < 24 → (rev24 i).testBit (23 - m) = i.testBit m

/-- R78: bit b-1-m of `bitrev(i, b)` is bit m of i for m below b, and the result is below 2^b: bits of i at b and
above have no effect. -/
def Obligations.BitrevReversesTheLowBits : Prop :=
  ∀ i b : Nat, b ≤ 24 →
    bitrev i b < 2 ^ b ∧ ∀ m, m < b → (bitrev i b).testBit (b - 1 - m) = i.testBit m

/-- R79: for every b up to 24, `bitrev(·, b)` is a bijection of [0, 2^b) onto itself and its own inverse. -/
def Obligations.BitrevIsAnInvolutiveBijection : Prop :=
  ∀ b : Nat, b ≤ 24 →
    (∀ i, i < 2 ^ b → bitrev (bitrev i b) b = i) ∧
    Set.BijOn (fun i => bitrev i b) (Set.Iio (2 ^ b)) (Set.Iio (2 ^ b))

/-- R80: BITREV writes the bit-reversed index to RIDX, zero-extended, for every accepted BITS. -/
def Obligations.BitrevResult : Prop :=
  ∀ s : State, s.regs.bits.toNat ≤ 24 → ∃ t, exec .bitrev s = .next t ∧
    t.regs.ridx.toNat = bitrev s.regs.idx.toNat s.regs.bits.toNat ∧
    ∀ m, m < s.regs.bits.toNat →
      t.regs.ridx.getLsbD (s.regs.bits.toNat - 1 - m) = s.regs.idx.getLsbD m

/-! ## Setup, butterfly and transforms -/

/-- R81: the scale is one rounded square root and one rounded reciprocal of N, N being converted exactly; it is 2^-k
for N = 4^k and 0x3FE6A09E667F3BCC scaled by 2^-k for N = 2·4^k. -/
def Obligations.ScaleOfPowersOfTwo : Prop :=
  (∀ n, n ≤ 2 ^ 24 → fpOfNat n = .fin false (n * oneUnits) ∧ scaleOf n = fdiv fpOne (fsqrt (fpOfNat n))) ∧
    (∀ k, k ≤ 12 → bits64 0 (scaleOf (4 ^ k)) = 0x3FF0000000000000#64 - (BitVec.ofNat 64 k <<< 52)) ∧
    ∀ k, k ≤ 11 → bits64 0 (scaleOf (2 * 4 ^ k)) = 0x3FE6A09E667F3BCC#64 - (BitVec.ofNat 64 k <<< 52)

/-- R82: for every valid length SETUP completes with every OUT slot k < N holding, rounded to the storage format, the
IN sample of the bit-reversed index times the scale; with PREC = 0 bits 63:32 of those slots are 0 (R47). -/
def Obligations.SetupPermutesAndScales : Prop :=
  ∀ (p : Prec) (s : State), validLen s.inst s.regs.len = true → ∃ t, exec (.setup p) s = .next t ∧
    (∀ k, k < s.lenN →
      t.ldPair .outRe .outIm k p = setupValue p s.lenN (fun i => s.ldPair .inRe .inIm i p) k) ∧
    (p = .f32 → OutHighHalvesZero s.lenN t)

/-- R84: with N = 1, SETUP writes to OUT[0] the bit pattern of IN[0] for every non-NaN input and a NaN for a NaN input;
with PREC = 0 bits 63:32 of the OUT slot become 0. -/
def Obligations.SetupOfLengthOneIsTheIdentity : Prop :=
  ∀ (s : State), s.regs.len = 1#32 →
    (∃ t, exec (.setup .f64) s = .next t ∧
      ∀ a b, (a, b) = (Buf.inRe, Buf.outRe) ∨ (a, b) = (Buf.inIm, Buf.outIm) →
        (fp64 (s.slot a 0) ≠ .nan → t.slot b 0 = s.slot a 0) ∧
        (fp64 (s.slot a 0) = .nan → fp64 (t.slot b 0) = .nan)) ∧
    ∃ t, exec (.setup .f32) s = .next t ∧
      ∀ a b, (a, b) = (Buf.inRe, Buf.outRe) ∨ (a, b) = (Buf.inIm, Buf.outIm) →
        (t.slot b 0).extractLsb' 32 32 = 0#32 ∧
        (fp32to64 ((s.slot a 0).extractLsb' 0 32) ≠ .nan →
          (t.slot b 0).extractLsb' 0 32 = (s.slot a 0).extractLsb' 0 32) ∧
        (fp32to64 ((s.slot a 0).extractLsb' 0 32) = .nan →
          fp32to64 ((t.slot b 0).extractLsb' 0 32) = .nan)

/-- R86, R87 and R88: for every valid length and both ROLEs BFLY completes with every pair (A[k], B[k]), k < N, holding
the value the stages compute index by index from the values before, the twiddle of index j being the running product
w_j and every stage's results being rounded to the storage format. A and B are OUT_RE and OUT_IM for ROLE = 0, and
OUT_IM and OUT_RE for ROLE = 1. With PREC = 0 and a stage to run, bits 63:32 of those slots are 0 (R47). -/
def Obligations.BflyComputesTheStages : Prop :=
  ∀ (p : Prec) (r : Role) (s : State), validLen s.inst s.regs.len = true → ∃ t, exec (.bfly p r) s = .next t ∧
    (∀ k, k < s.lenN →
      (r = .straight →
        t.ldPair .outRe .outIm k p = butterflyValue p s.lenN (fun i => s.ldPair .outRe .outIm i p) k) ∧
      (r = .swap →
        t.ldPair .outIm .outRe k p = butterflyValue p s.lenN (fun i => s.ldPair .outIm .outRe i p) k)) ∧
    (p = .f32 → 1 < s.lenN → OutHighHalvesZero s.lenN t)

/-- The last clauses of R87: for every stride up to 2^23 the quotient -1/stride and the twiddle's argument, -π64/stride,
are exact. -/
def Obligations.TwiddleArgumentsAreExact : Prop :=
  ∀ k : Nat, k ≤ 23 →
    fpReal (fdiv (fneg fpOne) (fpOfNat (2 ^ k))) = -1 / 2 ^ k ∧
    fpReal (fmul piFp (fdiv (fneg fpOne) (fpOfNat (2 ^ k)))) = -(fpReal piFp) / 2 ^ k

/-- R93 and R94: FWD and INV complete with every OUT slot pair, k < N, holding the butterfly of the permuted and scaled
input, INV with the roles of OUT_RE and OUT_IM exchanged; with PREC = 0 bits 63:32 of those slots are 0 (R47). -/
def Obligations.TransformsComputeButterflyOfSetup : Prop :=
  ∀ (p : Prec) (s : State), validLen s.inst s.regs.len = true →
    (∃ t, exec (.fwd p) s = .next t ∧
      (∀ k, k < s.lenN → t.ldPair .outRe .outIm k p =
        butterflyValue p s.lenN (setupValue p s.lenN (fun i => s.ldPair .inRe .inIm i p)) k) ∧
      (p = .f32 → OutHighHalvesZero s.lenN t)) ∧
    ∃ t, exec (.inv p) s = .next t ∧
      (∀ k, k < s.lenN → t.ldPair .outIm .outRe k p =
        butterflyValue p s.lenN
          (fun i => let z := setupValue p s.lenN (fun i => s.ldPair .inRe .inIm i p) i; ⟨z.im, z.re⟩) k) ∧
      (p = .f32 → OutHighHalvesZero s.lenN t)

/-- FWD is SETUP then BFLY with ROLE = 0, and INV is SETUP then BFLY with ROLE = 1, in every part of the state
(44_transform.md R93, R94; 95_test_vectors.md P6). -/
def Obligations.TransformsAreSetupThenBfly : Prop :=
  ∀ (p : Prec) (s u : State), exec (.setup p) s = .next u →
    exec (.fwd p) s = exec (.bfly p .straight) u ∧ exec (.inv p) s = exec (.bfly p .swap) u

/-- The frame of SETUP, BFLY, FWD and INV (42_setup.md R83, 43_butterfly.md R90, 10_state.md R29, R32, R35): for a
valid length they change, beside completion, OUT slots 0 to N-1 only; every other byte of memory, the IN slots among
them, and RIDX, RES_RE and RES_IM are unchanged; of the internal registers SETUP changes scale only, and BFLY every one
but scale. -/
def Obligations.BufferCommandsFrame : Prop :=
  ∀ (i : Instr) (s t : State), i.usesLen = true → validLen s.inst s.regs.len = true → exec i s = .next t →
    Completed s t ∧ t.regs.ridx = s.regs.ridx ∧ t.regs.resRe = s.regs.resRe ∧ t.regs.resIm = s.regs.resIm ∧
      OnlyOutBelow s.lenN s t ∧
      (∀ k, k < s.inst.slots → t.slot .inRe k = s.slot .inRe k ∧ t.slot .inIm k = s.slot .inIm k) ∧
      (∀ p, i = .setup p → t.hidden = { s.hidden with scale := t.hidden.scale }) ∧
      ∀ p r, i = .bfly p r → t.hidden.scale = s.hidden.scale

/-- R90 and R87: with N = 1 BFLY runs no stage: no byte of memory and no internal register changes but stride, which
is 1. -/
def Obligations.BflyOfLengthOneTouchesNothing : Prop :=
  ∀ (p : Prec) (r : Role) (s : State), s.regs.len = 1#32 → ∃ t, exec (.bfly p r) s = .next t ∧
    SameMemory s t ∧ t.hidden = { s.hidden with stride := 1 } ∧ t.draws = s.draws

/-- R98: FWD and INV give the same OUT values from the same IN values, LEN and PREC, whatever else the two states
hold: no state carried between commands enters the computation. -/
def Obligations.TransformsDependOnTheInputOnly : Prop :=
  ∀ (i : Instr) (p : Prec) (s s' t t' : State), i = .fwd p ∨ i = .inv p →
    validLen s.inst s.regs.len = true → validLen s'.inst s'.regs.len = true → s.regs.len = s'.regs.len →
    (∀ k, k < s.lenN → s.ld .inRe k p = s'.ld .inRe k p ∧ s.ld .inIm k p = s'.ld .inIm k p) →
    exec i s = .next t → exec i s' = .next t' →
    ∀ k, k < s.lenN → t.ld .outRe k p = t'.ld .outRe k p ∧ t.ld .outIm k p = t'.ld .outIm k p

/-! ## Arithmetic -/

/-- R9 and R11: on finite operands each operation is the exact result rounded once, to nearest, ties to even; a square
root is of a nonnegative operand. That the operations are IEEE 754's is general knowledge (log entry 13). -/
def Obligations.ArithmeticRoundsTheExactResultOnce : Prop :=
  ∀ (n m : Bool) (u v : Nat),
    RoundsTo (fpReal (.fin n u) + fpReal (.fin m v)) (fadd (.fin n u) (.fin m v)) ∧
    RoundsTo (fpReal (.fin n u) - fpReal (.fin m v)) (fsub (.fin n u) (.fin m v)) ∧
    RoundsTo (fpReal (.fin n u) * fpReal (.fin m v)) (fmul (.fin n u) (.fin m v)) ∧
    (v ≠ 0 → RoundsTo (fpReal (.fin n u) / fpReal (.fin m v)) (fdiv (.fin n u) (.fin m v))) ∧
    (n = false ∨ u = 0 → RoundsTo (Real.sqrt (fpReal (.fin n u))) (fsqrt (.fin n u)))

/-- R11 and R47: a store with PREC = 0 rounds the value once to binary32, to the nearest, ties to even, with an infinity
from 2^128 on, keeps infinities and NaNs, and leaves bits 63:32 of the slot 0; a store with PREC = 1 leaves the binary64
pattern; no other byte changes. The bits of a NaN are drawn (the model's choice, log entry 5). -/
def Obligations.StoringRoundsToBinary32Once : Prop :=
  ∀ (s : State) (b : Buf) (k : Nat) (n : Bool) (u : Nat),
    (∃ m, IsRounding 24 ((u : ℝ) / unitsPer32) m ∧
      (s.st b k .f32 (.fin n u)).ld b k .f32 = if m < overflowUnits32 then .fin n (m * unitsPer32) else .inf n) ∧
    (s.st b k .f32 (.inf n)).ld b k .f32 = .inf n ∧ (s.st b k .f32 .nan).ld b k .f32 = .nan ∧
    (∀ x, ((s.st b k .f32 x).slot b k).extractLsb' 32 32 = 0#32 ∧ (s.st b k .f64 x).slot b k = bits64 s.draws x) ∧
    ∀ p x y, y < slotAddr b k ∨ slotAddr b k + 8 ≤ y → (s.st b k p x).byte y = s.byte y

/-- R11 and R70: the results of the operations on zeros, infinities and NaNs. The spec names IEEE 754's special-value
rules and states some of them in R70 to R74; the others are general knowledge (93_implementation_defined.md G2, log
entry 13). -/
def Obligations.SpecialValuesFollowIeee754 : Prop :=
  ∀ (n m : Bool) (u : Nat) (a : Fp),
    (fadd (.inf n) (.inf m) = (if n = m then .inf n else .nan) ∧
      fadd (.inf n) (.fin m u) = .inf n ∧ fadd (.fin m u) (.inf n) = .inf n ∧
      fadd (.fin n u) (.fin (!n) u) = .fin false 0 ∧ fadd (.fin n 0) (.fin n 0) = .fin n 0 ∧
      fadd .nan a = .nan ∧ fadd a .nan = .nan) ∧
    (fsub (.inf n) (.inf m) = (if n = m then .nan else .inf n) ∧
      fsub (.inf n) (.fin m u) = .inf n ∧ fsub (.fin m u) (.inf n) = .inf (!n) ∧
      fsub (.fin n u) (.fin n u) = .fin false 0 ∧ fsub (.fin n 0) (.fin (!n) 0) = .fin n 0 ∧
      fsub .nan a = .nan ∧ fsub a .nan = .nan) ∧
    (fmul (.inf n) (.inf m) = .inf (n ^^ m) ∧
      (u ≠ 0 → fmul (.inf n) (.fin m u) = .inf (n ^^ m) ∧ fmul (.fin n u) (.inf m) = .inf (n ^^ m)) ∧
      fmul (.inf n) (.fin m 0) = .nan ∧ fmul (.fin n 0) (.inf m) = .nan ∧
      fmul (.fin n 0) (.fin m u) = .fin (n ^^ m) 0 ∧ fmul (.fin n u) (.fin m 0) = .fin (n ^^ m) 0 ∧
      fmul .nan a = .nan ∧ fmul a .nan = .nan) ∧
    (fdiv (.inf n) (.inf m) = .nan ∧ fdiv (.fin n 0) (.fin m 0) = .nan ∧
      fdiv (.inf n) (.fin m u) = .inf (n ^^ m) ∧ fdiv (.fin n u) (.inf m) = .fin (n ^^ m) 0 ∧
      (u ≠ 0 → fdiv (.fin n u) (.fin m 0) = .inf (n ^^ m) ∧ fdiv (.fin n 0) (.fin m u) = .fin (n ^^ m) 0) ∧
      fdiv .nan a = .nan ∧ fdiv a .nan = .nan) ∧
    fsqrt (.inf false) = .inf false ∧ fsqrt (.inf true) = .nan ∧ fsqrt (.fin n 0) = .fin n 0 ∧
      (u ≠ 0 → fsqrt (.fin true u) = .nan) ∧ fsqrt .nan = .nan

/-- R67: cmul is four rounded products, one rounded difference and one rounded sum, and it is commutative on every
non-NaN result. That it is so on NaN results too is the model's choice: a NaN is one value, and the bits a store draws
for it are no part of it (log entry 5). -/
def Obligations.CmulIsTheCommutativeCrossTermProduct : Prop :=
  ∀ a b : Cplx,
    cmul a b =
      ⟨fsub (fmul a.re b.re) (fmul a.im b.im), fadd (fmul a.re b.im) (fmul a.im b.re)⟩ ∧ cmul a b = cmul b a

/-- R8 and R11: the storage formats hold their values exactly. A binary64 pattern that is no NaN is the pattern of its
value; a binary32 pattern that is no NaN, widened, rounds back to itself; a NaN's pattern, whichever is drawn, is read
as a NaN and is a quiet one: the highest bit of its fraction is 1 (93_implementation_defined.md U4; that this bit is the
quiet bit is IEEE 754's, log entry 13). -/
def Obligations.StorageFormatsRoundTrip : Prop :=
  (∀ (d : Nat) (b : DWord), fp64 b ≠ .nan → bits64 d (fp64 b) = b) ∧
    (∀ (d : Nat) (b : Word), fp32to64 b ≠ .nan → bits32 d (rn32 (fp32to64 b)) = b) ∧
    ∀ d : Nat, fp64 (bits64 d .nan) = .nan ∧ (bits64 d .nan).getLsbD 51 = true ∧
      fp32to64 (bits32 d .nan) = .nan ∧ (bits32 d .nan).getLsbD 22 = true

/-- R69: unitRoot gives (1.0, t) for a zero product t, two NaNs for an infinite or NaN one, and otherwise cos and sin
of the exact value of t, correctly rounded wherever an enclosure settles them (log entry 6: the model's own way to
reach the default TRIG). -/
def Obligations.UnitRootIsCorrectlyRounded : Prop :=
  ∀ x : Fp,
    ((fmul piFp x = .nan ∨ ∃ n, fmul piFp x = .inf n) → unitRoot x = ⟨.nan, .nan⟩) ∧
    (∀ n, fmul piFp x = .fin n 0 → unitRoot x = ⟨fpOne, .fin n 0⟩) ∧
    ∀ n u, fmul piFp x = .fin n u → u ≠ 0 →
      (TrigSettled false u → RoundsTo (Real.cos (fpReal (.fin n u))) (unitRoot x).re) ∧
      (TrigSettled true u → RoundsTo (Real.sin (fpReal (.fin n u))) (unitRoot x).im)

/-! ## Host accesses -/

/-- R106, with R39, R40, R41, R42 and R122: an access of another width than 4 or 8 bytes ends in BAD_WIDTH, else a
misaligned one in MISALIGNED, else one outside the registers and the populated slots in UNMAPPED, else one the busy
lockout refuses in BUSY_ACCESS; each records the error with the access's offset, returns 0, and changes nothing else.
That the lockout takes in 4-byte writes to the upper half of a locked register's slot is read from R122 and R43 by
inference (log entry 9). -/
def Obligations.BusErrorsInPriorityOrder : Prop :=
  ∀ (s t : State) (off : Word) (bytes : Nat) (write : Bool) (data : DWord),
    t = (if write then s.hostWrite off bytes data else s.hostRead off bytes) →
    (bytes ≠ 4 ∧ bytes ≠ 8 → BusErrored s t .badWidth off) ∧
    (bytes = 4 ∨ bytes = 8 →
      (off.toNat % bytes ≠ 0 → BusErrored s t .misaligned off) ∧
      (off.toNat % bytes = 0 →
        (0x80 ≤ off.toNat → ¬ inSlot s.inst off.toNat → BusErrored s t .unmapped off) ∧
        (s.regs.busy = true →
          (inSlot s.inst off.toNat → BusErrored s t .busyAccess off) ∧
          (write = true → off.toNat / 8 ∈ [5, 6, 7, 8, 10, 11, 12, 13] → BusErrored s t .busyAccess off))))

/-- R122 and R21: whether a command is running or not, reads of every register, writes to CTRL and STATUS and writes
to read-only registers are answered without an error; of CTRL only bits 1:0 are written. -/
def Obligations.RegistersStayReachableWhileBusy : Prop :=
  ∀ (s : State) (r : Reg) (bytes : Nat) (data : DWord), bytes = 4 ∨ bytes = 8 →
    (∃ d, s.hostRead (BitVec.ofNat 32 r.offset) bytes = s.respond d false) ∧
    (r ∈ [.id, .errcode, .erraddr, .ridx, .resRe, .resIm] →
      s.hostWrite (BitVec.ofNat 32 r.offset) bytes data = s.respond 0 false) ∧
    (r = .ctrl → s.hostWrite (BitVec.ofNat 32 r.offset) bytes data =
      State.respond { s with regs := { s.regs with ctrl := data.extractLsb' 0 32 &&& 3#32 } } 0 false) ∧
    (r = .status → ∃ st ec ea, s.hostWrite (BitVec.ofNat 32 r.offset) bytes data =
      State.respond { s with regs := { s.regs with status := st, errcode := ec, erraddr := ea } } 0 false)

/-- R16 and R53: between a command's issue and its completion no host access changes a buffer, an operand or result
register, CMD, the pending command or the engine's internal registers. -/
def Obligations.HostCannotReachARunningCommand : Prop :=
  ∀ (s t : State) (off : Word) (bytes : Nat) (data : DWord), s.regs.busy = true →
    t = s.hostRead off bytes ∨ t = s.hostWrite off bytes data →
    t = { s with
      regs := { s.regs with
        ctrl := t.regs.ctrl, status := t.regs.status, errcode := t.regs.errcode, erraddr := t.regs.erraddr }
      world := { s.world with response := t.world.response } } ∧ t.regs.busy = true ∧ SameMemory s t

/-- R48: a read that gets no bus error changes nothing, so that the same read again returns the same data. -/
def Obligations.ReadsHaveNoSideEffect : Prop :=
  ∀ (s : State) (off : Word) (bytes : Nat) (d : DWord),
    (s.hostRead off bytes).world.response = some ⟨d, false⟩ →
    s.hostRead off bytes = s.respond d false ∧
      ((s.hostRead off bytes).hostRead off bytes).world.response = some ⟨d, false⟩

/-- R44: with BUSY = 0 the host's access to slot k of a buffer reads and replaces the slot, or its half, and changes no
other byte and no register. -/
def Obligations.BufferAccesses : Prop :=
  ∀ (s : State) (b : Buf) (k : Nat) (data : DWord), s.regs.busy = false → k < s.inst.slots →
    let off : Word := BitVec.ofNat 32 (slotAddr b k)
    let hi : Word := BitVec.ofNat 32 (slotAddr b k + 4)
    s.hostRead off 8 = s.respond (s.slot b k) false ∧
    s.hostRead off 4 = s.respond (((s.slot b k).extractLsb' 0 32).setWidth 64) false ∧
    s.hostRead hi 4 = s.respond (((s.slot b k).extractLsb' 32 32).setWidth 64) false ∧
    (s.hostWrite off 8 data).slot b k = data ∧
    (s.hostWrite off 4 data).slot b k = (s.slot b k).extractLsb' 32 32 ++ data.extractLsb' 0 32 ∧
    (s.hostWrite hi 4 data).slot b k = data.extractLsb' 0 32 ++ (s.slot b k).extractLsb' 0 32 ∧
    ∀ t, t = s.hostWrite off 8 data ∨ t = s.hostWrite off 4 data ∨ t = s.hostWrite hi 4 data →
      t = { s with mem := t.mem, world := { s.world with response := some ⟨0, false⟩ } } ∧
        ∀ x, x < slotAddr b k ∨ slotAddr b k + 8 ≤ x → t.byte x = s.byte x

/-- R43: with BUSY = 0 a write of 8 bytes, or of 4 bytes at the register's offset, replaces LEN, IDX or BITS and one of
4 bytes above it is ignored; an operand register is replaced whole or by halves; a read-only register ignores every
write and no error is recorded; no other register and no byte of memory changes. -/
def Obligations.RegisterWrites : Prop :=
  ∀ (s : State) (data : DWord), s.regs.busy = false →
    (∀ bytes, bytes = 4 ∨ bytes = 8 →
      s.hostWrite 0x030#32 bytes data =
        State.respond { s with regs := { s.regs with len := data.extractLsb' 0 32 } } 0 false ∧
      s.hostWrite 0x038#32 bytes data =
        State.respond { s with regs := { s.regs with idx := data.extractLsb' 0 32 } } 0 false ∧
      s.hostWrite 0x040#32 bytes data =
        State.respond { s with regs := { s.regs with bits := data.extractLsb' 0 32 } } 0 false) ∧
    (∀ r : Reg, r ∈ [.ctrl, .status, .cmd, .len, .idx, .bits] →
      s.hostWrite (BitVec.ofNat 32 (r.offset + 4)) 4 data = s.respond 0 false) ∧
    (∀ r : Reg, r ∈ [.opaRe, .opaIm, .opbRe, .opbIm] →
      (s.hostWrite (BitVec.ofNat 32 r.offset) 8 data).regs.read r = data ∧
      (s.hostWrite (BitVec.ofNat 32 r.offset) 4 data).regs.read r =
        (s.regs.read r).extractLsb' 32 32 ++ data.extractLsb' 0 32 ∧
      (s.hostWrite (BitVec.ofNat 32 (r.offset + 4)) 4 data).regs.read r =
        data.extractLsb' 0 32 ++ (s.regs.read r).extractLsb' 0 32 ∧
      ∀ (off bytes : Nat) (q : Reg), (off, bytes) ∈ [(r.offset, 8), (r.offset, 4), (r.offset + 4, 4)] → q ≠ r →
        (s.hostWrite (BitVec.ofNat 32 off) bytes data).regs.read q = s.regs.read q ∧
        (s.hostWrite (BitVec.ofNat 32 off) bytes data).mem = s.mem) ∧
    ∀ r : Reg, r ∈ [.id, .errcode, .erraddr, .ridx, .resRe, .resIm] →
      s.hostWrite (BitVec.ofNat 32 r.offset) 8 data = s.respond 0 false ∧
      s.hostWrite (BitVec.ofNat 32 r.offset) 4 data = s.respond 0 false ∧
      s.hostWrite (BitVec.ofNat 32 (r.offset + 4)) 4 data = s.respond 0 false

/-- R43, R19 and R20: an 8-byte read of a register returns it, zero-extended; a 4-byte read returns its lower half, one
above it its upper half, which is 0 for a 32-bit register; ID reads 0x46465401. The last clause names every register's
offset and what is read there. -/
def Obligations.RegisterReads : Prop :=
  ∀ s : State,
    (∀ r : Reg,
      s.hostRead (BitVec.ofNat 32 r.offset) 8 = s.respond (s.regs.read r) false ∧
      s.hostRead (BitVec.ofNat 32 r.offset) 4 = s.respond (((s.regs.read r).extractLsb' 0 32).setWidth 64) false ∧
      s.hostRead (BitVec.ofNat 32 (r.offset + 4)) 4 =
        s.respond (((s.regs.read r).extractLsb' 32 32).setWidth 64) false ∧
      (r ∈ [.id, .ctrl, .status, .errcode, .erraddr, .cmd, .len, .idx, .bits, .ridx] →
        (s.regs.read r).extractLsb' 32 32 = 0#32)) ∧
    [Reg.id, .ctrl, .status, .errcode, .erraddr, .cmd, .len, .idx, .bits, .ridx, .opaRe, .opaIm, .opbRe, .opbIm,
        .resRe, .resIm].map (fun r => (r.offset, s.regs.read r)) =
      [(0x000, 0x0000000046465401#64), (0x008, s.regs.ctrl.setWidth 64), (0x010, s.regs.status.setWidth 64),
        (0x018, s.regs.errcode.setWidth 64), (0x020, s.regs.erraddr.setWidth 64), (0x028, s.regs.cmd.setWidth 64),
        (0x030, s.regs.len.setWidth 64), (0x038, s.regs.idx.setWidth 64), (0x040, s.regs.bits.setWidth 64),
        (0x048, s.regs.ridx.setWidth 64), (0x050, s.regs.opaRe), (0x058, s.regs.opaIm), (0x060, s.regs.opbRe),
        (0x068, s.regs.opbIm), (0x070, s.regs.resRe), (0x078, s.regs.resIm)]

/-- R38: byte j of a slot lies at the slot's offset plus j, the lowest byte lowest. -/
def Obligations.SlotsAreLittleEndian : Prop :=
  ∀ (s : State) (b : Buf) (k j : Nat), j < 8 → s.byte (slotAddr b k + j) = (s.slot b k).extractLsb' (8 * j) 8

/-- R105: the first error since ERR was cleared is kept with its offset, a later one sets ERR_OVF; recording changes
nothing else. -/
def Obligations.ErrorRecordsKeepTheFirst : Prop :=
  ∀ (s : State) (e : Err) (a : Word),
    Recorded s.regs (s.recordError e a).regs e a false ∧
    s.recordError e a = { s with
      regs := { s.regs with
        status := (s.recordError e a).regs.status
        errcode := (s.recordError e a).regs.errcode
        erraddr := (s.recordError e a).regs.erraddr } }

/-- R22: a host write to STATUS clears exactly the bits DONE, ERR and ERR_OVF written as 1, BUSY never, and with ERR
also ERRCODE and ERRADDR. -/
def Obligations.StatusWritesClearWhereOne : Prop :=
  ∀ (s : State) (bytes : Nat) (data : DWord), bytes = 4 ∨ bytes = 8 →
    ∃ st ec ea,
      s.hostWrite 0x010#32 bytes data =
        State.respond { s with regs := { s.regs with status := st, errcode := ec, erraddr := ea } } 0 false ∧
      (∀ i, st.getLsbD i = (s.regs.status.getLsbD i && !(data.getLsbD i && decide (i = 1 ∨ i = 2 ∨ i = 3)))) ∧
      ec = (if data.getLsbD 2 then 0 else s.regs.errcode) ∧ ea = (if data.getLsbD 2 then 0 else s.regs.erraddr)

/-- R109: the interrupt line follows DONE and ERR through their enables; both sources drive the one line. A step clears
ERR only by a host write of 1 to STATUS bit 2 or by the assertion of reset (R119), and DONE only by a host write of 1 to
STATUS bit 1, by that assertion, or by the acceptance of a command (10_state.md R22, 30_encoding.md R61; R109 leaves the
acceptance out: log entry 15). -/
def Obligations.InterruptFollowsDoneAndErr : Prop :=
  (∀ s : State, s.irq = true ↔
    (s.regs.ctrl.getLsbD 0 = true ∧ s.regs.status.getLsbD 1 = true) ∨
      (s.regs.ctrl.getLsbD 1 = true ∧ s.regs.status.getLsbD 2 = true)) ∧
  ∀ s t : State, step s = .next t →
    (s.regs.err = true → t.regs.err = false →
      s.world.inputs.head? = some (.reset true) ∨ ∃ addr bytes data,
        s.world.inputs.head? = some (.write addr bytes data) ∧ s.inst.localOffset addr = some 0x010#32 ∧
          data.getLsbD 2 = true) ∧
    (s.regs.done = true → t.regs.done = false →
      s.world.inputs.head? = some (.reset true) ∨ ∃ addr bytes data,
        s.world.inputs.head? = some (.write addr bytes data) ∧
          (s.inst.localOffset addr = some 0x010#32 ∧ data.getLsbD 1 = true ∨
            s.inst.localOffset addr = some 0x028#32 ∧ s.regs.busy = false ∧ t.regs.busy = true))

/-- R111: while ERR = 1 commands are accepted and executed as before: which words and operands are accepted does not
depend on ERR, ERR_OVF, ERRCODE, ERRADDR or DONE. -/
def Obligations.ErrorsDoNotBlockCommands : Prop :=
  ∀ (s : State) (c : Word) (i : Instr) (st ec ea : Word), Accepted s (s.issue c) c i →
    Accepted { s with regs := { s.regs with status := st, errcode := ec, erraddr := ea } }
      (State.issue { s with regs := { s.regs with status := st, errcode := ec, erraddr := ea } } c) c i

/-! ## Reset -/

/-- R119: the state right after reset. -/
def Obligations.ResetState : Prop :=
  State.reset.regs.ctrl = 0 ∧ State.reset.regs.status = 0 ∧ State.reset.regs.errcode = 0 ∧
    State.reset.regs.erraddr = 0 ∧ State.reset.regs.cmd = 0 ∧ State.reset.regs.len = 0 ∧
    State.reset.regs.idx = 0 ∧ State.reset.regs.bits = 0 ∧ State.reset.regs.ridx = 0 ∧
    State.reset.regs.opaRe = 0 ∧ State.reset.regs.opaIm = 0 ∧ State.reset.regs.opbRe = 0 ∧
    State.reset.regs.opbIm = 0 ∧ State.reset.regs.resRe = 0 ∧ State.reset.regs.resIm = 0 ∧
    State.reset.regs.read .id = 0x46465401 ∧ State.reset.pending = none ∧ State.reset.irq = false ∧
    validLen State.reset.inst State.reset.regs.len = false

/-- R119: asserting reset gives every register its reset value and abandons the pending command, whatever was running;
no byte written before is left, every buffer byte being the one drawn at this reset; reset then is asserted, and while it
is no host access is answered and the engine does not step; releasing it changes nothing else. The assertion and the
release as two inputs, and the count of resets that draws the buffers anew, are the model's choice (log entries 4
and 8). -/
def Obligations.ResetInput : Prop :=
  ∀ s : State,
    ((s.input (.reset true)).regs = State.reset.regs ∧ (s.input (.reset true)).pending = none ∧
      (s.input (.reset true)).irq = false ∧ (s.input (.reset true)).epoch ≠ s.epoch ∧
      (s.input (.reset true)).mem = [] ∧
      (∀ x, (s.input (.reset true)).byte x = Config.resetByte (s.input (.reset true)).epoch x) ∧
      (s.input (.reset true)).world.inReset = true ∧
      (s.input (.reset true)).world.inputs = s.world.inputs ∧ (s.input (.reset true)).inst = s.inst) ∧
    (s.world.inReset = true →
      engineReady s = false ∧
      (∀ addr bytes data, s.input (.read addr bytes) = s.unanswered ∧ s.input (.write addr bytes data) = s.unanswered) ∧
      s.input (.reset false) = { s with world := { s.world with inReset := false } })

/-! ## The whole machine -/

/-- The reset state meets the invariant. -/
def Obligations.ResetMeetsTheInvariant : Prop := State.Inv State.reset

/-- Every step keeps the invariant: canonical memory that lists populated slots only, reserved bits 0, BUSY exactly
while an accepted command with valid operands is pending, ERRCODE and ERRADDR in step with ERR. -/
def Obligations.StepKeepsTheInvariant : Prop :=
  ∀ s t : State, State.Inv s → step s = .next t → State.Inv t

/-- From a state that meets the invariant no run stops, however long: R62 and R107, no error of FFTU is more than a
record. -/
def Obligations.RunsAreSafe : Prop := ∀ (s : State) (k : Nat), State.Inv s → SafeFor k s

/-- R108 and R126: an accepted command completes. Where no reset is asserted among the inputs that come before it,
after at most as many steps as its latency, and one, BUSY is 0, DONE is 1 and no command is pending. How the latency
stands in the state is the model's choice (log entry 3). -/
def Obligations.AcceptedCommandsComplete : Prop :=
  ∀ s : State, State.Inv s → s.regs.busy = true → s.world.inReset = false →
    (∀ x ∈ s.world.inputs.take s.world.delay, x ≠ .reset true) →
    ∃ k t, k ≤ s.world.delay + 1 ∧ Host.Core.run Sys2Proof.core k s = .next t ∧
      t.regs.busy = false ∧ t.regs.done = true ∧ t.pending = none

/-- R120: a pending command is neither aborted nor replaced: a step leaves it pending, or performs and completes it, or
is the assertion of reset. -/
def Obligations.PendingCommandsRunToCompletion : Prop :=
  ∀ (s t : State) (i : Instr), State.Inv s → s.pending = some i → step s = .next t →
    t.pending = some i ∨ exec i s = .next t ∨ s.world.inputs.head? = some (.reset true)

/-- 10_state.md R29 and R27: only CADD, CSUB, CMUL, CMAG and UROOT change RES_RE and RES_IM, only BITREV changes RIDX,
and only FWD, INV, SETUP and BFLY change OUT without a host write; beside them only reset does. -/
def Obligations.OnlyTheirCommandsWriteResults : Prop :=
  ∀ s t : State, step s = .next t → engineReady s = true ∨ s.world.inputs.head? ≠ some (.reset true) →
    (t.regs.resRe ≠ s.regs.resRe ∨ t.regs.resIm ≠ s.regs.resIm →
      s.regs.busy = true ∧ ∃ i ∈ [Instr.cadd, .csub, .cmul, .cmag, .uroot], s.pending = some i) ∧
    (t.regs.ridx ≠ s.regs.ridx → s.regs.busy = true ∧ s.pending = some .bitrev) ∧
    (t.mem ≠ s.mem →
      (s.regs.busy = true ∧ ∃ i, i.usesLen = true ∧ s.pending = some i) ∨
        (s.regs.busy = false ∧ ∃ addr bytes data, s.world.inputs.head? = some (.write addr bytes data)))

/-- 00_scope.md R6: the parameters of an FFTU are fixed: no step changes NMAX_LOG2 or BASE. That they stand in the state
is the model's choice (log entry 2). -/
def Obligations.ParametersAreFixed : Prop := ∀ s t : State, step s = .next t → t.inst = s.inst

/-- 20_memory.md R50 and 60_exceptions.md R118: a step that is not the engine's takes exactly the host's next access, in
the order the host makes them, and without one the machine stays as it is. The list of inputs in the state is the
model's choice (log entry 1). -/
def Obligations.HostAccessesAreTakenInOrder : Prop :=
  ∀ s : State, engineReady s = false →
    (s.world.inputs = [] → step s = .next s) ∧
    ∀ x xs, s.world.inputs = x :: xs → ∃ t, step s = .next t ∧ t.world.inputs = xs ∧
      t = State.input { s with world := { s.world with inputs := xs, delay := s.world.delay - 1 } } x

/-- 20_memory.md R36 and 70_reset_and_hazards.md R119: a host address reaches local offset `a` exactly when it is BASE + a,
and there, while reset is released, the host's read or write is the access at that offset. That an access to another
address does nothing is the model's choice (log entry 12). -/
def Obligations.HostAddressesReachLocalOffsets : Prop :=
  ∀ (s : State) (addr : Nat) (off : Word),
    (s.inst.localOffset addr = some off ↔ addr = s.inst.base + off.toNat) ∧
    (addr = s.inst.base + off.toNat → s.world.inReset = false → ∀ bytes data,
      s.input (.read addr bytes) = s.hostRead off bytes ∧
        s.input (.write addr bytes data) = s.hostWrite off bytes data) ∧
    (s.inst.localOffset addr = none → ∀ bytes data,
      s.input (.read addr bytes) = s.unanswered ∧ s.input (.write addr bytes data) = s.unanswered)
end

