-- ==== Sys2Proof/Laws/Memory.lean ====
section
/-! SUPPORT. The laws of the buffer memory: what is read after a write, what a write leaves alone, and that every
memory operation keeps the canonical form. -/

namespace Sys2Proof.Machine

/-! ## The cells of a run of bytes -/

theorem Memory.mem_cells {a : Nat} {vs : List Byte} {c : Host.Cell} (h : c ∈ Memory.cells a vs) :
    a ≤ c.1 ∧ c.1 < a + vs.length := by
  induction vs generalizing a with
  | nil => simp [cells] at h
  | cons v vs ih =>
    simp only [cells, List.mem_cons, List.length_cons] at h ⊢
    rcases h with rfl | h
    · simp
    · have := ih h; omega

/-- The lookup stops before the first cell above the address. -/
theorem Memory.get?_none_of_lt (m : List Host.Cell) (x : Nat) (h : ∀ c ∈ m.head?, x < c.1) :
    Memory.get? m x = none := by
  cases m with
  | nil => rfl
  | cons c m => simp [get?, h c (by simp)]

theorem Memory.get?_append_of_lt (m m' : List Host.Cell) (x : Nat) (h : ∀ c ∈ m, c.1 < x) :
    Memory.get? (m ++ m') x = Memory.get? m' x := by
  induction m with
  | nil => rfl
  | cons c m ih =>
    have hc := h c (by simp)
    rw [List.cons_append, get?, if_neg (by omega), if_neg (by omega)]
    exact ih fun d hd => h d (by simp [hd])

theorem Memory.get?_cells_append (a : Nat) (vs : List Byte) (m' : List Host.Cell) (j : Nat) (hj : j < vs.length) :
    Memory.get? (Memory.cells a vs ++ m') (a + j) = some vs[j] := by
  induction vs generalizing a j with
  | nil => simp at hj
  | cons v vs ih =>
    rw [cells, List.cons_append, get?, if_neg (by simp)]
    cases j with
    | zero => simp
    | succ j =>
      rw [if_neg (by simp), show a + (j + 1) = a + 1 + j by omega, ih _ _ (by simpa using hj)]
      rfl

theorem Memory.mem_takeWhile_lt {m : List Host.Cell} {a : Nat} {c : Host.Cell}
    (h : c ∈ m.takeWhile (fun c => decide (c.1 < a))) : c.1 < a := by
  simpa using List.mem_takeWhile_imp h

/-- The listed bytes below `a` can be passed over in a lookup at `a` or above. -/
theorem Memory.get?_dropWhile (m : List Host.Cell) (a x : Nat) (h : a ≤ x) :
    Memory.get? (m.dropWhile (fun c => decide (c.1 < a))) x = Memory.get? m x := by
  conv_rhs => rw [← List.takeWhile_append_dropWhile (p := fun c : Host.Cell => decide (c.1 < a)) (l := m)]
  exact (get?_append_of_lt _ _ _ fun c hc => by have := mem_takeWhile_lt hc; omega).symm

theorem Memory.get?_takeWhile_append (m m' : List Host.Cell) (a x : Nat) (h : x < a)
    (h' : ∀ c ∈ m'.head?, a ≤ c.1) :
    Memory.get? (m.takeWhile (fun c => decide (c.1 < a)) ++ m') x = Memory.get? m x := by
  induction m with
  | nil => exact get?_none_of_lt _ _ fun c hc => by have := h' c hc; omega
  | cons c m ih =>
    by_cases hc : c.1 < a
    · simp only [List.takeWhile_cons, hc, decide_true, if_true, List.cons_append, get?, ih]
    · simp only [List.takeWhile_cons, hc, decide_false, Bool.false_eq_true, if_false, List.nil_append]
      rw [get?_none_of_lt _ _ fun c hc => by have := h' c hc; omega, get?, if_pos (by omega)]

/-- Reading the bytes a write listed. -/
theorem Memory.get?_splice_inside (m : List Host.Cell) (a : Nat) (vs : List Byte) (j : Nat) (hj : j < vs.length) :
    Memory.get? (Memory.splice m a vs) (a + j) = some vs[j] := by
  rw [splice, List.append_assoc, get?_append_of_lt _ _ _ fun c hc => by have := mem_takeWhile_lt hc; omega]
  exact get?_cells_append ..

theorem Memory.head_dropWhile_le (m : List Host.Cell) (b : Nat) :
    ∀ c ∈ (m.dropWhile (fun c => decide (c.1 < b))).head?, b ≤ c.1 := by
  induction m with
  | nil => simp
  | cons d m ih =>
    by_cases hd : d.1 < b
    · simpa [List.dropWhile_cons, hd] using ih
    · simp [hd]; omega

/-- A write leaves every byte outside its own alone. -/
theorem Memory.get?_splice_outside (m : List Host.Cell) (a : Nat) (vs : List Byte) (x : Nat)
    (hx : x < a ∨ a + vs.length ≤ x) : Memory.get? (Memory.splice m a vs) x = Memory.get? m x := by
  rcases hx with hx | hx
  · rw [splice, List.append_assoc]
    refine get?_takeWhile_append _ _ _ _ hx fun c hc => ?_
    cases vs with
    | nil => simpa [cells] using head_dropWhile_le m a c (by simpa [cells] using hc)
    | cons v vs =>
      simp only [cells, List.cons_append, List.head?_cons, Option.mem_def, Option.some.injEq] at hc
      simp [← hc]
  · rw [splice, get?_append_of_lt, get?_dropWhile _ _ _ hx]
    intro c hc
    rcases List.mem_append.mp hc with hc | hc
    · have := mem_takeWhile_lt hc; omega
    · have := mem_cells hc; omega

/-! ## The canonical form -/

theorem Memory.wf_iff_pairwise (m : List Host.Cell) :
    Memory.wf m = true ↔ m.Pairwise (fun c d => c.1 < d.1) := by
  induction m with
  | nil => simp [wf]
  | cons c m ih =>
    cases m with
    | nil => simp [wf]
    | cons d m =>
      rw [wf, Bool.and_eq_true, ih, decide_eq_true_eq, List.pairwise_cons (a := c)]
      constructor
      · rintro ⟨h, hp⟩
        refine ⟨fun e he => ?_, hp⟩
        rcases List.mem_cons.mp he with rfl | he
        · exact h
        · exact h.trans ((List.pairwise_cons.mp hp).1 e he)
      · rintro ⟨h, hp⟩
        exact ⟨h d (by simp), hp⟩

theorem Memory.pairwise_cells (a : Nat) (vs : List Byte) :
    (Memory.cells a vs).Pairwise (fun c d => c.1 < d.1) := by
  induction vs generalizing a with
  | nil => simp [cells]
  | cons v vs ih =>
    rw [cells, List.pairwise_cons]
    exact ⟨fun c hc => by have := mem_cells hc; omega, ih _⟩

theorem Memory.mem_dropWhile_le {m : List Host.Cell} (h : m.Pairwise (fun c d => c.1 < d.1)) {b : Nat}
    {c : Host.Cell} (hc : c ∈ m.dropWhile (fun c => decide (c.1 < b))) : b ≤ c.1 := by
  have hs := h.sublist (List.dropWhile_sublist (fun c => decide (c.1 < b)))
  have hh := head_dropWhile_le m b
  generalize m.dropWhile (fun c => decide (c.1 < b)) = l at *
  cases l with
  | nil => simp at hc
  | cons d l =>
    have hd := hh d (by simp)
    rcases List.mem_cons.mp hc with rfl | hc
    · exact hd
    · exact hd.trans ((List.pairwise_cons.mp hs).1 c hc).le

/-- A write keeps the canonical form. -/
theorem Memory.wf_splice {m : List Host.Cell} (h : Memory.wf m = true) (a : Nat) (vs : List Byte) :
    Memory.wf (Memory.splice m a vs) = true := by
  rw [wf_iff_pairwise] at h ⊢
  rw [splice, List.append_assoc, List.pairwise_append, List.pairwise_append]
  refine ⟨h.sublist (List.takeWhile_sublist _), ⟨pairwise_cells a vs, h.sublist (List.dropWhile_sublist _), ?_⟩, ?_⟩
  · intro c hc d hd
    have := mem_cells hc; have := mem_dropWhile_le h hd; omega
  · intro c hc d hd
    have h1 := mem_takeWhile_lt hc
    rcases List.mem_append.mp hd with hd | hd
    · have := mem_cells hd; omega
    · have := mem_dropWhile_le h hd; omega

theorem Memory.mem_splice {m : List Host.Cell} {a : Nat} {vs : List Byte} {c : Host.Cell}
    (h : c ∈ Memory.splice m a vs) : c ∈ m ∨ (a ≤ c.1 ∧ c.1 < a + vs.length) := by
  rw [splice, List.mem_append, List.mem_append] at h
  rcases h with (h | h) | h
  · exact .inl (List.takeWhile_sublist _ |>.mem h)
  · exact .inr (mem_cells h)
  · exact .inl (List.dropWhile_sublist _ |>.mem h)

/-! ## Bytes and slots of a state -/

theorem bytesOf_length (v : DWord) : (bytesOf v).length = 8 := by simp [bytesOf]

theorem bytesOf_getElem (v : DWord) (j : Nat) (h : j < (bytesOf v).length) :
    (bytesOf v)[j] = v.extractLsb' (8 * j) 8 := by simp [bytesOf]

theorem byte_eq_of_get? {s s' : State} (he : s'.epoch = s.epoch) {a : Nat}
    (h : Memory.get? s'.mem a = Memory.get? s.mem a) : s'.byte a = s.byte a := by
  simp [State.byte, he, h]

/-- The bytes of the written slot. -/
theorem setSlot_byte_inside (s : State) (b : Buf) (k : Nat) (v : DWord) (j : Nat) (hj : j < 8) :
    (s.setSlot b k v).byte (slotAddr b k + j) = v.extractLsb' (8 * j) 8 := by
  have h8 := bytesOf_length v
  simp only [State.byte, State.setSlot]
  rw [Memory.get?_splice_inside _ _ _ _ (by omega), bytesOf_getElem]
  rfl

/-- A slot write leaves every byte outside the slot alone. -/
theorem setSlot_byte_outside (s : State) (b : Buf) (k : Nat) (v : DWord) (x : Nat)
    (hx : x < slotAddr b k ∨ slotAddr b k + 8 ≤ x) : (s.setSlot b k v).byte x = s.byte x :=
  byte_eq_of_get? (s := s) (s' := s.setSlot b k v) rfl
    (Memory.get?_splice_outside _ _ _ _ (by rwa [bytesOf_length]))

/-- The 64 bits at an offset are the eight bytes there, the lowest offset lowest. -/
theorem bytes8_eq (s : State) (a : Nat) :
    s.bytes8 a = s.byte (a + 7) ++ s.byte (a + 6) ++ s.byte (a + 5) ++ s.byte (a + 4) ++ s.byte (a + 3) ++
      s.byte (a + 2) ++ s.byte (a + 1) ++ s.byte a := by
  have h (j : Nat) := Memory.get?_dropWhile s.mem a (a + j) (by omega)
  simp only [State.bytes8, State.byte, h]
  rfl

theorem bytes8_congr {s s' : State} {a : Nat} (h : ∀ j < 8, s'.byte (a + j) = s.byte (a + j)) :
    s'.bytes8 a = s.bytes8 a := by
  have h0 := h 0 (by omega)
  rw [Nat.add_zero] at h0
  rw [bytes8_eq, bytes8_eq, h 7 (by omega), h 6 (by omega), h 5 (by omega), h 4 (by omega), h 3 (by omega),
    h 2 (by omega), h 1 (by omega), h0]

theorem joined_bytes (v : DWord) :
    v.extractLsb' 56 8 ++ v.extractLsb' 48 8 ++ v.extractLsb' 40 8 ++ v.extractLsb' 32 8 ++ v.extractLsb' 24 8 ++
      v.extractLsb' 16 8 ++ v.extractLsb' 8 8 ++ v.extractLsb' 0 8 = v := by
  ext i hi
  simp only [BitVec.getElem_append, BitVec.getElem_extractLsb']
  split_ifs <;> simp <;> (try rw [← BitVec.getLsbD_eq_getElem]) <;> congr 1 <;> omega

/-- Reading the slot just written. -/
theorem setSlot_slot_same (s : State) (b : Buf) (k : Nat) (v : DWord) : (s.setSlot b k v).slot b k = v := by
  have h (j : Nat) (hj : j < 8) := setSlot_byte_inside s b k v j hj
  have h0 := h 0 (by omega)
  rw [Nat.add_zero] at h0
  rw [State.slot, bytes8_eq, h 7 (by omega), h 6 (by omega), h 5 (by omega), h 4 (by omega), h 3 (by omega),
    h 2 (by omega), h 1 (by omega), h0]
  exact joined_bytes v

/-- Two slots of the buffers are the same slot or eight bytes apart: the windows of the populated buffers do not
meet. -/
theorem slotAddr_apart {b c : Buf} {k l : Nat} (hk : k < 2 ^ 24) (hl : l < 2 ^ 24) (h : b ≠ c ∨ k ≠ l) :
    slotAddr b k + 8 ≤ slotAddr c l ∨ slotAddr c l + 8 ≤ slotAddr b k := by
  cases b <;> cases c <;> simp [slotAddr, Buf.window] at * <;> omega

/-- A slot write leaves every other slot alone. -/
theorem setSlot_slot_other (s : State) {b c : Buf} {k l : Nat} (v : DWord) (hk : k < 2 ^ 24) (hl : l < 2 ^ 24)
    (h : b ≠ c ∨ k ≠ l) : (s.setSlot b k v).slot c l = s.slot c l := by
  refine bytes8_congr fun j hj => setSlot_byte_outside _ _ _ _ _ ?_
  have := slotAddr_apart hk hl h
  omega

theorem slots_le (p : Params) : p.slots ≤ 2 ^ 24 :=
  Nat.pow_le_pow_right (by norm_num) (by have := p.nmaxLog2.isLt; omega)

end Sys2Proof.Machine
end

