-- ==== Sys2Proof/Laws/State.lean ====
section
/-! SUPPORT. One lemma per field per update: what each shared operation leaves of the state's fields and of the
registers, so that no later proof unfolds a record update. -/

namespace Sys2Proof.Machine

/-! ## Registers: STATUS updates, ERROR records, host writes to STATUS and CTRL -/

@[simp] theorem setStatus_ctrl (r : Regs) (m : Word) : (r.setStatus m).ctrl = r.ctrl := rfl
@[simp] theorem clearStatus_ctrl (r : Regs) (m : Word) : (r.clearStatus m).ctrl = r.ctrl := rfl
@[simp] theorem record_ctrl (r : Regs) (e : Err) (a : Word) :
    (r.record e a).ctrl = r.ctrl := by unfold Regs.record; split <;> rfl
@[simp] theorem writeStatus_ctrl (r : Regs) (v : Word) :
    (r.writeStatus v).ctrl = r.ctrl := by unfold Regs.writeStatus; split <;> rfl
@[simp] theorem writeCtrl_status (r : Regs) (v : Word) : (r.writeCtrl v).status = r.status := rfl
@[simp] theorem setStatus_errcode (r : Regs) (m : Word) : (r.setStatus m).errcode = r.errcode := rfl
@[simp] theorem clearStatus_errcode (r : Regs) (m : Word) : (r.clearStatus m).errcode = r.errcode := rfl
@[simp] theorem writeCtrl_errcode (r : Regs) (v : Word) : (r.writeCtrl v).errcode = r.errcode := rfl
@[simp] theorem setStatus_erraddr (r : Regs) (m : Word) : (r.setStatus m).erraddr = r.erraddr := rfl
@[simp] theorem clearStatus_erraddr (r : Regs) (m : Word) : (r.clearStatus m).erraddr = r.erraddr := rfl
@[simp] theorem writeCtrl_erraddr (r : Regs) (v : Word) : (r.writeCtrl v).erraddr = r.erraddr := rfl
@[simp] theorem setStatus_cmd (r : Regs) (m : Word) : (r.setStatus m).cmd = r.cmd := rfl
@[simp] theorem clearStatus_cmd (r : Regs) (m : Word) : (r.clearStatus m).cmd = r.cmd := rfl
@[simp] theorem record_cmd (r : Regs) (e : Err) (a : Word) :
    (r.record e a).cmd = r.cmd := by unfold Regs.record; split <;> rfl
@[simp] theorem writeStatus_cmd (r : Regs) (v : Word) :
    (r.writeStatus v).cmd = r.cmd := by unfold Regs.writeStatus; split <;> rfl
@[simp] theorem writeCtrl_cmd (r : Regs) (v : Word) : (r.writeCtrl v).cmd = r.cmd := rfl
@[simp] theorem setStatus_len (r : Regs) (m : Word) : (r.setStatus m).len = r.len := rfl
@[simp] theorem clearStatus_len (r : Regs) (m : Word) : (r.clearStatus m).len = r.len := rfl
@[simp] theorem record_len (r : Regs) (e : Err) (a : Word) :
    (r.record e a).len = r.len := by unfold Regs.record; split <;> rfl
@[simp] theorem writeStatus_len (r : Regs) (v : Word) :
    (r.writeStatus v).len = r.len := by unfold Regs.writeStatus; split <;> rfl
@[simp] theorem writeCtrl_len (r : Regs) (v : Word) : (r.writeCtrl v).len = r.len := rfl
@[simp] theorem setStatus_idx (r : Regs) (m : Word) : (r.setStatus m).idx = r.idx := rfl
@[simp] theorem clearStatus_idx (r : Regs) (m : Word) : (r.clearStatus m).idx = r.idx := rfl
@[simp] theorem record_idx (r : Regs) (e : Err) (a : Word) :
    (r.record e a).idx = r.idx := by unfold Regs.record; split <;> rfl
@[simp] theorem writeStatus_idx (r : Regs) (v : Word) :
    (r.writeStatus v).idx = r.idx := by unfold Regs.writeStatus; split <;> rfl
@[simp] theorem writeCtrl_idx (r : Regs) (v : Word) : (r.writeCtrl v).idx = r.idx := rfl
@[simp] theorem setStatus_bits (r : Regs) (m : Word) : (r.setStatus m).bits = r.bits := rfl
@[simp] theorem clearStatus_bits (r : Regs) (m : Word) : (r.clearStatus m).bits = r.bits := rfl
@[simp] theorem record_bits (r : Regs) (e : Err) (a : Word) :
    (r.record e a).bits = r.bits := by unfold Regs.record; split <;> rfl
@[simp] theorem writeStatus_bits (r : Regs) (v : Word) :
    (r.writeStatus v).bits = r.bits := by unfold Regs.writeStatus; split <;> rfl
@[simp] theorem writeCtrl_bits (r : Regs) (v : Word) : (r.writeCtrl v).bits = r.bits := rfl
@[simp] theorem setStatus_ridx (r : Regs) (m : Word) : (r.setStatus m).ridx = r.ridx := rfl
@[simp] theorem clearStatus_ridx (r : Regs) (m : Word) : (r.clearStatus m).ridx = r.ridx := rfl
@[simp] theorem record_ridx (r : Regs) (e : Err) (a : Word) :
    (r.record e a).ridx = r.ridx := by unfold Regs.record; split <;> rfl
@[simp] theorem writeStatus_ridx (r : Regs) (v : Word) :
    (r.writeStatus v).ridx = r.ridx := by unfold Regs.writeStatus; split <;> rfl
@[simp] theorem writeCtrl_ridx (r : Regs) (v : Word) : (r.writeCtrl v).ridx = r.ridx := rfl
@[simp] theorem setStatus_opaRe (r : Regs) (m : Word) : (r.setStatus m).opaRe = r.opaRe := rfl
@[simp] theorem clearStatus_opaRe (r : Regs) (m : Word) : (r.clearStatus m).opaRe = r.opaRe := rfl
@[simp] theorem record_opaRe (r : Regs) (e : Err) (a : Word) :
    (r.record e a).opaRe = r.opaRe := by unfold Regs.record; split <;> rfl
@[simp] theorem writeStatus_opaRe (r : Regs) (v : Word) :
    (r.writeStatus v).opaRe = r.opaRe := by unfold Regs.writeStatus; split <;> rfl
@[simp] theorem writeCtrl_opaRe (r : Regs) (v : Word) : (r.writeCtrl v).opaRe = r.opaRe := rfl
@[simp] theorem setStatus_opaIm (r : Regs) (m : Word) : (r.setStatus m).opaIm = r.opaIm := rfl
@[simp] theorem clearStatus_opaIm (r : Regs) (m : Word) : (r.clearStatus m).opaIm = r.opaIm := rfl
@[simp] theorem record_opaIm (r : Regs) (e : Err) (a : Word) :
    (r.record e a).opaIm = r.opaIm := by unfold Regs.record; split <;> rfl
@[simp] theorem writeStatus_opaIm (r : Regs) (v : Word) :
    (r.writeStatus v).opaIm = r.opaIm := by unfold Regs.writeStatus; split <;> rfl
@[simp] theorem writeCtrl_opaIm (r : Regs) (v : Word) : (r.writeCtrl v).opaIm = r.opaIm := rfl
@[simp] theorem setStatus_opbRe (r : Regs) (m : Word) : (r.setStatus m).opbRe = r.opbRe := rfl
@[simp] theorem clearStatus_opbRe (r : Regs) (m : Word) : (r.clearStatus m).opbRe = r.opbRe := rfl
@[simp] theorem record_opbRe (r : Regs) (e : Err) (a : Word) :
    (r.record e a).opbRe = r.opbRe := by unfold Regs.record; split <;> rfl
@[simp] theorem writeStatus_opbRe (r : Regs) (v : Word) :
    (r.writeStatus v).opbRe = r.opbRe := by unfold Regs.writeStatus; split <;> rfl
@[simp] theorem writeCtrl_opbRe (r : Regs) (v : Word) : (r.writeCtrl v).opbRe = r.opbRe := rfl
@[simp] theorem setStatus_opbIm (r : Regs) (m : Word) : (r.setStatus m).opbIm = r.opbIm := rfl
@[simp] theorem clearStatus_opbIm (r : Regs) (m : Word) : (r.clearStatus m).opbIm = r.opbIm := rfl
@[simp] theorem record_opbIm (r : Regs) (e : Err) (a : Word) :
    (r.record e a).opbIm = r.opbIm := by unfold Regs.record; split <;> rfl
@[simp] theorem writeStatus_opbIm (r : Regs) (v : Word) :
    (r.writeStatus v).opbIm = r.opbIm := by unfold Regs.writeStatus; split <;> rfl
@[simp] theorem writeCtrl_opbIm (r : Regs) (v : Word) : (r.writeCtrl v).opbIm = r.opbIm := rfl
@[simp] theorem setStatus_resRe (r : Regs) (m : Word) : (r.setStatus m).resRe = r.resRe := rfl
@[simp] theorem clearStatus_resRe (r : Regs) (m : Word) : (r.clearStatus m).resRe = r.resRe := rfl
@[simp] theorem record_resRe (r : Regs) (e : Err) (a : Word) :
    (r.record e a).resRe = r.resRe := by unfold Regs.record; split <;> rfl
@[simp] theorem writeStatus_resRe (r : Regs) (v : Word) :
    (r.writeStatus v).resRe = r.resRe := by unfold Regs.writeStatus; split <;> rfl
@[simp] theorem writeCtrl_resRe (r : Regs) (v : Word) : (r.writeCtrl v).resRe = r.resRe := rfl
@[simp] theorem setStatus_resIm (r : Regs) (m : Word) : (r.setStatus m).resIm = r.resIm := rfl
@[simp] theorem clearStatus_resIm (r : Regs) (m : Word) : (r.clearStatus m).resIm = r.resIm := rfl
@[simp] theorem record_resIm (r : Regs) (e : Err) (a : Word) :
    (r.record e a).resIm = r.resIm := by unfold Regs.record; split <;> rfl
@[simp] theorem writeStatus_resIm (r : Regs) (v : Word) :
    (r.writeStatus v).resIm = r.resIm := by unfold Regs.writeStatus; split <;> rfl
@[simp] theorem writeCtrl_resIm (r : Regs) (v : Word) : (r.writeCtrl v).resIm = r.resIm := rfl

/-! ## The state -/

@[simp] theorem setSlot_regs (s : State) (b : Buf) (k : Nat) (v : DWord) : (s.setSlot b k v).regs = s.regs := rfl
@[simp] theorem setSlot_pending (s : State) (b : Buf) (k : Nat) (v : DWord) :
    (s.setSlot b k v).pending = s.pending := rfl
@[simp] theorem setSlot_hidden (s : State) (b : Buf) (k : Nat) (v : DWord) :
    (s.setSlot b k v).hidden = s.hidden := rfl
@[simp] theorem setSlot_draws (s : State) (b : Buf) (k : Nat) (v : DWord) : (s.setSlot b k v).draws = s.draws := rfl
@[simp] theorem setSlot_epoch (s : State) (b : Buf) (k : Nat) (v : DWord) : (s.setSlot b k v).epoch = s.epoch := rfl
@[simp] theorem setSlot_inst (s : State) (b : Buf) (k : Nat) (v : DWord) : (s.setSlot b k v).inst = s.inst := rfl
@[simp] theorem setSlot_world (s : State) (b : Buf) (k : Nat) (v : DWord) : (s.setSlot b k v).world = s.world := rfl
@[simp] theorem st_regs (s : State) (b : Buf) (k : Nat) (p : Prec) (x : Fp) : (s.st b k p x).regs = s.regs := rfl
@[simp] theorem st_pending (s : State) (b : Buf) (k : Nat) (p : Prec) (x : Fp) :
    (s.st b k p x).pending = s.pending := rfl
@[simp] theorem st_hidden (s : State) (b : Buf) (k : Nat) (p : Prec) (x : Fp) :
    (s.st b k p x).hidden = s.hidden := rfl
@[simp] theorem st_draws (s : State) (b : Buf) (k : Nat) (p : Prec) (x : Fp) :
    (s.st b k p x).draws = s.draws + 1 := rfl
@[simp] theorem st_epoch (s : State) (b : Buf) (k : Nat) (p : Prec) (x : Fp) : (s.st b k p x).epoch = s.epoch := rfl
@[simp] theorem st_inst (s : State) (b : Buf) (k : Nat) (p : Prec) (x : Fp) : (s.st b k p x).inst = s.inst := rfl
@[simp] theorem st_world (s : State) (b : Buf) (k : Nat) (p : Prec) (x : Fp) : (s.st b k p x).world = s.world := rfl
@[simp] theorem stPair_regs (s : State) (a b : Buf) (k : Nat) (p : Prec) (z : Cplx) :
    (s.stPair a b k p z).regs = s.regs := rfl
@[simp] theorem stPair_pending (s : State) (a b : Buf) (k : Nat) (p : Prec) (z : Cplx) :
    (s.stPair a b k p z).pending = s.pending := rfl
@[simp] theorem stPair_hidden (s : State) (a b : Buf) (k : Nat) (p : Prec) (z : Cplx) :
    (s.stPair a b k p z).hidden = s.hidden := rfl
@[simp] theorem stPair_draws (s : State) (a b : Buf) (k : Nat) (p : Prec) (z : Cplx) :
    (s.stPair a b k p z).draws = s.draws + 2 := rfl
@[simp] theorem stPair_epoch (s : State) (a b : Buf) (k : Nat) (p : Prec) (z : Cplx) :
    (s.stPair a b k p z).epoch = s.epoch := rfl
@[simp] theorem stPair_inst (s : State) (a b : Buf) (k : Nat) (p : Prec) (z : Cplx) :
    (s.stPair a b k p z).inst = s.inst := rfl
@[simp] theorem stPair_world (s : State) (a b : Buf) (k : Nat) (p : Prec) (z : Cplx) :
    (s.stPair a b k p z).world = s.world := rfl
@[simp] theorem writeRes_pending (s : State) (z : Cplx) : (s.writeRes z).pending = s.pending := rfl
@[simp] theorem writeRes_hidden (s : State) (z : Cplx) : (s.writeRes z).hidden = s.hidden := rfl
@[simp] theorem writeRes_mem (s : State) (z : Cplx) : (s.writeRes z).mem = s.mem := rfl
@[simp] theorem writeRes_draws (s : State) (z : Cplx) : (s.writeRes z).draws = s.draws + 2 := rfl
@[simp] theorem writeRes_epoch (s : State) (z : Cplx) : (s.writeRes z).epoch = s.epoch := rfl
@[simp] theorem writeRes_inst (s : State) (z : Cplx) : (s.writeRes z).inst = s.inst := rfl
@[simp] theorem writeRes_world (s : State) (z : Cplx) : (s.writeRes z).world = s.world := rfl
@[simp] theorem recordError_regs (s : State) (e : Err) (a : Word) :
    (s.recordError e a).regs = s.regs.record e a := rfl
@[simp] theorem recordError_pending (s : State) (e : Err) (a : Word) : (s.recordError e a).pending = s.pending := rfl
@[simp] theorem recordError_hidden (s : State) (e : Err) (a : Word) : (s.recordError e a).hidden = s.hidden := rfl
@[simp] theorem recordError_mem (s : State) (e : Err) (a : Word) : (s.recordError e a).mem = s.mem := rfl
@[simp] theorem recordError_draws (s : State) (e : Err) (a : Word) : (s.recordError e a).draws = s.draws := rfl
@[simp] theorem recordError_epoch (s : State) (e : Err) (a : Word) : (s.recordError e a).epoch = s.epoch := rfl
@[simp] theorem recordError_inst (s : State) (e : Err) (a : Word) : (s.recordError e a).inst = s.inst := rfl
@[simp] theorem recordError_world (s : State) (e : Err) (a : Word) : (s.recordError e a).world = s.world := rfl
@[simp] theorem respond_regs (s : State) (d : DWord) (e : Bool) : (s.respond d e).regs = s.regs := rfl
@[simp] theorem respond_pending (s : State) (d : DWord) (e : Bool) : (s.respond d e).pending = s.pending := rfl
@[simp] theorem respond_hidden (s : State) (d : DWord) (e : Bool) : (s.respond d e).hidden = s.hidden := rfl
@[simp] theorem respond_mem (s : State) (d : DWord) (e : Bool) : (s.respond d e).mem = s.mem := rfl
@[simp] theorem respond_draws (s : State) (d : DWord) (e : Bool) : (s.respond d e).draws = s.draws := rfl
@[simp] theorem respond_epoch (s : State) (d : DWord) (e : Bool) : (s.respond d e).epoch = s.epoch := rfl
@[simp] theorem respond_inst (s : State) (d : DWord) (e : Bool) : (s.respond d e).inst = s.inst := rfl
@[simp] theorem busError_regs (s : State) (e : Err) (a : Word) : (s.busError e a).regs = s.regs.record e a := rfl
@[simp] theorem busError_pending (s : State) (e : Err) (a : Word) : (s.busError e a).pending = s.pending := rfl
@[simp] theorem busError_hidden (s : State) (e : Err) (a : Word) : (s.busError e a).hidden = s.hidden := rfl
@[simp] theorem busError_mem (s : State) (e : Err) (a : Word) : (s.busError e a).mem = s.mem := rfl
@[simp] theorem busError_draws (s : State) (e : Err) (a : Word) : (s.busError e a).draws = s.draws := rfl
@[simp] theorem busError_epoch (s : State) (e : Err) (a : Word) : (s.busError e a).epoch = s.epoch := rfl
@[simp] theorem busError_inst (s : State) (e : Err) (a : Word) : (s.busError e a).inst = s.inst := rfl
@[simp] theorem reject_regs (s : State) (e : Err) :
    (s.reject e).regs = (s.regs.record e cmdOffset).setStatus doneMask := rfl
@[simp] theorem reject_pending (s : State) (e : Err) : (s.reject e).pending = s.pending := rfl
@[simp] theorem reject_hidden (s : State) (e : Err) : (s.reject e).hidden = s.hidden := rfl
@[simp] theorem reject_mem (s : State) (e : Err) : (s.reject e).mem = s.mem := rfl
@[simp] theorem reject_draws (s : State) (e : Err) : (s.reject e).draws = s.draws := rfl
@[simp] theorem reject_epoch (s : State) (e : Err) : (s.reject e).epoch = s.epoch := rfl
@[simp] theorem reject_inst (s : State) (e : Err) : (s.reject e).inst = s.inst := rfl
@[simp] theorem reject_world (s : State) (e : Err) : (s.reject e).world = s.world := rfl
@[simp] theorem accept_regs (s : State) (i : Instr) :
    (s.accept i).regs = (s.regs.clearStatus doneMask).setStatus busyMask := rfl
@[simp] theorem accept_pending (s : State) (i : Instr) : (s.accept i).pending = some i := rfl
@[simp] theorem accept_hidden (s : State) (i : Instr) : (s.accept i).hidden = s.hidden := rfl
@[simp] theorem accept_mem (s : State) (i : Instr) : (s.accept i).mem = s.mem := rfl
@[simp] theorem accept_draws (s : State) (i : Instr) : (s.accept i).draws = s.draws := rfl
@[simp] theorem accept_epoch (s : State) (i : Instr) : (s.accept i).epoch = s.epoch := rfl
@[simp] theorem accept_inst (s : State) (i : Instr) : (s.accept i).inst = s.inst := rfl
@[simp] theorem accept_world (s : State) (i : Instr) : (s.accept i).world = s.world.nextDelay := rfl
@[simp] theorem complete_regs (s : State) : s.complete.regs = (s.regs.clearStatus busyMask).setStatus doneMask := rfl
@[simp] theorem complete_pending (s : State) : s.complete.pending = none := rfl
@[simp] theorem complete_hidden (s : State) : s.complete.hidden = s.hidden := rfl
@[simp] theorem complete_mem (s : State) : s.complete.mem = s.mem := rfl
@[simp] theorem complete_draws (s : State) : s.complete.draws = s.draws := rfl
@[simp] theorem complete_epoch (s : State) : s.complete.epoch = s.epoch := rfl
@[simp] theorem complete_inst (s : State) : s.complete.inst = s.inst := rfl
@[simp] theorem complete_world (s : State) : s.complete.world = s.world := rfl
@[simp] theorem unanswered_regs (s : State) : s.unanswered.regs = s.regs := rfl
@[simp] theorem unanswered_pending (s : State) : s.unanswered.pending = s.pending := rfl
@[simp] theorem unanswered_hidden (s : State) : s.unanswered.hidden = s.hidden := rfl
@[simp] theorem unanswered_mem (s : State) : s.unanswered.mem = s.mem := rfl
@[simp] theorem unanswered_draws (s : State) : s.unanswered.draws = s.draws := rfl
@[simp] theorem unanswered_epoch (s : State) : s.unanswered.epoch = s.epoch := rfl
@[simp] theorem unanswered_inst (s : State) : s.unanswered.inst = s.inst := rfl
@[simp] theorem writeRes_regs_ctrl (s : State) (z : Cplx) : (s.writeRes z).regs.ctrl = s.regs.ctrl := rfl
@[simp] theorem writeRes_regs_status (s : State) (z : Cplx) : (s.writeRes z).regs.status = s.regs.status := rfl
@[simp] theorem writeRes_regs_errcode (s : State) (z : Cplx) : (s.writeRes z).regs.errcode = s.regs.errcode := rfl
@[simp] theorem writeRes_regs_erraddr (s : State) (z : Cplx) : (s.writeRes z).regs.erraddr = s.regs.erraddr := rfl
@[simp] theorem writeRes_regs_cmd (s : State) (z : Cplx) : (s.writeRes z).regs.cmd = s.regs.cmd := rfl
@[simp] theorem writeRes_regs_len (s : State) (z : Cplx) : (s.writeRes z).regs.len = s.regs.len := rfl
@[simp] theorem writeRes_regs_idx (s : State) (z : Cplx) : (s.writeRes z).regs.idx = s.regs.idx := rfl
@[simp] theorem writeRes_regs_bits (s : State) (z : Cplx) : (s.writeRes z).regs.bits = s.regs.bits := rfl
@[simp] theorem writeRes_regs_ridx (s : State) (z : Cplx) : (s.writeRes z).regs.ridx = s.regs.ridx := rfl
@[simp] theorem writeRes_regs_opaRe (s : State) (z : Cplx) : (s.writeRes z).regs.opaRe = s.regs.opaRe := rfl
@[simp] theorem writeRes_regs_opaIm (s : State) (z : Cplx) : (s.writeRes z).regs.opaIm = s.regs.opaIm := rfl
@[simp] theorem writeRes_regs_opbRe (s : State) (z : Cplx) : (s.writeRes z).regs.opbRe = s.regs.opbRe := rfl
@[simp] theorem writeRes_regs_opbIm (s : State) (z : Cplx) : (s.writeRes z).regs.opbIm = s.regs.opbIm := rfl
@[simp] theorem respond_world_inputs (s : State) (d : DWord) (e : Bool) :
    (s.respond d e).world.inputs = s.world.inputs := rfl
@[simp] theorem respond_world_latencies (s : State) (d : DWord) (e : Bool) :
    (s.respond d e).world.latencies = s.world.latencies := rfl
@[simp] theorem respond_world_delay (s : State) (d : DWord) (e : Bool) :
    (s.respond d e).world.delay = s.world.delay := rfl
@[simp] theorem respond_world_inReset (s : State) (d : DWord) (e : Bool) :
    (s.respond d e).world.inReset = s.world.inReset := rfl
@[simp] theorem busError_world_inputs (s : State) (e : Err) (a : Word) :
    (s.busError e a).world.inputs = s.world.inputs := rfl
@[simp] theorem busError_world_latencies (s : State) (e : Err) (a : Word) :
    (s.busError e a).world.latencies = s.world.latencies := rfl
@[simp] theorem busError_world_delay (s : State) (e : Err) (a : Word) :
    (s.busError e a).world.delay = s.world.delay := rfl
@[simp] theorem busError_world_inReset (s : State) (e : Err) (a : Word) :
    (s.busError e a).world.inReset = s.world.inReset := rfl
@[simp] theorem unanswered_world_inputs (s : State) : s.unanswered.world.inputs = s.world.inputs := rfl
@[simp] theorem unanswered_world_latencies (s : State) : s.unanswered.world.latencies = s.world.latencies := rfl
@[simp] theorem unanswered_world_delay (s : State) : s.unanswered.world.delay = s.world.delay := rfl
@[simp] theorem unanswered_world_inReset (s : State) : s.unanswered.world.inReset = s.world.inReset := rfl
@[simp] theorem respond_response (s : State) (d : DWord) (e : Bool) :
    (s.respond d e).world.response = some ⟨d, e⟩ := rfl
@[simp] theorem busError_response (s : State) (e : Err) (a : Word) :
    (s.busError e a).world.response = some ⟨0, true⟩ := rfl
@[simp] theorem unanswered_response (s : State) : s.unanswered.world.response = none := rfl
@[simp] theorem nextDelay_inputs (w : World) : w.nextDelay.inputs = w.inputs := rfl
@[simp] theorem nextDelay_response (w : World) : w.nextDelay.response = w.response := rfl
@[simp] theorem nextDelay_inReset (w : World) : w.nextDelay.inReset = w.inReset := rfl
@[simp] theorem afterReset_draws (s : State) : s.afterReset.draws = s.draws := rfl
@[simp] theorem afterReset_inst (s : State) : s.afterReset.inst = s.inst := rfl
@[simp] theorem afterReset_regs (s : State) : s.afterReset.regs = Regs.reset := rfl
@[simp] theorem afterReset_pending (s : State) : s.afterReset.pending = none := rfl
@[simp] theorem afterReset_hidden (s : State) : s.afterReset.hidden = Hidden.reset := rfl
@[simp] theorem afterReset_mem (s : State) : s.afterReset.mem = [] := rfl
@[simp] theorem afterReset_epoch (s : State) : s.afterReset.epoch = s.epoch + 1 := rfl

end Sys2Proof.Machine
end

