-- ==== Sys2Proof/Laws/Status.lean ====
section
/-! SUPPORT. What the STATUS updates do bit by bit, and the inversion lemmas of the shared operations: everything an
error record, a rejection, an acceptance, a completion, a check of an access can do. -/

namespace Sys2Proof.Machine

/-! ## STATUS bit by bit -/

@[simp] theorem setStatus_bit (r : Regs) (m : Word) (i : Nat) :
    (r.setStatus m).status.getLsbD i = (r.status.getLsbD i || m.getLsbD i) := by simp [Regs.setStatus]

@[simp] theorem clearStatus_bit (r : Regs) (m : Word) (i : Nat) :
    (r.clearStatus m).status.getLsbD i = (r.status.getLsbD i && !m.getLsbD i) := by
  by_cases h : i < 32
  · simp [Regs.clearStatus, h]
  · simp [Regs.clearStatus, BitVec.getLsbD_of_ge _ _ (Nat.not_lt.mp h)]

theorem busyMask_bit (i : Nat) : busyMask.getLsbD i = decide (i = 0) := by
  rw [show busyMask = BitVec.twoPow 32 0 by decide, BitVec.getLsbD_twoPow]; simp [eq_comm]

theorem doneMask_bit (i : Nat) : doneMask.getLsbD i = decide (i = 1) := by
  rw [show doneMask = BitVec.twoPow 32 1 by decide, BitVec.getLsbD_twoPow]; simp [eq_comm]

theorem errMask_bit (i : Nat) : errMask.getLsbD i = decide (i = 2) := by
  rw [show errMask = BitVec.twoPow 32 2 by decide, BitVec.getLsbD_twoPow]; simp [eq_comm]

theorem errOvfMask_bit (i : Nat) : errOvfMask.getLsbD i = decide (i = 3) := by
  rw [show errOvfMask = BitVec.twoPow 32 3 by decide, BitVec.getLsbD_twoPow]; simp [eq_comm]

/-- STATUS after completion: BUSY is 0, DONE is 1, every other bit is as before (60_exceptions.md R108). -/
theorem complete_status_bit (s : State) (i : Nat) :
    s.complete.regs.status.getLsbD i =
      if i = 0 then false else if i = 1 then true else s.regs.status.getLsbD i := by
  simp only [complete_regs, setStatus_bit, clearStatus_bit, busyMask_bit, doneMask_bit]
  split_ifs <;> simp_all

/-- STATUS after acceptance: BUSY is 1, DONE is 0, every other bit is as before (30_encoding.md R61). -/
theorem accept_status_bit (s : State) (c : Instr) (i : Nat) :
    (s.accept c).regs.status.getLsbD i =
      if i = 0 then true else if i = 1 then false else s.regs.status.getLsbD i := by
  simp only [accept_regs, setStatus_bit, clearStatus_bit, busyMask_bit, doneMask_bit]
  split_ifs <;> simp_all

/-- STATUS after an error is recorded: ERR is 1, ERR_OVF is 1 if ERR was, every other bit is as before
(60_exceptions.md R105). -/
theorem record_status_bit (r : Regs) (e : Err) (a : Word) (i : Nat) :
    (r.record e a).status.getLsbD i =
      if i = 2 then true else if i = 3 then r.errOvf || r.err else r.status.getLsbD i := by
  unfold Regs.record
  split
  next h =>
    simp only [setStatus_bit, errOvfMask_bit]
    simp only [Regs.err, Regs.errOvf] at *
    split_ifs <;> simp_all
  next h =>
    have : ({ r.setStatus errMask with errcode := e.code, erraddr := a } : Regs).status =
      (r.setStatus errMask).status := rfl
    rw [this, setStatus_bit, errMask_bit]
    simp only [Regs.err, Regs.errOvf] at *
    split_ifs <;> simp_all

/-- ERRCODE and ERRADDR keep the first error (60_exceptions.md R105). -/
theorem record_errcode (r : Regs) (e : Err) (a : Word) :
    (r.record e a).errcode = if r.err then r.errcode else e.code := by
  unfold Regs.record; split <;> simp_all

theorem record_erraddr (r : Regs) (e : Err) (a : Word) :
    (r.record e a).erraddr = if r.err then r.erraddr else a := by
  unfold Regs.record; split <;> simp_all

/-- STATUS after a host write of `v`: a 1 in bits 3:1 clears the bit (10_state.md R22). -/
theorem writeStatus_bit (r : Regs) (v : Word) (i : Nat) :
    (r.writeStatus v).status.getLsbD i =
      (r.status.getLsbD i && !(v.getLsbD i && (decide (i = 1) || decide (i = 2) || decide (i = 3)))) := by
  have h : (r.writeStatus v).status = (r.clearStatus (v &&& (doneMask ||| errMask ||| errOvfMask))).status := by
    unfold Regs.writeStatus; split <;> rfl
  rw [h, clearStatus_bit, BitVec.getLsbD_and, BitVec.getLsbD_or, BitVec.getLsbD_or, doneMask_bit, errMask_bit,
    errOvfMask_bit]

theorem writeStatus_errcode (r : Regs) (v : Word) :
    (r.writeStatus v).errcode = if v.getLsbD 2 then 0 else r.errcode := by
  unfold Regs.writeStatus; split <;> simp_all

theorem writeStatus_erraddr (r : Regs) (v : Word) :
    (r.writeStatus v).erraddr = if v.getLsbD 2 then 0 else r.erraddr := by
  unfold Regs.writeStatus; split <;> simp_all

/-! ## What a check and an issue can do -/

/-- An access that passes its checks has a width of 4 or 8 bytes, is aligned to it, and reaches a mapped place that
the busy lockout leaves open (60_exceptions.md R106). -/
theorem checkAccess_ok {s : State} {w : Bool} {off bytes : Nat} {p : Place}
    (h : checkAccess s w off bytes = .ok p) :
    (bytes = 4 ∨ bytes = 8) ∧ off % bytes = 0 ∧ placeAt s.inst off = some p ∧
      (s.regs.busy && p.locked w) = false := by
  unfold checkAccess at h
  split at h
  · cases h
  split at h
  · cases h
  split at h
  · cases h
  split at h
  · cases h
  · cases h
    simp_all
    omega

/-- An issue is a rejection with one of the four command errors or an acceptance of the decoded command, after CMD
latched the word (30_encoding.md R61). -/
theorem issue_cases (s : State) (c : Word) :
    let s' : State := { s with regs := { s.regs with cmd := c } }
    (decode c = .error .illegalOp ∧ s.issue c = s'.reject .illegalOp) ∨
    (decode c = .error .rsvdField ∧ s.issue c = s'.reject .rsvdField) ∨
    (∃ i e, decode c = .ok i ∧ operandError s' i = some e ∧ s.issue c = s'.reject e) ∨
    (∃ i, decode c = .ok i ∧ operandError s' i = none ∧ s.issue c = s'.accept i) := by
  intro s'
  unfold State.issue
  cases hd : decode c with
  | error e => cases e <;> simp [s']
  | ok i =>
    cases ho : operandError s' i with
    | some e => exact .inr (.inr (.inl ⟨i, e, rfl, ho, by simp only; rw [ho]⟩))
    | none => exact .inr (.inr (.inr ⟨i, rfl, ho, by simp only; rw [ho]⟩))

end Sys2Proof.Machine
end

