-- ==== Sys2Proof/Laws/Outcomes.lean ====
section
/-! SUPPORT. What each way an access or a command can end leaves of the state: one lemma each for a bus error, a
rejection, an acceptance and a completion. -/

namespace Sys2Proof.Machine

/-- A rejection, all it does (30_encoding.md R61). -/
theorem reject_spec (s : State) (c : Word) (e : Err) :
    Rejected s (({ s with regs := { s.regs with cmd := c } } : State).reject e) c e := by
  constructor
  · constructor
    · intro i
      simp only [State.reject, setStatus_bit, record_status_bit, doneMask_bit, Regs.done, Regs.err, Regs.errOvf]
      split_ifs <;> simp_all
    · simp [State.reject, record_errcode, Regs.err]
    · simp [State.reject, record_erraddr, Regs.err, cmdOffset]
  · simp only [State.reject, Regs.setStatus]
    congr 1
    rw [Regs.mk.injEq]; simp

/-- An acceptance, all it does (30_encoding.md R61). -/
theorem accept_spec (s : State) (c : Word) (i : Instr) :
    Accepted s (({ s with regs := { s.regs with cmd := c } } : State).accept i) c i := by
  constructor
  · intro j; rw [accept_status_bit]
  · rfl

/-- A bus error, all it does (20_memory.md R41). -/
theorem busError_spec (s : State) (e : Err) (a : Word) : BusErrored s (s.busError e a) e a := by
  constructor
  · constructor
    · intro i; simp only [State.busError, State.respond, State.recordError, record_status_bit, Regs.done]
      split_ifs <;> simp_all
    · simp [State.busError, State.respond, State.recordError, record_errcode]
    · simp [State.busError, State.respond, State.recordError, record_erraddr]
  · simp only [State.busError, State.respond, State.recordError, State.mk.injEq, and_true]
    rw [Regs.mk.injEq]; simp

/-- Completing a state that differs from `s` in RIDX, RES_RE, RES_IM, memory and internal registers only. -/
theorem complete_spec (s t : State) (h3 : t.epoch = s.epoch) (h4 : t.inst = s.inst) (h5 : t.world = s.world)
   (h2 : t.regs = { s.regs with ridx := t.regs.ridx, resRe := t.regs.resRe, resIm := t.regs.resIm }) :
       Completed s t.complete := by
  constructor
  · intro j; rw [complete_status_bit, h2]
  · rfl
  · simp only [State.complete, Regs.setStatus, Regs.clearStatus]
    generalize t.regs = r at *
    cases r; simp only [Regs.mk.injEq] at *; simp_all
  · simpa
  · simpa
  · simpa

/-- A primitive that writes RES completes. -/
theorem writeRes_completed (s : State) (z : Cplx) : Completed s (s.writeRes z).complete :=
  complete_spec _ _ rfl rfl rfl rfl

theorem operandError_none {s : State} {i : Instr} (h1 : i.usesLen = true → validLen s.inst s.regs.len = true)
    (h2 : i = .bitrev → s.regs.bits.toNat ≤ 24) :
    operandError s i = none := by
  unfold operandError
  split_ifs with h3 h4
  · simp at h3; rw [h1 h3.1] at h3; simp at h3
  · simp [BitVec.lt_def] at h4; have := h2 h4.1; omega
  · rfl

/-- R61 accepts the operand registers of a command. -/
theorem operandError_none_iff {s : State} {i : Instr} :
    operandError s i = none ↔ (i.usesLen = true → validLen s.inst s.regs.len = true) ∧
        (i = .bitrev → s.regs.bits.toNat ≤ 24) := by
  constructor
  · intro h
    unfold operandError at h
    split_ifs at h with h3 h4
    simp [BitVec.lt_def] at h3 h4
    exact ⟨h3, h4⟩
  · exact fun h => operandError_none h.1 h.2

/-- Recording an error leaves BUSY. -/
theorem busy_record (r : Regs) (e : Err) (a : Word) :
    (r.record e a).busy = r.busy := by simp only [Regs.busy, record_status_bit]; simp

end Sys2Proof.Machine
end

