-- ==== Sys2Proof/Laws/Bus.lean ====
section
/-! SUPPORT. The laws of the host's accesses: what an offset names,
    which accesses to a register and to a slot pass the
checks, and the inversion lemmas of a read, a write, an input and a step: everything each can do. -/

namespace Sys2Proof.Machine

/-! ## What an offset names -/

/-- An offset inside a populated slot names a slot. -/
theorem placeAt_slot {p : Params} {x : Nat} (h : inSlot p x) :
    ∃ b k, k < p.slots ∧ placeAt p x = some (.slot b k) := by
  obtain ⟨b, k, hk, h1, h2⟩ := h
  have hs := slots_le p
  have hd : (x - b.window) / 8 = k := by unfold slotAddr at h1 h2; omega
  refine ⟨b, k, hk, ?_⟩
  unfold slotAddr at h1 h2
  have hat : slotAt p b x = some (.slot b k) := by
    unfold slotAt; rw [hd, if_pos ⟨by omega, hk⟩]
  unfold placeAt
  cases b <;> simp only [Buf.window] at h1 h2
  · rw [if_neg (by omega), if_neg (by omega), if_pos (by omega)]; exact hat
  · rw [if_neg (by omega), if_neg (by omega), if_neg (by omega), if_pos (by omega)]; exact hat
  · rw [if_neg (by omega), if_neg (by omega), if_neg (by omega), if_neg (by omega), if_pos (by omega)]; exact hat
  · rw [if_neg (by omega), if_neg (by omega), if_neg (by omega), if_neg (by omega), if_neg (by omega),
      if_pos (by omega)]; exact hat

/-- An offset inside slot `k` names that slot. -/
theorem placeAt_of_slot (p : Params) (b : Buf) (k x : Nat) (hk : k < p.slots) (h1 : slotAddr b k ≤ x)
    (h2 : x < slotAddr b k + 8) : placeAt p x = some (.slot b k) := by
  obtain ⟨b', k', hk', hp⟩ := placeAt_slot ⟨b, k, hk, h1, h2⟩
  rw [hp]
  have hs := slots_le p
  unfold slotAddr at h1 h2
  have hat : slotAt p b x = some (.slot b k) := by
    unfold slotAt; rw [show (x - b.window) / 8 = k by omega, if_pos ⟨by omega, hk⟩]
  rw [← hp]
  unfold placeAt
  cases b <;> simp only [Buf.window] at h1 h2
  · rw [if_neg (by omega), if_neg (by omega), if_pos (by omega)]; exact hat
  · rw [if_neg (by omega), if_neg (by omega), if_neg (by omega), if_pos (by omega)]; exact hat
  · rw [if_neg (by omega), if_neg (by omega), if_neg (by omega), if_neg (by omega), if_pos (by omega)]; exact hat
  · rw [if_neg (by omega), if_neg (by omega), if_neg (by omega), if_neg (by omega), if_neg (by omega),
      if_pos (by omega)]; exact hat

theorem slotAt_inSlot {p b x pl} (h : slotAt p b x = some pl) : inSlot p x := by
  unfold slotAt at h
  split_ifs at h with h1
  exact ⟨b, (x - b.window) / 8, h1.2, by unfold slotAddr; omega, by unfold slotAddr; omega⟩

/-- An offset at 0x80 or above outside every populated slot is unmapped. -/
theorem placeAt_none {p : Params} {x : Nat} (h0 : 0x80 ≤ x) (h : ¬ inSlot p x) : placeAt p x = none := by
  unfold placeAt
  rw [if_neg (by omega)]
  have : ∀ b, slotAt p b x = none := fun b => by
    cases hb : slotAt p b x with
    | none => rfl
    | some pl => exact absurd (slotAt_inSlot hb) h
  simp only [this, ite_self]

/-- A slot an offset names is populated. -/
theorem placeAt_slot_lt {p : Params} {x : Nat} {b : Buf} {k : Nat} (h : placeAt p x = some (.slot b k)) :
    k < p.slots := by
  have key : ∀ c, slotAt p c x = some (.slot b k) → k < p.slots := by
    intro c hc
    unfold slotAt at hc
    split_ifs at hc with h1
    cases hc; exact h1.2
  unfold placeAt at h
  split_ifs at h
  · cases hr : regAt x <;> simp [hr] at h
  all_goals exact key _ h

/-- The offsets of a populated slot are 32-bit numbers. -/
theorem slot_window (b : Buf) (k : Nat) (h : k < 2 ^ 24) :
    (BitVec.ofNat 32 (slotAddr b k)).toNat = slotAddr b k ∧
        (BitVec.ofNat 32 (slotAddr b k + 4)).toNat = slotAddr b k + 4 := by
  simp only [BitVec.toNat_ofNat]
  unfold slotAddr
  cases b <;> simp only [Buf.window] <;> omega

theorem offset_lt (r : Reg) : r.offset < 0x80 := by cases r <;> decide

theorem offset_toNat (r : Reg) : (BitVec.ofNat 32 r.offset).toNat = r.offset := by cases r <;> rfl

theorem offset4_toNat (r : Reg) : (BitVec.ofNat 32 (r.offset + 4)).toNat = r.offset + 4 := by cases r <;> rfl

theorem placeAt_reg (p : Params) (r : Reg) : placeAt p r.offset = some (.reg r) := by
  unfold placeAt; rw [if_pos (offset_lt r)]; cases r <;> rfl

theorem placeAt_reg4 (p : Params) (r : Reg) : placeAt p (r.offset + 4) = some (.reg r) := by
  unfold placeAt; rw [if_pos (by cases r <;> decide)]; cases r <;> rfl

theorem offset_mod (r : Reg) : r.offset % 8 = 0 := by cases r <;> rfl

/-! ## Accesses to a register -/

/-- An access at a register's offset passes its checks unless the lockout refuses it. -/
theorem check_reg (s : State) (w : Bool) (r : Reg) {bytes : Nat} (hb : bytes = 4 ∨ bytes = 8)
    (hl : (s.regs.busy && (w && r.lockedOnWrite)) = false) :
   checkAccess s w r.offset bytes = .ok (.reg r) := by
  unfold checkAccess
  have := offset_mod r
  rw [if_neg (by tauto), if_neg (by rcases hb with rfl | rfl <;> omega), placeAt_reg]
  simp only [Place.locked, hl]; rfl

/-- A 4-byte access to the upper half of a register's slot passes its checks unless the lockout refuses it. -/
theorem check_reg4 (s : State) (w : Bool) (r : Reg) (hl : (s.regs.busy && (w && r.lockedOnWrite)) = false) :
   checkAccess s w (r.offset + 4) 4 = .ok (.reg r) := by
  unfold checkAccess
  have := offset_mod r
  rw [if_neg (by simp), if_neg (by omega), placeAt_reg4]
  simp only [Place.locked, hl]; rfl

theorem coversLow_offset (r : Reg) {bytes : Nat} :
    coversLow r.offset bytes = true := by simp [coversLow, offset_mod]

theorem coversLow_offset4 (r : Reg) : coversLow (r.offset + 4) 4 = false := by cases r <;> rfl

theorem hostWrite_reg (s : State) (r : Reg) {bytes : Nat} (data : DWord) (hb : bytes = 4 ∨ bytes = 8)
    (hl : (s.regs.busy && r.lockedOnWrite) = false) :
    s.hostWrite (BitVec.ofNat 32 r.offset) bytes data = (s.writeReg r r.offset bytes data).respond 0 false := by
  simp only [State.hostWrite, offset_toNat, check_reg s true r hb (by simpa using hl), State.writePlace]

theorem hostWrite_reg4 (s : State) (r : Reg) (data : DWord) (hl : (s.regs.busy && r.lockedOnWrite) = false) :
    s.hostWrite (BitVec.ofNat 32 (r.offset + 4)) 4 data = (s.writeReg r (r.offset + 4) 4 data).respond 0 false := by
  simp only [State.hostWrite, offset4_toNat, check_reg4 s true r (by simpa using hl), State.writePlace]

theorem hostRead_reg (s : State) (r : Reg) {bytes : Nat} (hb : bytes = 4 ∨ bytes = 8) :
    s.hostRead (BitVec.ofNat 32 r.offset) bytes = s.respond (readLanes r.offset bytes (s.regs.read r)) false := by
  simp only [State.hostRead, offset_toNat, check_reg s false r hb (by simp), State.readPlace]

/-- A checked access that reaches bits 31:0 of a register's slot is at the register's offset. -/
theorem eq_offset_of_coversLow {s : State} {w : Bool} {off : Word} {bytes : Nat} {r : Reg}
    (hp : checkAccess s w off.toNat bytes = .ok (.reg r)) (hc : coversLow off.toNat bytes = true) :
    off = BitVec.ofNat 32 r.offset := by
  obtain ⟨hb, ha, hm, -⟩ := checkAccess_ok hp
  have h8 : off.toNat % 8 = 0 := by
    rcases hb with rfl | rfl
    · simpa [coversLow] using hc
    · exact ha
  have hlt : off.toNat < 0x80 := by
    by_contra h
    unfold placeAt at hm
    rw [if_neg h] at hm
    split_ifs at hm
    all_goals (unfold slotAt at hm; split_ifs at hm; cases hm)
  have hr : Reg.all[off.toNat / 8]? = some r := by
    unfold placeAt regAt at hm
    rw [if_pos hlt] at hm
    simpa using hm
  apply BitVec.eq_of_toNat_eq
  rw [offset_toNat]
  have hd : off.toNat / 8 < 16 := by omega
  have : r.offset = off.toNat / 8 * 8 := by
    generalize off.toNat / 8 = d at *
    interval_cases d <;> cases hr <;> rfl
  omega

/-! ## Everything an access, an input and a step can do -/

/-- The registers differ in the operand registers only. -/
structure OperandsOnly (r r' : Regs) : Prop where
  eq : r' = { r with
    len := r'.len, idx := r'.idx, bits := r'.bits
    opaRe := r'.opaRe, opaIm := r'.opaIm, opbRe := r'.opbRe, opbIm := r'.opbIm }

/-- Everything a host write can do. -/
inductive WriteCase (s : State) (off : Word) (data : DWord) : State → Prop
  | error (e : Err) : WriteCase s off data (s.busError e off)
  | ignored : WriteCase s off data (s.respond 0 false)
  | ctrl : WriteCase s off data (State.respond { s with regs := s.regs.writeCtrl (data.extractLsb' 0 32) } 0 false)
  | status (ho : off = 0x010#32) :
      WriteCase s off data (State.respond { s with regs := s.regs.writeStatus (data.extractLsb' 0 32) } 0 false)
  | issue (ho : off = 0x028#32) (h : s.regs.busy = false) :
      WriteCase s off data ((s.issue (data.extractLsb' 0 32)).respond 0 false)
  | operand (h : s.regs.busy = false) (r : Regs) (hr : OperandsOnly s.regs r) :
      WriteCase s off data (State.respond { s with regs := r } 0 false)
  | slot (h : s.regs.busy = false) (b : Buf) (k : Nat) (v : DWord) (hk : k < s.inst.slots) :
      WriteCase s off data ((s.setSlot b k v).respond 0 false)

theorem hostWrite_cases (s : State) (off : Word) (bytes : Nat) (data : DWord) :
    WriteCase s off data (s.hostWrite off bytes data) := by
  unfold State.hostWrite
  split
  · exact .error _
  next p hp =>
    obtain ⟨-, -, h3, h4⟩ := checkAccess_ok hp
    cases p with
    | slot b k =>
      have hb : s.regs.busy = false := by simpa [Place.locked] using h4
      exact .slot hb _ _ _ (placeAt_slot_lt h3)
    | reg r =>
      have hb : r.lockedOnWrite = true → s.regs.busy = false := by
        intro h; simpa [Place.locked, h] using h4
      simp only [State.writePlace]
      cases r <;> simp only [State.writeReg]
      case ctrl => split; exacts [.ctrl, .ignored]
      case status => split; exacts [.status (eq_offset_of_coversLow hp ‹_›), .ignored]
      case cmd => split; exacts [.issue (eq_offset_of_coversLow hp ‹_›) (hb rfl), .ignored]
      case len => split; exacts [.operand (hb rfl) _ ⟨rfl⟩, .ignored]
      case idx => split; exacts [.operand (hb rfl) _ ⟨rfl⟩, .ignored]
      case bits => split; exacts [.operand (hb rfl) _ ⟨rfl⟩, .ignored]
      case opaRe => exact .operand (hb rfl) _ ⟨rfl⟩
      case opaIm => exact .operand (hb rfl) _ ⟨rfl⟩
      case opbRe => exact .operand (hb rfl) _ ⟨rfl⟩
      case opbIm => exact .operand (hb rfl) _ ⟨rfl⟩
      all_goals exact .ignored

/-- Everything a host read can do. -/
theorem hostRead_cases (s : State) (off : Word) (bytes : Nat) :
    (∃ e, s.hostRead off bytes = s.busError e off) ∨ ∃ d, s.hostRead off bytes = s.respond d false := by
  unfold State.hostRead
  split
  · exact .inl ⟨_, rfl⟩
  · exact .inr ⟨_, rfl⟩

/-- Where a host address reaches a local offset and reset is released, an access is the access at that offset. -/
theorem input_local {s : State} {addr : Nat} {off : Word} (h : s.inst.localOffset addr = some off)
    (hr : s.world.inReset = false) (bytes : Nat) (data : DWord) :
    s.input (.read addr bytes) = s.hostRead off bytes ∧
      s.input (.write addr bytes data) = s.hostWrite off bytes data := by simp [State.input, h, hr]

/-- Everything an input can do. -/
theorem input_cases (s : State) (x : Input) :
    s.input x = s.unanswered ∨ (∃ off bytes, s.input x = s.hostRead off bytes) ∨
    (∃ addr off bytes data, x = .write addr bytes data ∧ s.inst.localOffset addr = some off ∧
      s.input x = s.hostWrite off bytes data) ∨ ∃ a, x = .reset a ∧ s.input x = s.setReset a := by
  cases x with
  | reset a => exact .inr (.inr (.inr ⟨a, rfl, rfl⟩))
  | read addr bytes =>
    simp only [State.input]
    split
    · split
      · exact .inl rfl
      · exact .inr (.inl ⟨_, _, rfl⟩)
    · exact .inl rfl
  | write addr bytes data =>
    simp only [State.input]
    split
    next off ho =>
      split
      · exact .inl rfl
      · exact .inr (.inr (.inl ⟨_, off, _, _, rfl, ho, rfl⟩))
    next => exact .inl rfl

theorem issue_inst (s : State) (c : Word) : (s.issue c).inst = s.inst := by
  rcases issue_cases s c with ⟨_, h1⟩ | ⟨_, h1⟩ | ⟨i', e, _, _, h1⟩ | ⟨i', h1, h2, h1⟩ <;> rw [h1] <;> rfl

theorem issue_inputs (s : State) (c : Word) : (s.issue c).world.inputs = s.world.inputs := by
  rcases issue_cases s c with ⟨_, h1⟩ | ⟨_, h1⟩ | ⟨i', e, _, _, h1⟩ | ⟨i', h1, h2, h1⟩ <;> rw [h1] <;> rfl

theorem issue_inReset (s : State) (c : Word) : (s.issue c).world.inReset = s.world.inReset := by
  rcases issue_cases s c with ⟨_, h1⟩ | ⟨_, h1⟩ | ⟨i', e, _, _, h1⟩ | ⟨i', h1, h2, h1⟩ <;> rw [h1] <;> rfl

theorem issue_frame (s : State) (c : Word) : (s.issue c).mem = s.mem ∧ (s.issue c).regs.ridx = s.regs.ridx ∧
    (s.issue c).regs.resRe = s.regs.resRe ∧ (s.issue c).regs.resIm = s.regs.resIm := by
  rcases issue_cases s c with ⟨_, h1⟩ | ⟨_, h1⟩ | ⟨i', e, _, _, h1⟩ | ⟨i', h1, h2,
      h1⟩ <;> rw [h1] <;> simp [State.reject, State.accept]

theorem input_inst (s : State) (x : Input) : (s.input x).inst = s.inst := by
  rcases input_cases s x with h | ⟨off, bytes, h⟩ | ⟨addr, off, bytes, data, rfl, -, h⟩ | ⟨a, rfl, h⟩ <;> rw [h]
  · rfl
  · rcases hostRead_cases s off bytes with ⟨e, h⟩ | ⟨e, h⟩ <;> rw [h] <;> rfl
  · generalize hw : s.hostWrite off bytes data = t
    have := hostWrite_cases s off bytes data
    rw [hw] at this
    cases this <;> first | rfl | exact issue_inst ..
  · cases a <;> rfl

theorem input_inputs (s : State) (x : Input) : (s.input x).world.inputs = s.world.inputs := by
  rcases input_cases s x with h | ⟨off, bytes, h⟩ | ⟨addr, off, bytes, data, rfl, -, h⟩ | ⟨a, rfl, h⟩ <;> rw [h]
  · rfl
  · rcases hostRead_cases s off bytes with ⟨e, h⟩ | ⟨e, h⟩ <;> rw [h] <;> rfl
  · generalize hw : s.hostWrite off bytes data = t
    have := hostWrite_cases s off bytes data
    rw [hw] at this
    cases this <;> first | rfl | exact issue_inputs ..
  · cases a <;> rfl

/-- Everything a step can do. -/
theorem step_cases {s t : State} (h : step s = .next t) :
    (engineReady s = true ∧ ∃ i, s.pending = some i ∧ exec i s = .next t) ∨
    (engineReady s = false ∧ s.world.inputs = [] ∧ t = s) ∨
    (engineReady s = false ∧ ∃ x xs, s.world.inputs = x :: xs ∧
        t = State.input { s with world := { s.world with inputs := xs, delay := s.world.delay - 1 } } x) := by
  unfold step at h
  split at h
  next he =>
    unfold engineTurn at h
    split at h
    next i hi => exact .inl ⟨he, i, hi, h⟩
    next => cases h
  next he =>
    simp only [Host.Outcome.next.injEq] at h
    subst h
    unfold hostTurn
    split
    next h0 => exact .inr (.inl ⟨by simpa using he, h0, rfl⟩)
    next x xs h0 => exact .inr (.inr ⟨by simpa using he, x, xs, h0, rfl⟩)

/-- A run begins with a step. -/
theorem run_succ (M : Host.Core) {k : Nat} {s t : M.State} (h : M.step s = .next t) :
    M.run (k+1) s = M.run k t := by
  rw [Host.Core.run, h]

end Sys2Proof.Machine
end

