-- ==== Sys2Proof/Laws/Float.lean ====
section
/-! SUPPORT. The laws of rounding and of the storage formats that the statements about the datapath rest on. -/

namespace Sys2Proof.Machine

theorem rneDiv_ge (num den : Nat) : num / den ≤ rneDiv num den := by
  unfold rneDiv; split_ifs <;> omega

theorem rneDiv_le (num den : Nat) : rneDiv num den ≤ num / den + 1 := by
  unfold rneDiv; split_ifs <;> omega

/-- An exact quotient is its own rounding. -/
theorem rneDiv_exact (q : Nat) {den : Nat} (h : 0 < den) : rneDiv (q * den) den = q := by
  unfold rneDiv; simp [h]

theorem log2_bounds {u : Nat} (h : u ≠ 0) : 2 ^ u.log2 ≤ u ∧ u < 2 ^ (u.log2 + 1) :=
  ⟨Nat.log2_self_le h, (Nat.log2_lt h).mp (Nat.lt_succ_self _)⟩

theorem log2_eq_of_bounds {u k : Nat} (h₁ : 2 ^ k ≤ u) (h₂ : u < 2 ^ (k + 1)) : u.log2 = k := by
  have hu : u ≠ 0 := by have := Nat.two_pow_pos k; omega
  have := (Nat.log2_lt hu).mpr h₂
  have := (Nat.le_log2 hu).mpr h₁
  omega

/-- `u` has at most `prec` significant bits: no bit below its last place is set. -/
theorem dropBits_eq_zero {prec u : Nat} (hp : 0 < prec) (h : u < 2 ^ prec) : dropBits prec u = 0 := by
  unfold dropBits
  rcases Nat.eq_zero_or_pos u with rfl | hu
  · simp; omega
  · have := (Nat.log2_lt (by omega : u ≠ 0)).mpr h
    omega

theorem dropBits_eq {prec u d : Nat} (hp : 0 < prec) (h₁ : 2 ^ (prec - 1 + d) ≤ u) (h₂ : u < 2 ^ (prec + d)) :
    dropBits prec u = d := by
  unfold dropBits
  rw [log2_eq_of_bounds h₁ (by convert h₂ using 2; omega)]
  omega

theorem bounds_of_dropBits_pos {prec u : Nat} (h : 0 < dropBits prec u) (hp : 0 < prec) :
    2 ^ (prec - 1 + dropBits prec u) ≤ u ∧ u < 2 ^ (prec + dropBits prec u) := by
  have hu : u ≠ 0 := by
    rintro rfl
    simp [dropBits] at h
    omega
  have hb := log2_bounds hu
  unfold dropBits at h ⊢
  rw [show prec - 1 + (u.log2 + 1 - prec) = u.log2 by omega, show prec + (u.log2 + 1 - prec) = u.log2 + 1 by omega]
  exact hb

theorem lt_of_dropBits_zero {prec u : Nat} (h : dropBits prec u = 0) : u < 2 ^ prec := by
  rcases Nat.eq_zero_or_pos u with rfl | hu
  · positivity
  · have := (log2_bounds (by omega : u ≠ 0)).2
    unfold dropBits at h
    exact this.trans_le (Nat.pow_le_pow_right (by norm_num) (by omega))

/-- Rounding leaves at most `prec` significant bits. -/
theorem roundRatio_mod (prec num den : Nat) (hp : 0 < prec) :
    roundRatio prec num den % 2 ^ dropBits prec (roundRatio prec num den) = 0 := by
  set q := num / den with hq
  set d := dropBits prec q with hd
  have hr : roundRatio prec num den = rneDiv num (den * 2 ^ d) * 2 ^ d := rfl
  have hdiv : num / (den * 2 ^ d) = q / 2 ^ d := by rw [hq, Nat.div_div_eq_div_mul]
  have hge := rneDiv_ge num (den * 2 ^ d)
  have hle := rneDiv_le num (den * 2 ^ d)
  rw [hdiv] at hge hle
  generalize rneDiv num (den * 2 ^ d) = a at *
  have hlt : q / 2 ^ d < 2 ^ prec := by
    rcases Nat.eq_zero_or_pos d with h0 | hpos
    · rw [h0]; simpa using lt_of_dropBits_zero (hd ▸ h0)
    · rw [Nat.div_lt_iff_lt_mul (Nat.two_pow_pos _), ← pow_add]
      exact (bounds_of_dropBits_pos (hd ▸ hpos) hp).2
  rw [hr]
  rcases Nat.lt_or_ge a (2 ^ prec) with ha | ha
  · rcases Nat.eq_zero_or_pos d with h0 | hpos
    · rw [h0] at hr ⊢
      simp only [pow_zero, mul_one]
      rw [dropBits_eq_zero hp ha]
      simp [Nat.mod_one]
    · have hlo : 2 ^ (prec - 1) ≤ q / 2 ^ d := by
        rw [Nat.le_div_iff_mul_le (Nat.two_pow_pos _), ← pow_add]
        exact (bounds_of_dropBits_pos (hd ▸ hpos) hp).1
      rw [dropBits_eq hp (d := d)]
      · exact Nat.mul_mod_left _ _
      · rw [pow_add]; exact Nat.mul_le_mul_right _ (hlo.trans hge)
      · rw [pow_add]; exact Nat.mul_lt_mul_of_pos_right ha (Nat.two_pow_pos _)
  · have ha' : a = 2 ^ prec := by omega
    subst ha'
    rw [← pow_add, dropBits_eq hp (d := d + 1)]
    · rw [show prec + d = (prec - 1) + (d + 1) by omega, pow_add]
      exact Nat.mul_mod_left _ _
    · exact Nat.pow_le_pow_right (by norm_num) (by omega)
    · exact Nat.pow_lt_pow_right (by norm_num) (by omega)

/-- Every result of a rounding is a binary64 value. -/
theorem ofRatio_representable (neg : Bool) (num den : Nat) : representable (ofRatio neg num den) = true := by
  unfold ofRatio
  split_ifs with h
  · simp [representable, h, roundRatio_mod 53 num den (by norm_num)]
  · rfl

/-- The exponent and fraction fields of a magnitude give it back. -/
theorem magnitudeUnits_magnitudeBits {frac u : Nat} (h : u % 2 ^ (u.log2 - frac) = 0) :
    magnitudeUnits frac (magnitudeBits frac u / 2 ^ frac) (magnitudeBits frac u % 2 ^ frac) = u := by
  have hpos := Nat.two_pow_pos frac
  rcases Nat.eq_zero_or_pos (u.log2 - frac) with h0 | hd
  · have hu : u < 2 ^ (frac + 1) := lt_of_dropBits_zero (prec := frac + 1) (by unfold dropBits; omega)
    simp only [magnitudeBits, h0, pow_zero, Nat.div_one, zero_mul, zero_add, magnitudeUnits]
    rw [pow_succ] at hu
    generalize 2 ^ frac = F at *
    have hlt : u / F < 2 := Nat.div_lt_of_lt_mul hu
    have hdm := Nat.div_add_mod u F
    generalize u / F = Q at *
    obtain rfl | rfl : Q = 0 ∨ Q = 1 := by omega
    · simpa using hdm
    · simpa using hdm
  · have hu0 : u ≠ 0 := by rintro rfl; simp at hd
    obtain ⟨hlo, hhi⟩ := log2_bounds hu0
    obtain ⟨a, ha⟩ := Nat.dvd_of_mod_eq_zero h
    generalize hL : u.log2 = L at *
    obtain ⟨d, rfl⟩ : ∃ d, L = frac + d := ⟨L - frac, by omega⟩
    simp only [Nat.add_sub_cancel_left] at *
    have hP := Nat.two_pow_pos d
    have ha1 : 2 ^ frac ≤ a := by
      rw [ha, pow_add, mul_comm (2 ^ d)] at hlo
      exact Nat.le_of_mul_le_mul_right hlo hP
    have ha2 : a < 2 * 2 ^ frac := by
      rw [ha, show frac + d + 1 = d + (frac + 1) by omega, pow_add] at hhi
      have := Nat.lt_of_mul_lt_mul_left hhi
      rw [pow_succ] at this; omega
    have hB : magnitudeBits frac u = (d + 1) * 2 ^ frac + (a - 2 ^ frac) := by
      simp only [magnitudeBits, hL, Nat.add_sub_cancel_left]
      rw [ha, Nat.mul_div_cancel_left _ hP, add_mul]; omega
    have hq : magnitudeBits frac u / 2 ^ frac = d + 1 := by
      rw [hB, Nat.mul_comm, Nat.mul_add_div hpos, Nat.div_eq_of_lt (by omega), Nat.add_zero]
    have hm : magnitudeBits frac u % 2 ^ frac = a - 2 ^ frac := by
      rw [hB, Nat.mul_comm, Nat.mul_add_mod, Nat.mod_eq_of_lt (by omega)]
    rw [hq, hm, magnitudeUnits, if_neg (by omega), ha]
    simp only [Nat.add_sub_cancel]
    rw [mul_comm, show 2 ^ frac + (a - 2 ^ frac) = a by omega]

theorem magnitudeBits_lt {frac u e : Nat} (hu : u < 2 ^ (frac + e)) (he : 0 < e) :
    magnitudeBits frac u < e * 2 ^ frac + 2 ^ frac := by
  have hpos := Nat.two_pow_pos frac
  have h1 : u / 2 ^ (u.log2 - frac) < 2 * 2 ^ frac := by
    rw [Nat.div_lt_iff_lt_mul (Nat.two_pow_pos _), ← pow_succ', ← pow_add]
    refine lt_of_lt_of_le (b := 2 ^ (u.log2 + 1)) ?_ (Nat.pow_le_pow_right (by norm_num) (by omega))
    rcases Nat.eq_zero_or_pos u with rfl | h
    · simp
    · exact (log2_bounds (by omega)).2
  have h2 : u.log2 - frac ≤ e - 1 := by
    rcases Nat.eq_zero_or_pos u with rfl | h
    · simp
    · have := (Nat.log2_lt (by omega : u ≠ 0)).mpr hu; omega
  have h3 : (u.log2 - frac) * 2 ^ frac ≤ (e - 1) * 2 ^ frac := Nat.mul_le_mul_right _ h2
  have h4 : (e - 1) * 2 ^ frac + 2 ^ frac = e * 2 ^ frac := by
    obtain ⟨k, rfl⟩ : ∃ k, e = k + 1 := ⟨e - 1, by omega⟩
    simp [add_mul]
  unfold magnitudeBits
  omega

/-! ## The storage formats -/

theorem exp64_toNat (n : Bool) {x : Nat} (h : x < 2 ^ 63) :
    ((BitVec.ofBool n ++ BitVec.ofNat 63 x : DWord).extractLsb' 52 11).toNat = x / 2 ^ 52 := by
  rw [BitVec.extractLsb'_toNat, BitVec.toNat_append, BitVec.toNat_ofNat, Nat.mod_eq_of_lt h,
    ← Nat.shiftLeft_add_eq_or_of_lt h, Nat.shiftLeft_eq, Nat.shiftRight_eq_div_pow]
  cases n
  all_goals simp
  all_goals omega

theorem frac64_toNat (n : Bool) {x : Nat} (h : x < 2 ^ 63) :
    ((BitVec.ofBool n ++ BitVec.ofNat 63 x : DWord).extractLsb' 0 52).toNat = x % 2 ^ 52 := by
  rw [BitVec.extractLsb'_toNat, BitVec.toNat_append, BitVec.toNat_ofNat, Nat.mod_eq_of_lt h,
    ← Nat.shiftLeft_add_eq_or_of_lt h, Nat.shiftLeft_eq, Nat.shiftRight_zero]
  cases n
  all_goals simp
  all_goals omega

theorem sign64 (n : Bool) (x : Nat) : (BitVec.ofBool n ++ BitVec.ofNat 63 x : DWord).getLsbD 63 = n := by
  rw [BitVec.getLsbD_append]; cases n <;> simp

theorem exp32_toNat (n : Bool) {x : Nat} (h : x < 2 ^ 31) :
    ((BitVec.ofBool n ++ BitVec.ofNat 31 x : Word).extractLsb' 23 8).toNat = x / 2 ^ 23 := by
  rw [BitVec.extractLsb'_toNat, BitVec.toNat_append, BitVec.toNat_ofNat, Nat.mod_eq_of_lt h,
    ← Nat.shiftLeft_add_eq_or_of_lt h, Nat.shiftLeft_eq, Nat.shiftRight_eq_div_pow]
  cases n
  all_goals simp
  all_goals omega

theorem frac32_toNat (n : Bool) {x : Nat} (h : x < 2 ^ 31) :
    ((BitVec.ofBool n ++ BitVec.ofNat 31 x : Word).extractLsb' 0 23).toNat = x % 2 ^ 23 := by
  rw [BitVec.extractLsb'_toNat, BitVec.toNat_append, BitVec.toNat_ofNat, Nat.mod_eq_of_lt h,
    ← Nat.shiftLeft_add_eq_or_of_lt h, Nat.shiftLeft_eq, Nat.shiftRight_zero]
  cases n
  all_goals simp
  all_goals omega

theorem sign32 (n : Bool) (x : Nat) : (BitVec.ofBool n ++ BitVec.ofNat 31 x : Word).getLsbD 31 = n := by
  rw [BitVec.getLsbD_append]; cases n <;> simp

theorem fp64_quietNan64 (x : BitVec 52) : fp64 (quietNan64 x) = .nan := by
  have he : ((quietNan64 x).extractLsb' 52 11).toNat = 2047 := by
    have : (quietNan64 x).extractLsb' 52 11 = 0x7FF#11 := by
      ext i hi
      simp only [quietNan64, BitVec.getElem_extractLsb', BitVec.getLsbD_append]
      interval_cases i <;> simp
    rw [this]; rfl
  have hf : ((quietNan64 x).extractLsb' 0 52).toNat ≠ 0 := by
    intro h0
    have h1 : ((quietNan64 x).extractLsb' 0 52).getLsbD 51 = true := by
      rw [BitVec.getLsbD_extractLsb', quietNan64, BitVec.getLsbD_append, BitVec.getLsbD_append]
      simp
    rw [BitVec.eq_of_toNat_eq (y := 0#52) h0] at h1
    simp at h1
  simp only [fp64, he, if_true, hf, if_false]

theorem fp32to64_quietNan32 (x : BitVec 23) : fp32to64 (quietNan32 x) = .nan := by
  have he : ((quietNan32 x).extractLsb' 23 8).toNat = 255 := by
    have : (quietNan32 x).extractLsb' 23 8 = 0xFF#8 := by
      ext i hi
      simp only [quietNan32, BitVec.getElem_extractLsb', BitVec.getLsbD_append]
      interval_cases i <;> simp
    rw [this]; rfl
  have hf : ((quietNan32 x).extractLsb' 0 23).toNat ≠ 0 := by
    intro h0
    have h1 : ((quietNan32 x).extractLsb' 0 23).getLsbD 22 = true := by
      rw [BitVec.getLsbD_extractLsb', quietNan32, BitVec.getLsbD_append, BitVec.getLsbD_append]
      simp
    rw [BitVec.eq_of_toNat_eq (y := 0#23) h0] at h1
    simp at h1
  simp only [fp32to64, he, if_true, hf, if_false]

/-- A binary64 value is read back from its pattern. -/
theorem fp64_bits64 (draw : Nat) {x : Fp} (h : representable x = true) : fp64 (bits64 draw x) = x := by
  cases x with
  | nan => exact fp64_quietNan64 _
  | inf n => simp only [bits64]; cases n <;> decide
  | fin n u =>
    simp only [representable, Bool.and_eq_true, decide_eq_true_eq, beq_iff_eq] at h
    obtain ⟨hlt, hmod⟩ := h
    unfold overflowUnits64 at hlt
    have hd : dropBits 53 u = u.log2 - 52 := by unfold dropBits; omega
    rw [hd] at hmod
    have hB := magnitudeBits_lt (frac := 52) (e := 2046) hlt (by norm_num)
    have h63 : magnitudeBits 52 u < 2 ^ 63 := lt_of_lt_of_le hB (by norm_num)
    have he : magnitudeBits 52 u / 2 ^ 52 ≠ 2047 := by
      have : magnitudeBits 52 u / 2 ^ 52 < 2047 := by
        rw [Nat.div_lt_iff_lt_mul (by norm_num)]; exact lt_of_lt_of_le hB (by norm_num)
      omega
    simp only [fp64, bits64, exp64_toNat n h63, frac64_toNat n h63, sign64, if_neg he]
    rw [magnitudeUnits_magnitudeBits hmod]

theorem unitsPer32_pos : 0 < unitsPer32 := by unfold unitsPer32; positivity

theorem oneUnits_pos : 0 < oneUnits := by unfold oneUnits; positivity

theorem overflowUnits64_pos : 0 < overflowUnits64 := by unfold overflowUnits64; positivity

/-- A value rounded to binary32 is read back from its pattern. -/
theorem fp32to64_bits32_rn32 (draw : Nat) (x : Fp) : fp32to64 (bits32 draw (rn32 x)) = rn32 x := by
  cases x with
  | nan => exact fp32to64_quietNan32 _
  | inf n => simp only [rn32, bits32]; cases n <;> decide
  | fin n u =>
    simp only [rn32]
    split_ifs with hlt
    · unfold overflowUnits32 at hlt
      have hmod := roundRatio_mod 24 u unitsPer32 (by norm_num)
      generalize roundRatio 24 u unitsPer32 = v at *
      have hd : dropBits 24 v = v.log2 - 23 := by unfold dropBits; omega
      rw [hd] at hmod
      have hB := magnitudeBits_lt (frac := 23) (e := 254) hlt (by norm_num)
      have h31 : magnitudeBits 23 v < 2 ^ 31 := lt_of_lt_of_le hB (by norm_num)
      have he : magnitudeBits 23 v / 2 ^ 23 ≠ 255 := by
        have : magnitudeBits 23 v / 2 ^ 23 < 255 := by
          rw [Nat.div_lt_iff_lt_mul (by norm_num)]; exact lt_of_lt_of_le hB (by norm_num)
        omega
      simp only [fp32to64, bits32, Nat.mul_div_cancel _ unitsPer32_pos, exp32_toNat n h31, frac32_toNat n h31,
        sign32, if_neg he]
      rw [magnitudeUnits_magnitudeBits hmod]
    · simp only [bits32]; cases n <;> decide

/-! ## Every operation gives a binary64 value -/

theorem representable_fin_zero (n : Bool) : representable (.fin n 0) = true := by
  simp [representable, overflowUnits64_pos]

theorem faddFin_representable (n : Bool) (u : Nat) (m : Bool) (v : Nat) :
    representable (faddFin n u m v) = true := by
  unfold faddFin
  split_ifs <;> first | exact ofRatio_representable .. | exact representable_fin_zero _

theorem fadd_representable (a b : Fp) : representable (fadd a b) = true := by
  unfold fadd
  split <;> first | rfl | exact faddFin_representable .. | (split_ifs <;> rfl)

theorem fsub_representable (a b : Fp) : representable (fsub a b) = true := fadd_representable _ _

theorem fmul_representable (a b : Fp) : representable (fmul a b) = true := by
  unfold fmul
  split <;> first | rfl | exact ofRatio_representable .. | (split_ifs <;> rfl)

theorem fdiv_representable (a b : Fp) : representable (fdiv a b) = true := by
  unfold fdiv
  split <;> try split_ifs
  all_goals first | rfl | exact ofRatio_representable .. | exact representable_fin_zero _

theorem fsqrt_representable (a : Fp) : representable (fsqrt a) = true := by
  unfold fsqrt
  split <;> try split_ifs
  all_goals first | rfl | exact ofRatio_representable .. | exact representable_fin_zero _

theorem fneg_representable {a : Fp} (h : representable a = true) : representable (fneg a) = true := by
  cases a with
  | fin n u => exact h
  | nan => rfl
  | inf n => rfl

end Sys2Proof.Machine
end

