-- ==== Sys2Proof/Laws/Operands.lean ====
section
/-! SUPPORT. The laws of the typed slot accesses: what is loaded after a store, and what a store leaves alone. -/

namespace Sys2Proof.Machine

/-- A load looks at its slot only. -/
theorem ld_congr {s t : State} {b : Buf} {k : Nat} (p : Prec) (h : t.slot b k = s.slot b k) :
    t.ld b k p = s.ld b k p := by cases p <;> simp [State.ld, h]

theorem slot_congr {s t : State} (hm : t.mem = s.mem) (he : t.epoch = s.epoch) (b : Buf) (k : Nat) :
    t.slot b k = s.slot b k := by simp [State.slot, State.bytes8, hm, he]

theorem byte_congr {s t : State} (hm : t.mem = s.mem) (he : t.epoch = s.epoch) (x : Nat) :
    t.byte x = s.byte x := by simp [State.byte, hm, he]

theorem extract_setWidth (w : Word) : (w.setWidth 64 : DWord).extractLsb' 0 32 = w := by
  ext i hi
  simp [hi]
  omega

theorem st_slot_same (s : State) (b : Buf) (k : Nat) (p : Prec) (x : Fp) :
    (s.st b k p x).slot b k = storeBits p s.draws x := setSlot_slot_same ..

theorem st_slot_other (s : State) {b c : Buf} {k l : Nat} (p : Prec) (x : Fp) (hk : k < 2 ^ 24) (hl : l < 2 ^ 24)
    (h : b ≠ c ∨ k ≠ l) : (s.st b k p x).slot c l = s.slot c l := setSlot_slot_other s _ hk hl h

theorem st_byte_outside (s : State) (b : Buf) (k : Nat) (p : Prec) (v : Fp) (x : Nat)
    (hx : x < slotAddr b k ∨ slotAddr b k + 8 ≤ x) : (s.st b k p v).byte x = s.byte x :=
  setSlot_byte_outside s b k _ x hx

/-- Loading the slot just stored gives the value, rounded to the storage format. -/
theorem ld_st_same (s : State) (b : Buf) (k : Nat) (p : Prec) {x : Fp} (h : representable x = true) :
    (s.st b k p x).ld b k p = storedValue p x := by
  cases p with
  | f64 =>
    simp only [State.ld, st_slot_same]
    exact fp64_bits64 s.draws h
  | f32 =>
    simp only [State.ld, st_slot_same, storeBits, extract_setWidth, storedValue]
    exact fp32to64_bits32_rn32 s.draws x

/-- Loading another slot gives what it gave before. -/
theorem ld_st_other (s : State) {b c : Buf} {k l : Nat} (p q : Prec) (x : Fp) (hk : k < 2 ^ 24) (hl : l < 2 ^ 24)
    (h : b ≠ c ∨ k ≠ l) : (s.st b k p x).ld c l q = s.ld c l q := ld_congr q (st_slot_other s p x hk hl h)

theorem ldPair_stPair_same (s : State) {a b : Buf} {k : Nat} (p : Prec) {z : Cplx} (hab : a ≠ b) (hk : k < 2 ^ 24)
    (hre : representable z.re = true) (him : representable z.im = true) :
    (s.stPair a b k p z).ldPair a b k p = ⟨storedValue p z.re, storedValue p z.im⟩ := by
  simp only [State.ldPair, State.stPair]
  rw [ld_st_same _ _ _ _ him, ld_st_other _ _ _ _ hk hk (.inl hab.symm), ld_st_same _ _ _ _ hre]

theorem ldPair_stPair_other (s : State) {a b : Buf} {k l : Nat} (p q : Prec) (z : Cplx) (hk : k < 2 ^ 24)
    (hl : l < 2 ^ 24) (h : k ≠ l) : (s.stPair a b k p z).ldPair a b l q = s.ldPair a b l q := by
  simp only [State.ldPair, State.stPair]
  rw [ld_st_other _ _ _ _ hk hl (.inr h), ld_st_other _ _ _ _ hk hl (.inr h), ld_st_other _ _ _ _ hk hl (.inr h),
    ld_st_other _ _ _ _ hk hl (.inr h)]

theorem stPair_byte_outside (s : State) (a b : Buf) (k : Nat) (p : Prec) (z : Cplx) (x : Nat)
    (ha : x < slotAddr a k ∨ slotAddr a k + 8 ≤ x) (hb : x < slotAddr b k ∨ slotAddr b k + 8 ≤ x) :
    (s.stPair a b k p z).byte x = s.byte x := by
  rw [State.stPair, st_byte_outside _ _ _ _ _ _ hb, st_byte_outside _ _ _ _ _ _ ha]

/-- A store keeps the canonical form. -/
theorem st_memWf {s : State} (h : Memory.wf s.mem = true) (b : Buf) (k : Nat) (p : Prec) (x : Fp) :
    Memory.wf (s.st b k p x).mem = true := Memory.wf_splice h _ _

/-- A host write to a slot keeps the canonical form. -/
theorem setSlot_memWf {s : State} (h : Memory.wf s.mem = true) (b : Buf) (k : Nat) (v : DWord) :
    Memory.wf (s.setSlot b k v).mem = true := Memory.wf_splice h _ _

/-- The results of the complex operations are binary64 values. -/
theorem writeRes_result (s : State) {z : Cplx} (hre : representable z.re = true) (him : representable z.im = true) :
    fp64 (s.writeRes z).regs.resRe = z.re ∧ fp64 (s.writeRes z).regs.resIm = z.im :=
  ⟨fp64_bits64 _ hre, fp64_bits64 _ him⟩

end Sys2Proof.Machine
end

