-- ==== Sys2Proof/Laws/Loops.lean ====
section
/-! SUPPORT. The laws of the engine's loops: what Setup and the butterfly leave in the output slots, index by index,
what they leave alone, and that they keep the buffer memory's form. -/

namespace Sys2Proof.Machine

/-! ## What a loop leaves alone -/

/-- Registers, pending command, parameters and outside world are as before. -/
structure RegFrame (s t : State) : Prop where
  regs : t.regs = s.regs
  pending : t.pending = s.pending
  epoch : t.epoch = s.epoch
  inst : t.inst = s.inst
  world : t.world = s.world

theorem RegFrame.refl (s) : RegFrame s s := ⟨rfl, rfl, rfl, rfl, rfl⟩

theorem RegFrame.trans {s t u} (h : RegFrame s t) (g : RegFrame t u) : RegFrame s u :=
  ⟨g.regs.trans h.regs, g.pending.trans h.pending, g.epoch.trans h.epoch, g.inst.trans h.inst,
      g.world.trans h.world⟩

theorem RegFrame.foldl {α} {f : State → α → State} (h : ∀ s a, RegFrame s (f s a)) (l : List α) (s : State) :
    RegFrame s (l.foldl f s) := by
  induction l generalizing s with
  | nil => exact .refl _
  | cons a l ih => exact (h s a).trans (ih _)

theorem setup_regs (n p s) : RegFrame s (setup n p s) := by
  refine RegFrame.trans (t := { s with hidden := { s.hidden with scale := scaleOf n } })
    ⟨rfl, rfl, rfl, rfl, rfl⟩ (RegFrame.foldl (fun s i => ?_) _ _)
  constructor <;> simp [setupPoint]

theorem butterfly_regs (a b n p s) : RegFrame s (butterfly a b n p s) := by
  refine RegFrame.trans (t := { s with hidden := { s.hidden with stride := 1 } })
    ⟨rfl, rfl, rfl, rfl, rfl⟩ (RegFrame.foldl (fun s st => ?_) _ _)
  refine RegFrame.trans (u := bflyStage a b n p s st) (t := (blockOffsets n st).foldl (bflyBlock a b p)
    { s with hidden := { s.hidden with stride := st, wm := twiddleStep st } }) ?_ ⟨rfl, rfl, rfl, rfl, rfl⟩
  refine RegFrame.trans (t := { s with hidden := { s.hidden with stride := st, wm := twiddleStep st } })
    ⟨rfl, rfl, rfl, rfl, rfl⟩ (RegFrame.foldl (fun s i => ?_) _ _)
  refine RegFrame.trans (t := { s with hidden := { s.hidden with i := i, j := 0, w := ⟨fpOne, fpZero⟩ } })
    ⟨rfl, rfl, rfl, rfl, rfl⟩ (RegFrame.foldl (fun s j => ?_) _ _)
  constructor <;> simp [bflyPoint]

theorem RegFrame.completed {s t : State} (h : RegFrame s t) : Completed s t.complete :=
  complete_spec _ _ h.epoch h.inst h.world (by rw [h.regs])

/-- Beside OUT slots 0 to n - 1 and the internal registers, all is as before. -/
structure LoopFrame (n : Nat) (s t : State) : Prop where
  regs : t.regs = s.regs
  pending : t.pending = s.pending
  epoch : t.epoch = s.epoch
  inst : t.inst = s.inst
  world : t.world = s.world
  mem : OnlyOutBelow n s t

theorem LoopFrame.refl (n s) : LoopFrame n s s := ⟨rfl, rfl, rfl, rfl, rfl, fun _ _ => rfl⟩

theorem LoopFrame.trans {n s t u} (h : LoopFrame n s t) (g : LoopFrame n t u) : LoopFrame n s u :=
  ⟨g.regs.trans h.regs, g.pending.trans h.pending, g.epoch.trans h.epoch, g.inst.trans h.inst,
      g.world.trans h.world,
   fun x hx => (g.mem x hx).trans (h.mem x hx)⟩

theorem hidden_ldPair (s : State) (h : Hidden) (a b k p) :
    ({ s with hidden := h } : State).ldPair a b k p = s.ldPair a b k p := rfl

theorem hidden_frame (n) (s : State) (h : Hidden) :
    LoopFrame n s { s with hidden := h } := ⟨rfl, rfl, rfl, rfl, rfl, fun _ _ => rfl⟩

/-! ## Setup -/

theorem log2N_pow (k : Nat) : log2N (2 ^ k) = k := Nat.log2_two_pow

/-- One round of Setup, all it does. -/
theorem setupPoint_spec (p : Prec) (b : Nat) (s : State) (i : Nat) (hr : bitrev i b < 2 ^ 24) :
    let t := setupPoint p b s i
    let z : Cplx := ⟨fmul (s.ld .inRe i p) s.hidden.scale, fmul (s.ld .inIm i p) s.hidden.scale⟩
    i < 2 ^ 24 →
    t.regs = s.regs ∧ t.pending = s.pending ∧ t.hidden = s.hidden ∧ t.epoch = s.epoch ∧ t.inst = s.inst ∧
        t.world = s.world ∧
    t.ldPair .outRe .outIm (bitrev i b) p = storedPair p z ∧
    (∀ l < 2 ^ 24, l ≠ bitrev i b → t.ldPair .outRe .outIm l p = s.ldPair .outRe .outIm l p) ∧
    (∀ l < 2 ^ 24, t.ldPair .inRe .inIm l p = s.ldPair .inRe .inIm l p) ∧
    (∀ x, (∀ b', b' = .outRe ∨ b' = .outIm → x < slotAddr b' (bitrev i b) ∨ slotAddr b' (bitrev i b) + 8 ≤ x) →
        t.byte x = s.byte x) := by
  intro t z hi
  have ht : t = s.stPair .outRe .outIm (bitrev i b) p z := by
    simp only [t, setupPoint, State.stPair, z]
    rw [st_hidden, ld_st_other _ _ _ _ hr hi (.inl (by decide))]
  rw [ht]
  refine ⟨by simp, by simp, by simp, by simp, by simp, by simp, ?_, ?_, ?_, ?_⟩
  · exact ldPair_stPair_same _ _ (by decide) hr (fmul_representable _ _) (fmul_representable _ _)
  · intro l hl hne
    exact ldPair_stPair_other _ _ _ _ hr hl (Ne.symm hne)
  · intro l hl
    simp only [State.ldPair, State.stPair]
    rw [ld_st_other _ _ _ _ hr hl (.inl (by decide)), ld_st_other _ _ _ _ hr hl (.inl (by decide)),
      ld_st_other _ _ _ _ hr hl (.inl (by decide)), ld_st_other _ _ _ _ hr hl (.inl (by decide))]
  · intro x hx
    exact stPair_byte_outside _ _ _ _ _ _ _ (hx _ (.inl rfl)) (hx _ (.inr rfl))

/-- Setup, given that the bit reversal of the k-bit indices is its own inverse and stays among them. -/
theorem setup_spec (p : Prec) (s : State) (k n : Nat) (hk : k ≤ 24) (hnk : n = 2 ^ k)
    (hinv : ∀ l < n, bitrev (bitrev l k) k = l) (hblt : ∀ l, bitrev l k < n) :
    LoopFrame n s (setup n p s) ∧ ∀ l < n, (setup n p s).ldPair .outRe .outIm l p =
        setupValue p n (fun i => s.ldPair .inRe .inIm i p) l := by
  have hlog : log2N n = k := by rw [hnk]; exact log2N_pow k
  have hn : n ≤ 2 ^ 24 := by rw [hnk]; exact Nat.pow_le_pow_right (by norm_num) hk
  have key : ∀ m ≤ n,
      let t := (List.range m).foldl (setupPoint p k) { s with hidden := { s.hidden with scale := scaleOf n } }
      LoopFrame n s t ∧ t.hidden.scale = scaleOf n ∧
          (∀ l < 2 ^ 24, t.ldPair .inRe .inIm l p = s.ldPair .inRe .inIm l p) ∧
      ∀ l < n, bitrev l k < m → t.ldPair .outRe .outIm l p =
          setupValue p n (fun i => s.ldPair .inRe .inIm i p) l := by
    intro m
    induction m with
    | zero =>
      intro _ t
      exact ⟨hidden_frame _ _ _, rfl, fun l _ => hidden_ldPair _ _ _ _ _ _, fun l _ h => by simp at h⟩
    | succ m ih =>
      intro hm
      obtain ⟨hf, hs, hin, hout⟩ := ih (by omega)
      simp only [List.range_succ, List.foldl_append, List.foldl_cons, List.foldl_nil]
      generalize (List.range m).foldl (setupPoint p k)
          { s with hidden := { s.hidden with scale := scaleOf n } } = t at *
      obtain ⟨h1, h2, h3, h4, h5, h6, h7, h8, h9, h10⟩ := setupPoint_spec p k t m ((hblt m).trans_le hn) (by omega)
      have hrm : bitrev m k < n := hblt m
      refine ⟨hf.trans ⟨h1, h2, h4, h5, h6, fun x hx => h10 x fun b' hb' => hx _ hrm b' hb'⟩,
        by rw [h3, hs], fun l hl => by rw [h9 l hl, hin l hl], ?_⟩
      intro l hl hlm
      by_cases he : l = bitrev m k
      · subst he
        rw [h7, hs]
        simp only [setupValue]
        rw [hlog, hinv _ (by omega)]
        have := hin m (by omega)
        simp only [State.ldPair, Cplx.mk.injEq] at this
        simp only [State.ldPair, this]
      · rw [h8 l (by omega) he]
        refine hout l hl ?_
        have : bitrev l k ≠ m := by
          rintro rfl
          exact he (hinv l hl).symm
        omega
  have hset : setup n p s = (List.range n).foldl (setupPoint p k)
      { s with hidden := { s.hidden with scale := scaleOf n } } := by
    simp only [setup]; rw [hlog]
  obtain ⟨hf, -, -, ho⟩ := key n le_rfl
  rw [hset]
  exact ⟨hf, fun l hl => ho l hl (hblt l)⟩

/-! ## The butterfly -/

/-- One butterfly, all it does. -/
theorem bflyPoint_spec (a b : Buf) (p : Prec) (s : State) (j : Nat) (hab : a ≠ b)
    (hi : s.hidden.i + j + s.hidden.stride < 2 ^ 24) (hs : 0 < s.hidden.stride) :
    let t := bflyPoint a b p s j
    let idx0 := s.hidden.i + j
    let idx1 := idx0 + s.hidden.stride
    let x := s.ldPair a b idx0 p
    let q := cmul s.hidden.w (s.ldPair a b idx1 p)
    t.regs = s.regs ∧ t.pending = s.pending ∧ t.epoch = s.epoch ∧ t.inst = s.inst ∧ t.world = s.world ∧
    t.hidden.stride = s.hidden.stride ∧ t.hidden.i = s.hidden.i ∧ t.hidden.wm = s.hidden.wm ∧
        t.hidden.w = cmul s.hidden.w s.hidden.wm ∧
    t.ldPair a b idx0 p = storedPair p (cadd x q) ∧ t.ldPair a b idx1 p = storedPair p (csub x q) ∧
    (∀ l < 2 ^ 24, l ≠ idx0 → l ≠ idx1 → t.ldPair a b l p = s.ldPair a b l p) ∧
    (∀ y, (∀ l b', (l = idx0 ∨ l = idx1) → (b' = a ∨ b' = b) → y < slotAddr b' l ∨ slotAddr b' l + 8 ≤ y) →
        t.byte y = s.byte y) := by
  intro t idx0 idx1 x q
  have ht : t = { (s.stPair a b idx0 p (cadd x q)).stPair a b idx1 p (csub x q) with
      hidden := { s.hidden with j := j + 1, w := cmul s.hidden.w s.hidden.wm } } := by
    simp only [t, bflyPoint, x, q, idx0, idx1, stPair_hidden]
  have hl : ∀ l, t.ldPair a b l p =
      ((s.stPair a b idx0 p (cadd x q)).stPair a b idx1 p (csub x q)).ldPair a b l p := by
    intro l; rw [ht]; rfl
  have hb : ∀ y, t.byte y = ((s.stPair a b idx0 p (cadd x q)).stPair a b idx1 p (csub x q)).byte y := by
    intro l; rw [ht]; rfl
  have h0 : idx0 < 2 ^ 24 := by omega
  have h1 : idx1 < 2 ^ 24 := by omega
  refine ⟨by rw [ht]; simp, by rw [ht]; simp, by rw [ht]; simp, by rw [ht]; simp, by rw [ht]; simp, by rw [ht],
    by rw [ht], by rw [ht], by rw [ht], ?_, ?_, ?_, ?_⟩
  · rw [hl, ldPair_stPair_other _ _ _ _ h1 h0 (by omega)]
    exact ldPair_stPair_same _ _ hab h0 (fadd_representable _ _) (fadd_representable _ _)
  · rw [hl]
    exact ldPair_stPair_same _ _ hab h1 (fsub_representable _ _) (fsub_representable _ _)
  · intro l hl' n0 n1
    rw [hl, ldPair_stPair_other _ _ _ _ h1 hl' (Ne.symm n1), ldPair_stPair_other _ _ _ _ h0 hl' (Ne.symm n0)]
  · intro y hy
    rw [hb, stPair_byte_outside _ _ _ _ _ _ _ (hy _ _ (.inr rfl) (.inl rfl)) (hy _ _ (.inr rfl) (.inr rfl)),
      stPair_byte_outside _ _ _ _ _ _ _ (hy _ _ (.inl rfl) (.inl rfl)) (hy _ _ (.inl rfl) (.inr rfl))]

/-- The two output buffers, in either order. -/
def OutPair (a b : Buf) : Prop := (a = .outRe ∧ b = .outIm) ∨ (a = .outIm ∧ b = .outRe)

theorem OutPair.ne {a b} (h : OutPair a b) : a ≠ b := by rcases h with ⟨rfl, rfl⟩ | ⟨rfl, rfl⟩ <;> decide

theorem OutPair.out {a b b'} (h : OutPair a b) (hb : b' = a ∨ b' = b) : b' = .outRe ∨ b' = .outIm := by
  rcases h with ⟨rfl, rfl⟩ | ⟨rfl, rfl⟩ <;> tauto

/-- One block, all it does. -/
theorem bflyBlock_spec (a b : Buf) (p : Prec) (s : State) (i n : Nat) (hab : OutPair a b) (hn : n ≤ 2 ^ 24)
    (hs : 0 < s.hidden.stride) (hin : i + 2 * s.hidden.stride ≤ n)
        (hwm : s.hidden.wm = twiddleStep s.hidden.stride) :
    let t := bflyBlock a b p s i
    let x := fun k => s.ldPair a b k p
    let st := s.hidden.stride
    LoopFrame n s t ∧ t.hidden.stride = st ∧ t.hidden.wm = s.hidden.wm ∧
    (∀ j < st, t.ldPair a b (i + j) p = storedPair p (cadd (x (i + j))
        (cmul (runningTwiddle st j) (x (i + j + st)))) ∧
       t.ldPair a b (i + j + st) p = storedPair p (csub (x (i + j))
           (cmul (runningTwiddle st j) (x (i + j + st))))) ∧
    ∀ l < 2 ^ 24, (l < i ∨ i + 2 * st ≤ l) → t.ldPair a b l p = x l := by
  intro t x st
  have key : ∀ m ≤ st,
      let t := (List.range m).foldl (bflyPoint a b p)
        { s with hidden := { s.hidden with i := i, j := 0, w := ⟨fpOne, fpZero⟩ } }
      LoopFrame n s t ∧ t.hidden.stride = st ∧ t.hidden.wm = s.hidden.wm ∧ t.hidden.i = i ∧
          t.hidden.w = runningTwiddle st m ∧
      (∀ j < m, t.ldPair a b (i + j) p = storedPair p (cadd (x (i + j))
          (cmul (runningTwiddle st j) (x (i + j + st)))) ∧
       t.ldPair a b (i + j + st) p = storedPair p (csub (x (i + j))
           (cmul (runningTwiddle st j) (x (i + j + st))))) ∧
      ∀ l < 2 ^ 24, (∀ j < m, l ≠ i + j ∧ l ≠ i + j + st) → t.ldPair a b l p = x l := by
    intro m
    induction m with
    | zero =>
      intro _ t
      exact ⟨hidden_frame _ _ _, rfl, rfl, rfl, rfl, fun j h => by omega, fun _ _ _ => hidden_ldPair _ _ _ _ _ _⟩
    | succ m ih =>
      intro hm
      obtain ⟨hf, h1, h2, h3, h4, h5, h6⟩ := ih (by omega)
      simp only [List.range_succ, List.foldl_append, List.foldl_cons, List.foldl_nil]
      generalize (List.range m).foldl (bflyPoint a b p)
          { s with hidden := { s.hidden with i := i, j := 0, w := ⟨fpOne, fpZero⟩ } } = t at *
      have hst : s.hidden.stride = st := rfl
      obtain ⟨g1, g2, g3, g4, g5, g6, g7, g8, g9, g10, g11, g12, g13⟩ :=
          bflyPoint_spec a b p t m hab.ne (by rw [h3, h1]; omega) (by rw [h1]; omega)
      simp only [h3, h1] at *
      have hx0 : t.ldPair a b (i + m) p = x (i + m) := h6 _ (by omega) fun j hj => by omega
      have hx1 : t.ldPair a b (i + m + st) p = x (i + m + st) := h6 _ (by omega) fun j hj => by omega
      rw [hx0, hx1, h4] at g10 g11
      refine ⟨hf.trans ⟨g1, g2, g3, g4, g5, fun y hy => g13 y fun l b' hl hb' =>
        hy l (by omega) b' (hab.out hb')⟩, g6, by rw [g8, h2], g7, ?_, ?_, ?_⟩
      · rw [g9, h4, h2, hwm]; rfl
      · intro j hj
        by_cases he : j = m
        · subst he; exact ⟨g10, g11⟩
        · obtain ⟨e1, e2⟩ := h5 j (by omega)
          exact ⟨by rw [g12 _ (by omega) (by omega) (by omega), e1],
            by rw [g12 _ (by omega) (by omega) (by omega), e2]⟩
      · intro l hl hne
        rw [g12 l hl (hne m (by omega)).1 (hne m (by omega)).2]
        exact h6 l hl fun j hj => hne j (by omega)
  obtain ⟨hf, h1, h2, -, -, h5, h6⟩ := key st le_rfl
  exact ⟨hf, h1, h2, h5, fun l hl h => h6 l hl fun j hj => by omega⟩

/-- One stage, all it does. -/
theorem bflyStage_spec (a b : Buf) (p : Prec) (s : State) (k e n st : Nat) (hab : OutPair a b) (hk : k ≤ 24)
    (he : e < k) (hnk : n = 2 ^ k) (hst : st = 2 ^ e) :
    LoopFrame n s (bflyStage a b n p s st) ∧ ∀ l < n,
        (bflyStage a b n p s st).ldPair a b l p = stageValue p st (fun l => s.ldPair a b l p) l := by
  have hstp : 0 < st := hst ▸ Nat.two_pow_pos e
  have hn : n ≤ 2 ^ 24 := by rw [hnk]; exact Nat.pow_le_pow_right (by norm_num) hk
  have hdvd : n / (2 * st) * (2 * st) = n := by
    apply Nat.div_mul_cancel
    rw [hst, hnk, ← pow_succ']
    exact pow_dvd_pow 2 (by omega)
  set s0 : State := { s with hidden := { s.hidden with stride := st, wm := twiddleStep st } } with hs0
  set x := fun l => s.ldPair a b l p with hx
  have key : ∀ m ≤ n / (2 * st), let t := ((List.range m).map (· * (2 * st))).foldl (bflyBlock a b p) s0
      LoopFrame n s t ∧ t.hidden.stride = st ∧ t.hidden.wm = twiddleStep st ∧
      (∀ l < m * (2 * st), t.ldPair a b l p = stageValue p st x l) ∧
      ∀ l < 2 ^ 24, m * (2 * st) ≤ l → t.ldPair a b l p = x l := by
    intro m
    induction m with
    | zero =>
      intro _ t
      exact ⟨hidden_frame _ _ _, rfl, rfl, fun j h => by omega, fun _ _ _ => hidden_ldPair _ _ _ _ _ _⟩
    | succ m ih =>
      intro hm
      obtain ⟨hf, h1, h2, h3, h4⟩ := ih (by omega)
      simp only [List.range_succ, List.map_append, List.map_cons, List.map_nil, List.foldl_append,
        List.foldl_cons, List.foldl_nil]
      generalize ((List.range m).map (· * (2 * st))).foldl (bflyBlock a b p) s0 = t at *
      have hb : (m + 1) * (2 * st) ≤ n := by
        rw [← hdvd]; exact Nat.mul_le_mul_right _ hm
      rw [add_mul, one_mul] at hb
      obtain ⟨g1, g2, g3, g4, g5⟩ := bflyBlock_spec a b p t (m * (2 * st)) n hab hn (by rw [h1]; exact hstp)
          (by rw [h1]; exact hb) (by rw [h1, h2])
      simp only [h1] at g1 g2 g3 g4 g5
      refine ⟨hf.trans g1, g2, by rw [g3, h2], ?_, ?_⟩
      · intro l hl
        rw [add_mul, one_mul] at hl
        by_cases hlt : l < m * (2 * st)
        · rw [g5 l (by omega) (.inl hlt), h3 l hlt]
        · obtain ⟨r, rfl⟩ : ∃ r, l = m * (2 * st) + r := ⟨l - m * (2 * st), by omega⟩
          have hr : r < 2 * st := by omega
          have hq : (m * (2 * st) + r) / (2 * st) = m := by
            rw [mul_comm, Nat.mul_add_div (by omega), Nat.div_eq_of_lt hr, add_zero]
          have hmod : (m * (2 * st) + r) % (2 * st) = r := by
            rw [mul_comm, Nat.mul_add_mod, Nat.mod_eq_of_lt hr]
          have hms : (m * (2 * st) + r) % st = r % st := by
            rw [show m * (2 * st) = st * (2 * m) by ring, Nat.mul_add_mod]
          have hxe : ∀ l < 2 ^ 24, m * (2 * st) ≤ l → t.ldPair a b l p = x l := h4
          simp only [stageValue, hq, hmod, hms]
          by_cases hrs : r < st
          · rw [if_pos hrs, Nat.mod_eq_of_lt hrs, (g4 r hrs).1, hxe _ (by omega) (by omega),
              hxe _ (by omega) (by omega)]
          · obtain ⟨j, rfl⟩ : ∃ j, r = j + st := ⟨r - st, by omega⟩
            have hj : j < st := by omega
            rw [if_neg hrs, Nat.add_mod_right, Nat.mod_eq_of_lt hj, ← add_assoc, (g4 j hj).2,
              hxe _ (by omega) (by omega), hxe _ (by omega) (by omega)]
      · intro l hl hle
        rw [add_mul, one_mul] at hle
        rw [g5 l hl (.inr hle), h4 l hl (by omega)]
  obtain ⟨hf, -, -, h3, -⟩ := key (n / (2 * st)) le_rfl
  exact ⟨hf.trans (hidden_frame _ _ _), fun l hl => (hidden_ldPair _ _ _ _ _ _).trans (h3 l (by rw [hdvd]; exact hl))⟩

/-- All stages. -/
theorem butterfly_spec (a b : Buf) (p : Prec) (s : State) (k n : Nat) (hab : OutPair a b) (hk : k ≤ 24)
    (hnk : n = 2 ^ k) :
    LoopFrame n s (butterfly a b n p s) ∧ ∀ l < n,
        (butterfly a b n p s).ldPair a b l p = butterflyValue p n (fun l => s.ldPair a b l p) l := by
  have hstr : strides n = (List.range k).map (2 ^ ·) := by rw [strides, hnk, log2N_pow]
  have key : ∀ m ≤ k,
      let t := ((List.range m).map (2 ^ ·)).foldl (bflyStage a b n p) { s with hidden := { s.hidden with stride := 1 } }
      LoopFrame n s t ∧ ∀ l < n, t.ldPair a b l p =
          (((List.range m).map (2 ^ ·)).foldl (fun x st => stageValue p st x) (fun l => s.ldPair a b l p)) l := by
    intro m
    induction m with
    | zero => intro _ t; exact ⟨hidden_frame _ _ _, fun _ _ => rfl⟩
    | succ m ih =>
      intro hm
      obtain ⟨hf, h⟩ := ih (by omega)
      simp only [List.range_succ, List.map_append, List.map_cons, List.map_nil, List.foldl_append,
        List.foldl_cons, List.foldl_nil]
      generalize ((List.range m).map (2 ^ ·)).foldl (bflyStage a b n p)
          { s with hidden := { s.hidden with stride := 1 } } = t at *
      generalize ((List.range m).map (2 ^ ·)).foldl (fun x st => stageValue p st x)
          (fun l => s.ldPair a b l p) = y at *
      obtain ⟨g1, g2⟩ := bflyStage_spec a b p t k m n (2 ^ m) hab hk (by omega) hnk rfl
      refine ⟨hf.trans g1, fun l hl => ?_⟩
      rw [g2 l hl]
      -- congruence: stageValue reads only indices < n
      have hd : (2 * 2 ^ m) ∣ n := by rw [hnk, ← pow_succ']; exact pow_dvd_pow 2 (by omega)
      have hP : 0 < 2 ^ m := Nat.two_pow_pos m
      have hq : l / (2 * 2 ^ m) * (2 * 2 ^ m) + 2 * 2 ^ m ≤ n := by
        obtain ⟨c, hc⟩ := hd
        have : l / (2 * 2 ^ m) < c := by rw [Nat.div_lt_iff_lt_mul (by omega), mul_comm, ← hc]; exact hl
        calc _ = (l / (2 * 2 ^ m) + 1) * (2 * 2 ^ m) := by ring
          _ ≤ c * (2 * 2 ^ m) := Nat.mul_le_mul_right _ this
          _ = n := by rw [hc, mul_comm]
      have hj : l % 2 ^ m < 2 ^ m := Nat.mod_lt _ hP
      simp only [stageValue]
      rw [h _ (by omega), h _ (by omega)]
  obtain ⟨hf, h⟩ := key k le_rfl
  refine ⟨by simp only [butterfly]; rw [hstr]; exact hf, fun l hl => ?_⟩
  simp only [butterfly, butterflyValue]
  rw [hstr]; exact h l hl

/-- The butterfly looks at the indices below its length only. -/
theorem butterflyValue_congr (p : Prec) (k : Nat) {x y : Nat → Cplx} (h : ∀ l < 2 ^ k, x l = y l) :
    ∀ l < 2 ^ k, butterflyValue p (2 ^ k) x l = butterflyValue p (2 ^ k) y l := by
  unfold butterflyValue
  rw [strides, log2N_pow]
  have key : ∀ m ≤ k, ∀ l < 2 ^ k, (((List.range m).map (2 ^ ·)).foldl (fun x st => stageValue p st x) x) l =
      (((List.range m).map (2 ^ ·)).foldl (fun x st => stageValue p st x) y) l := by
    intro m
    induction m with
    | zero => intro _; simpa using h
    | succ m ih =>
      intro hm l hl
      have h := ih (by omega)
      simp only [List.range_succ, List.map_append, List.map_cons, List.map_nil, List.foldl_append,
        List.foldl_cons, List.foldl_nil]
      have hd : (2 * 2 ^ m) ∣ 2 ^ k := by rw [← pow_succ']; exact pow_dvd_pow 2 (by omega)
      have hP : 0 < 2 ^ m := Nat.two_pow_pos m
      have hq : l / (2 * 2 ^ m) * (2 * 2 ^ m) + 2 * 2 ^ m ≤ 2 ^ k := by
        obtain ⟨c, hc⟩ := hd
        have : l / (2 * 2 ^ m) < c := by rw [Nat.div_lt_iff_lt_mul (by omega), mul_comm, ← hc]; exact hl
        calc _ = (l / (2 * 2 ^ m) + 1) * (2 * 2 ^ m) := by ring
          _ ≤ c * (2 * 2 ^ m) := Nat.mul_le_mul_right _ this
          _ = 2 ^ k := by rw [hc, mul_comm]
      have hj : l % 2 ^ m < 2 ^ m := Nat.mod_lt _ hP
      simp only [stageValue]
      rw [h _ (by omega), h _ (by omega)]
  exact key k le_rfl

theorem rolePair (r : Role) : OutPair (roleA r) (roleB r) := by cases r <;> simp [OutPair, roleA, roleB]

/-! ## Completion leaves the memory -/

theorem complete_slot (s : State) (b k) : s.complete.slot b k = s.slot b k := slot_congr (by simp) (by simp) _ _

theorem complete_ld (s : State) (b k p) : s.complete.ld b k p = s.ld b k p := ld_congr _ (complete_slot _ _ _)

theorem complete_ldPair (s : State) (a b k p) : s.complete.ldPair a b k p = s.ldPair a b k p := by
  simp [State.ldPair, complete_ld]

theorem complete_byte (s : State) (x) : s.complete.byte x = s.byte x := byte_congr (by simp) (by simp) _

theorem foldl_with {α} (g : State → State) {f : State → α → State} (h : ∀ s a, f (g s) a = g (f s a))
    (l : List α) (s : State) : l.foldl f (g s) = g (l.foldl f s) := by
  induction l generalizing s with
  | nil => rfl
  | cons a l ih => simp only [List.foldl_cons]; rw [h, ih]

/-- The butterfly neither reads nor writes the registers and the pending command. -/
theorem butterfly_with (a b n p) (s : State) (r : Regs) (q : Option Instr) :
    butterfly a b n p { s with regs := r, pending := q } =
        { butterfly a b n p s with regs := r, pending := q } := by
  let g : State → State := fun s => { s with regs := r, pending := q }
  have h1 : ∀ s j, bflyPoint a b p (g s) j = g (bflyPoint a b p s j) := fun s j => rfl
  have h2 : ∀ s i, bflyBlock a b p (g s) i = g (bflyBlock a b p s i) := fun s i =>
    foldl_with g h1 _ { s with hidden := { s.hidden with i := i, j := 0, w := ⟨fpOne, fpZero⟩ } }
  have h3 : ∀ s st, bflyStage a b n p (g s) st = g (bflyStage a b n p s st) := fun s st =>
    congrArg (fun t : State => { t with hidden := { t.hidden with stride := 2 * st } })
      (foldl_with g h2 _ { s with hidden := { s.hidden with stride := st, wm := twiddleStep st } })
  exact foldl_with g h3 _ { s with hidden := { s.hidden with stride := 1 } }

/-! ## The form of the memory -/

/-- The memory is in canonical form and lists bytes of buffer slots only. -/
structure MemInv (s : State) : Prop where
  wf : Memory.wf s.mem = true
  mapped : ∀ c ∈ s.mem, inSlot s.inst c.1

theorem st_memInv {s : State} (h : MemInv s) (b : Buf) (k : Nat) (p : Prec) (x : Fp) (hk : k < s.inst.slots) :
    MemInv (s.st b k p x) := by
  refine ⟨Memory.wf_splice h.wf _ _, fun c hc => ?_⟩
  rcases Memory.mem_splice hc with hc | hc
  · exact h.mapped c hc
  · rw [bytesOf_length] at hc; exact ⟨b, k, hk, hc⟩

theorem stPair_memInv {s : State} (h : MemInv s) (a b : Buf) (k : Nat) (p : Prec) (x : Cplx)
    (hk : k < s.inst.slots) : MemInv (s.stPair a b k p x) :=
  st_memInv (st_memInv h _ _ _ _ hk) _ _ _ _ hk

theorem foldl_inv {α} {P : State → Prop} {f : State → α → State} (l : List α)
    (h : ∀ s, P s → ∀ a ∈ l, P (f s a)) (s : State) (hs : P s) : P (l.foldl f s) := by
  induction l generalizing s with
  | nil => exact hs
  | cons a l ih => exact ih (fun s hs b hb => h s hs b (by simp [hb])) _ (h s hs a (by simp))

theorem setup_memInv {s : State} (h : MemInv s) (p : Prec) (k n : Nat) (hnk : n = 2 ^ k)
    (hblt : ∀ l, bitrev l k < n) (hn : n ≤ s.inst.slots) : MemInv (setup n p s) := by
  have := foldl_inv (P := fun t => MemInv t ∧ t.inst = s.inst) (f := setupPoint p (log2N n)) (List.range n)
      (fun t ht i hi => ?_) { s with hidden := { s.hidden with scale := scaleOf n } } ⟨⟨h.wf, h.mapped⟩, rfl⟩
  · exact this.1
  · have hb : bitrev i (log2N n) < t.inst.slots := by
      rw [ht.2, hnk, log2N_pow]; exact (hblt i).trans_le hn
    exact ⟨st_memInv (st_memInv ht.1 _ _ _ _ hb) _ _ _ _ hb, by simp [setupPoint, ht.2]⟩

theorem butterfly_memInv {s : State} (h : MemInv s) (a b : Buf) (p : Prec) (k n : Nat) (hnk : n = 2 ^ k)
    (hn : n ≤ s.inst.slots) : MemInv (butterfly a b n p s) := by
  have := foldl_inv (P := fun t => MemInv t ∧ t.inst = s.inst) (f := bflyStage a b n p) (strides n)
      (fun t ht st hst => ?_) { s with hidden := { s.hidden with stride := 1 } } ⟨⟨h.wf, h.mapped⟩, rfl⟩
  · exact this.1
  have := foldl_inv (P := fun t => MemInv t ∧ t.inst = s.inst ∧ t.hidden.stride = st) (f := bflyBlock a b p)
      (blockOffsets n st) (fun u hu i hi => ?_)
      { t with hidden := { t.hidden with stride := st, wm := twiddleStep st } } ⟨⟨ht.1.wf, ht.1.mapped⟩, ht.2, rfl⟩
  · exact ⟨⟨this.1.wf, this.1.mapped⟩, this.2.1⟩
  have hin : i + 2 * st ≤ n := by
    simp only [blockOffsets, List.mem_map, List.mem_range] at hi
    obtain ⟨m, hm, rfl⟩ := hi
    calc m * (2 * st) + 2 * st = (m + 1) * (2 * st) := by ring
      _ ≤ n / (2 * st) * (2 * st) := Nat.mul_le_mul_right _ hm
      _ ≤ n := Nat.div_mul_le_self _ _
  have := foldl_inv (P := fun t => MemInv t ∧ t.inst = s.inst ∧ t.hidden.stride = st ∧ t.hidden.i = i)
      (f := bflyPoint a b p) (List.range u.hidden.stride) (fun v hv j hj => ?_)
     { u with hidden := { u.hidden with i := i, j := 0, w := ⟨fpOne, fpZero⟩ } } ⟨⟨hu.1.wf, hu.1.mapped⟩,
         hu.2.1, hu.2.2, rfl⟩
  · exact ⟨this.1, this.2.1, this.2.2.1⟩
  obtain ⟨v1, v2, v3, v4⟩ := hv
  rw [List.mem_range, hu.2.2] at hj
  have h1 : v.hidden.i + j < v.inst.slots := by rw [v2, v4]; omega
  have h2 : v.hidden.i + j + v.hidden.stride < v.inst.slots := by rw [v2, v3, v4]; omega
  have := stPair_memInv (stPair_memInv v1 a b _ p (cadd (v.ldPair a b (v.hidden.i + j) p)
      (cmul v.hidden.w (v.ldPair a b (v.hidden.i + j + v.hidden.stride) p))) h1) a b _ p
      (csub (v.ldPair a b (v.hidden.i + j) p)
        (cmul v.hidden.w (v.ldPair a b (v.hidden.i + j + v.hidden.stride) p))) (by simpa using h2)
  refine ⟨⟨this.wf, this.mapped⟩, ?_, ?_, ?_⟩
  · simp [bflyPoint, v2]
  · simp [bflyPoint, v3]
  · simp [bflyPoint, v4]

/-! ## The upper halves of the output slots with PREC = 0 -/

/-- Bits 63:32 of output slot pair `l` are 0. -/
def OutHighZero (s : State) (l : Nat) : Prop :=
  (s.slot .outRe l).extractLsb' 32 32 = 0#32 ∧ (s.slot .outIm l).extractLsb' 32 32 = 0#32

theorem storeBits_f32_high (draw : Nat) (x : Fp) : (storeBits .f32 draw x).extractLsb' 32 32 = 0#32 := by
  ext i hi
  simp [storeBits]

theorem stPair_outHighZero_same {a b : Buf} (hab : OutPair a b) (s : State) {k : Nat} (hk : k < 2 ^ 24) (z : Cplx) :
    OutHighZero (s.stPair a b k .f32 z) k := by
  rcases hab with ⟨rfl, rfl⟩ | ⟨rfl, rfl⟩ <;> constructor <;>
    simp only [State.stPair, st_slot_same, storeBits_f32_high] <;>
    rw [st_slot_other _ _ _ hk hk (.inl (by decide)), st_slot_same, storeBits_f32_high]

/-- A store with PREC = 0 keeps the upper halves that are 0. -/
theorem stPair_outHighZero {a b : Buf} (hab : OutPair a b) {s : State} {k l : Nat} (hk : k < 2 ^ 24) (hl : l < 2 ^ 24)
    (h : OutHighZero s l) (z : Cplx) : OutHighZero (s.stPair a b k .f32 z) l := by
  by_cases e : k = l
  · exact e ▸ stPair_outHighZero_same hab s hk z
  · unfold OutHighZero State.stPair
    rwa [st_slot_other _ _ _ hk hl (.inr e), st_slot_other _ _ _ hk hl (.inr e), st_slot_other _ _ _ hk hl (.inr e),
      st_slot_other _ _ _ hk hl (.inr e)]

/-- What one round of a loop attains and every round keeps holds after the loop. -/
theorem foldl_attains {α} {P Q : State → Prop} {f : State → α → State} {l : List α} {a : α} (ha : a ∈ l)
    (hP : ∀ s, P s → ∀ b ∈ l, P (f s b)) (hat : ∀ s, P s → Q (f s a)) (hkeep : ∀ s, P s → Q s → ∀ b ∈ l, Q (f s b))
    (s : State) (hs : P s) : Q (l.foldl f s) := by
  induction l generalizing s with
  | nil => cases ha
  | cons b l ih =>
    rcases List.mem_cons.mp ha with rfl | ha
    · exact (foldl_inv (P := fun t => P t ∧ Q t) l
        (fun t ht c hc => ⟨hP t ht.1 c (by simp [hc]), hkeep t ht.1 ht.2 c (by simp [hc])⟩) _
        ⟨hP s hs _ (by simp), hat s hs⟩).2
    · exact ih ha (fun t ht c hc => hP t ht c (by simp [hc])) (fun t ht hq c hc => hkeep t ht hq c (by simp [hc])) _
        (hP s hs b (by simp))

/-- Setup with PREC = 0 leaves bits 63:32 of every output slot below its length 0. -/
theorem setup_outHighZero (s : State) (k n : Nat) (hk : k ≤ 24) (hnk : n = 2 ^ k)
    (hinv : ∀ l < n, bitrev (bitrev l k) k = l) (hblt : ∀ l, bitrev l k < n) :
    OutHighHalvesZero n (setup n .f32 s) := by
  intro l hl
  have hn : n ≤ 2 ^ 24 := by rw [hnk]; exact Nat.pow_le_pow_right (by norm_num) hk
  have hlog : log2N n = k := by rw [hnk]; exact log2N_pow k
  unfold setup
  rw [hlog]
  refine foldl_attains (P := fun _ => True) (Q := fun t => OutHighZero t l) (a := bitrev l k)
    (List.mem_range.mpr (hblt l)) (fun _ _ _ _ => trivial) (fun t _ => ?_) (fun t _ hq b _ => ?_) _ trivial
  · conv => rhs; rw [← hinv l hl]
    exact stPair_outHighZero_same (.inl ⟨rfl, rfl⟩) t ((hblt _).trans_le hn) ⟨_, _⟩
  · exact stPair_outHighZero (.inl ⟨rfl, rfl⟩) ((hblt b).trans_le hn) (hl.trans_le hn) hq ⟨_, _⟩

/-- One butterfly with PREC = 0 keeps the upper halves that are 0, and leaves those of its two slot pairs 0. -/
theorem bflyPoint_outHighZero {a b : Buf} (hab : OutPair a b) (s : State) (j l : Nat) (hl : l < 2 ^ 24)
    (hj : s.hidden.i + j + s.hidden.stride < 2 ^ 24)
    (h : OutHighZero s l ∨ l = s.hidden.i + j ∨ l = s.hidden.i + j + s.hidden.stride) :
    OutHighZero (bflyPoint a b .f32 s j) l := by
  have key : ∀ z z', bflyPoint a b .f32 s j = { (s.stPair a b (s.hidden.i + j) .f32 z).stPair a b
      (s.hidden.i + j + s.hidden.stride) .f32 z' with hidden := (bflyPoint a b .f32 s j).hidden } →
      OutHighZero (bflyPoint a b .f32 s j) l := by
    intro z z' hz
    suffices g : OutHighZero ((s.stPair a b (s.hidden.i + j) .f32 z).stPair a b
        (s.hidden.i + j + s.hidden.stride) .f32 z') l by rw [hz]; exact g
    rcases h with h | rfl | rfl
    · exact stPair_outHighZero hab hj hl (stPair_outHighZero hab (by omega) hl h z) z'
    · exact stPair_outHighZero hab hj hl (stPair_outHighZero_same hab s hl z) z'
    · exact stPair_outHighZero_same hab _ hj z'
  exact key (cadd (s.ldPair a b (s.hidden.i + j) .f32)
      (cmul s.hidden.w (s.ldPair a b (s.hidden.i + j + s.hidden.stride) .f32)))
    (csub (s.ldPair a b (s.hidden.i + j) .f32)
      (cmul s.hidden.w (s.ldPair a b (s.hidden.i + j + s.hidden.stride) .f32))) rfl

/-- One block with PREC = 0 keeps the upper halves that are 0, and leaves those of its own slots 0. -/
theorem bflyBlock_outHighZero {a b : Buf} (hab : OutPair a b) (s : State) (i l : Nat) (hs : 0 < s.hidden.stride)
    (hin : i + 2 * s.hidden.stride ≤ 2 ^ 24) (hl : l < 2 ^ 24)
    (h : OutHighZero s l ∨ i ≤ l ∧ l < i + 2 * s.hidden.stride) : OutHighZero (bflyBlock a b .f32 s i) l := by
  generalize hst : s.hidden.stride = st at *
  let P : State → Prop := fun t => t.hidden.i = i ∧ t.hidden.stride = st
  have hP : ∀ t, P t → ∀ j ∈ List.range st, P (bflyPoint a b .f32 t j) := fun t ht j _ => by
    simpa [P, bflyPoint] using ht
  have hkeep : ∀ t, P t → OutHighZero t l → ∀ j ∈ List.range st, OutHighZero (bflyPoint a b .f32 t j) l := by
    rintro t ⟨h1, h2⟩ hq j hj
    rw [List.mem_range] at hj
    exact bflyPoint_outHighZero hab t j l hl (by omega) (.inl hq)
  unfold bflyBlock
  rw [hst]
  rcases h with h | ⟨h1, h2⟩
  · exact (foldl_inv (P := fun t => P t ∧ OutHighZero t l) (f := bflyPoint a b .f32) (List.range st)
      (fun t ht j hj => ⟨hP t ht.1 j hj, hkeep t ht.1 ht.2 j hj⟩)
      { s with hidden := { s.hidden with i := i, j := 0, w := ⟨fpOne, fpZero⟩ } } ⟨⟨rfl, hst⟩, h⟩).2
  · refine foldl_attains (P := P) (Q := fun t => OutHighZero t l) (f := bflyPoint a b .f32) (a := (l - i) % st)
      (List.mem_range.mpr (Nat.mod_lt _ hs)) hP ?_ hkeep _ ⟨rfl, hst⟩
    rintro t ⟨g1, g2⟩
    refine bflyPoint_outHighZero hab t _ l hl (by have := Nat.mod_lt (l - i) hs; omega) (.inr ?_)
    rw [g1, g2]
    by_cases hlo : l - i < st
    · rw [Nat.mod_eq_of_lt hlo]; omega
    · rw [Nat.mod_eq_sub_mod (by omega), Nat.mod_eq_of_lt (by omega)]; omega

theorem bflyBlock_stride (a b p) (s : State) (i) : (bflyBlock a b p s i).hidden.stride = s.hidden.stride :=
  foldl_inv (P := fun t => t.hidden.stride = s.hidden.stride) _ (fun t ht j _ => by simpa [bflyPoint] using ht) _ rfl

/-- One stage with PREC = 0 leaves the upper half of every output slot below its length 0. -/
theorem bflyStage_outHighZero {a b : Buf} (hab : OutPair a b) (s : State) (n st : Nat) (hn : n ≤ 2 ^ 24)
    (hst : 0 < st) (hdvd : 2 * st ∣ n) : OutHighHalvesZero n (bflyStage a b n .f32 s st) := by
  intro l hl
  have hin : ∀ i ∈ blockOffsets n st, i + 2 * st ≤ n := by
    intro i hi
    simp only [blockOffsets, List.mem_map, List.mem_range] at hi
    obtain ⟨m, hm, rfl⟩ := hi
    calc m * (2 * st) + 2 * st = (m + 1) * (2 * st) := by ring
      _ ≤ n / (2 * st) * (2 * st) := Nat.mul_le_mul_right _ hm
      _ ≤ n := Nat.div_mul_le_self _ _
  have hmem : l / (2 * st) * (2 * st) ∈ blockOffsets n st := by
    simp only [blockOffsets, List.mem_map, List.mem_range]
    exact ⟨_, Nat.div_lt_div_of_lt_of_dvd hdvd hl, rfl⟩
  have hlow := Nat.div_mul_le_self l (2 * st)
  have hhigh := Nat.lt_div_mul_add (a := l) (b := 2 * st) (by omega)
  exact foldl_attains (P := fun t => t.hidden.stride = st) (Q := fun t => OutHighZero t l) (f := bflyBlock a b .f32) hmem
    (fun t ht i _ => (bflyBlock_stride ..).trans ht)
    (fun t ht => bflyBlock_outHighZero hab t _ l (by omega) (by have := hin _ hmem; omega) (by omega)
      (.inr ⟨hlow, by rw [ht]; exact hhigh⟩))
    (fun t ht hq i hi => bflyBlock_outHighZero hab t i l (by omega) (by have := hin i hi; omega) (by omega) (.inl hq))
    { s with hidden := { s.hidden with stride := st, wm := twiddleStep st } } rfl

/-- The butterfly with PREC = 0 leaves the upper half of every output slot below its length 0, where it runs a stage
or they were 0 before. -/
theorem butterfly_outHighZero {a b : Buf} (hab : OutPair a b) (s : State) (k n : Nat) (hk : k ≤ 24) (hnk : n = 2 ^ k)
    (h : 1 < n ∨ OutHighHalvesZero n s) : OutHighHalvesZero n (butterfly a b n .f32 s) := by
  have hn : n ≤ 2 ^ 24 := by rw [hnk]; exact Nat.pow_le_pow_right (by norm_num) hk
  have hstage : ∀ t, ∀ st ∈ strides n, OutHighHalvesZero n (bflyStage a b n .f32 t st) := by
    intro t st hst
    rw [strides, hnk, log2N_pow] at hst
    obtain ⟨e, he, rfl⟩ := List.mem_map.mp hst
    refine bflyStage_outHighZero hab t n _ hn (Nat.two_pow_pos e) ?_
    rw [hnk, ← pow_succ']
    exact pow_dvd_pow 2 (by have := List.mem_range.mp he; omega)
  rcases h with h | h
  · have hmem : 2 ^ 0 ∈ strides n := by
      rw [strides, hnk, log2N_pow]
      refine List.mem_map.mpr ⟨0, List.mem_range.mpr ?_, rfl⟩
      rcases Nat.eq_zero_or_pos k with rfl | hk
      · rw [hnk] at h; simp at h
      · exact hk
    exact foldl_attains (P := fun _ => True) (Q := OutHighHalvesZero n) hmem (fun _ _ _ _ => trivial)
      (fun t _ => hstage t _ hmem) (fun t _ _ st hst => hstage t st hst) _ trivial
  · exact foldl_inv _ (fun t _ st hst => hstage t st hst) _ h

theorem complete_outHighHalvesZero {n : Nat} {s : State} (h : OutHighHalvesZero n s) :
    OutHighHalvesZero n s.complete := fun k hk => by
  rw [complete_slot, complete_slot]; exact h k hk

end Sys2Proof.Machine
end

