-- ==== Sys2Proof/Laws/PerInstr.lean ====
section
/-! SUPPORT. Statements about every command, constructor by constructor. -/

namespace Sys2Proof.Laws.FieldsWellFormed

/-- Every operand value of a command gives field values that are a command (30_encoding.md R56, R58): PREC and ROLE
are zero where the opcode does not use them, and the reserved bits are zero. -/
def Statement (i : Instr) : Prop := i.wellFormed = true

theorem nop : Statement .nop := rfl

theorem fwd (p : Prec) : Statement (.fwd p) := by cases p <;> rfl

theorem inv (p : Prec) : Statement (.inv p) := by cases p <;> rfl

theorem setup (p : Prec) : Statement (.setup p) := by cases p <;> rfl

theorem bfly (p : Prec) (r : Role) : Statement (.bfly p r) := by cases p <;> cases r <;> rfl

theorem bitrev : Statement .bitrev := rfl

theorem cadd : Statement .cadd := rfl

theorem csub : Statement .csub := rfl

theorem cmul : Statement .cmul := rfl

theorem cmag : Statement .cmag := rfl

theorem uroot : Statement .uroot := rfl

end Sys2Proof.Laws.FieldsWellFormed
end

