-- ==== Sys2Proof/Laws/Rounding.lean ====
section
/-! SUPPORT. The laws of correct rounding: the model's rounding of a ratio of natural numbers and of a square root is the
nearest number of the precision, and values between two that round alike round as they do. -/

namespace Sys2Proof.Machine

/-! ## Rounding to the nearest -/

/-- A multiple of the last place within half of it, an even one at exactly half, is the rounding. -/
theorem isRounding_of_grid {prec : ℕ} (hp : 2 ≤ prec) {y : ℝ} {q a : ℕ} (h1 : (q : ℝ) ≤ y) (h2 : y < q + 1)
    (hle : |y - (a * 2 ^ dropBits prec q : ℕ)| ≤ 2 ^ dropBits prec q / 2)
    (heq : |y - (a * 2 ^ dropBits prec q : ℕ)| = 2 ^ dropBits prec q / 2 → a % 2 = 0) :
    IsRounding prec y (a * 2 ^ dropBits prec q) := by
  set d := dropBits prec q with hd
  have hP : (0 : ℝ) < 2 ^ d := by positivity
  push_cast at hle heq
  have hle' := abs_le.mp hle
  -- bounds on a
  have hub : y < 2 ^ prec * 2 ^ d := by
    have : q < 2 ^ (prec + d) := by
      rcases Nat.eq_zero_or_pos d with h0 | hpos
      · have := lt_of_dropBits_zero (hd ▸ h0); rwa [h0, add_zero]
      · exact (bounds_of_dropBits_pos (hd ▸ hpos) (by omega)).2
    have : ((q + 1 : ℕ) : ℝ) ≤ ((2 ^ (prec + d) : ℕ) : ℝ) := by exact_mod_cast this
    push_cast at this; rw [pow_add] at this; linarith
  have ha2 : a ≤ 2 ^ prec := by
    have : (a : ℝ) < ((2 ^ prec + 1 : ℕ) : ℝ) := by
      push_cast
      have : (a : ℝ) * 2 ^ d < (2 ^ prec + 1) * 2 ^ d := by nlinarith [hle'.1]
      exact lt_of_mul_lt_mul_right this hP.le
    have := Nat.cast_lt.mp this; omega
  have hlb : 0 < d → (2 : ℝ) ^ (prec - 1) * 2 ^ d ≤ y := by
    intro hpos
    have := (bounds_of_dropBits_pos (hd ▸ hpos) (by omega)).1
    have : ((2 ^ (prec - 1 + d) : ℕ) : ℝ) ≤ q := by exact_mod_cast this
    push_cast at this; rw [pow_add] at this; linarith
  have ha1 : 0 < d → 2 ^ (prec - 1) ≤ a := by
    intro hpos
    have h := hlb hpos
    have : ((2 ^ (prec - 1) : ℕ) : ℝ) < ((a + 1 : ℕ) : ℝ) := by
      push_cast
      have : (2 : ℝ) ^ (prec - 1) * 2 ^ d < (a + 1) * 2 ^ d := by nlinarith [hle'.2]
      exact lt_of_mul_lt_mul_right this hP.le
    have := Nat.cast_lt.mp this; omega
  have hev : (2 ^ (prec - 1)) % 2 = 0 := by
    obtain ⟨j, hj⟩ : ∃ j, prec - 1 = j + 1 := ⟨prec - 2, by omega⟩
    rw [hj, pow_succ]; omega
  -- the dropped bits of the result
  have hdrop : a < 2 ^ prec ∧ dropBits prec (a * 2 ^ d) = d ∨ a = 2 ^ prec ∧ dropBits prec (a * 2 ^ d) = d + 1 := by
    rcases Nat.lt_or_ge a (2 ^ prec) with h | h
    · left
      refine ⟨h, ?_⟩
      rcases Nat.eq_zero_or_pos d with h0 | hpos
      · rw [h0]; simpa using dropBits_eq_zero (by omega) h
      · refine dropBits_eq (by omega) ?_ ?_
        · rw [pow_add]; exact Nat.mul_le_mul_right _ (ha1 hpos)
        · rw [pow_add]; exact Nat.mul_lt_mul_of_pos_right h (Nat.two_pow_pos _)
    · right
      have he : a = 2 ^ prec := by omega
      refine ⟨he, ?_⟩
      rw [he, ← pow_add]
      exact dropBits_eq (by omega) (Nat.pow_le_pow_right (by norm_num) (by omega))
        (Nat.pow_lt_pow_right (by norm_num) (by omega))
  have hfit : fitsIn prec (a * 2 ^ d) := by
    unfold fitsIn
    rcases hdrop with ⟨-, h⟩ | ⟨he, h⟩ <;> rw [h]
    · exact Nat.mul_mod_left _ _
    · rw [he, ← pow_add, show prec + d = (prec - 1) + (d + 1) by omega, pow_add]; exact Nat.mul_mod_left _ _
  have heven : |y - ((a * 2 ^ d : ℕ) : ℝ)| = 2 ^ d / 2 → a * 2 ^ d / 2 ^ dropBits prec (a * 2 ^ d) % 2 = 0 := by
    intro h
    push_cast at h
    rcases hdrop with ⟨-, hh⟩ | ⟨he, hh⟩ <;> rw [hh]
    · rw [Nat.mul_div_cancel _ (Nat.two_pow_pos _)]; exact heq h
    · rw [he, ← pow_add, show prec + d = (prec - 1) + (d + 1) by omega, pow_add,
        Nat.mul_div_cancel _ (Nat.two_pow_pos _)]; exact hev
  -- against a multiple of the step
  have hgrid : ∀ b : ℕ, |y - ((a * 2 ^ d : ℕ) : ℝ)| ≤ |y - ((b * 2 ^ d : ℕ) : ℝ)| ∧
      (|y - ((a * 2 ^ d : ℕ) : ℝ)| = |y - ((b * 2 ^ d : ℕ) : ℝ)| → a ≠ b →
          |y - ((a * 2 ^ d : ℕ) : ℝ)| = 2 ^ d / 2) := by
    intro b
    push_cast
    by_cases hab : a = b
    · subst hab; exact ⟨le_rfl, fun _ h => absurd rfl h⟩
    have hfar : (2 : ℝ) ^ d ≤ |(a : ℝ) * 2 ^ d - b * 2 ^ d| := by
      have : (1 : ℝ) ≤ |(a : ℝ) - b| := by
        have : (1 : ℤ) ≤ |(a : ℤ) - b| := Int.one_le_abs (by omega)
        exact_mod_cast this
      rw [← sub_mul, abs_mul, abs_of_pos hP]; nlinarith
    have htri : |(a : ℝ) * 2 ^ d - b * 2 ^ d| ≤ |y - a * 2 ^ d| + |y - b * 2 ^ d| := by
      rw [abs_sub_comm y]; 
      calc _ = |((a : ℝ) * 2 ^ d - y) + (y - b * 2 ^ d)| := by ring_nf
        _ ≤ _ := abs_add_le _ _
    constructor
    · linarith
    · intro h _; linarith
  refine ⟨hfit, fun m' hm' => ?_⟩
  by_cases hmul : 2 ^ d ∣ m'
  · obtain ⟨b, rfl⟩ := hmul
    rw [mul_comm (2 ^ d) b]
    obtain ⟨g1, g2⟩ := hgrid b
    exact ⟨g1, fun h hne => heven (g2 h (fun h => hne (by rw [h])))⟩
  · -- below the least number of this size
    have hpos : 0 < d := by
      rcases Nat.eq_zero_or_pos d with h0 | h; · rw [h0] at hmul; simp at hmul
      · exact h
    have hlt : m' < 2 ^ (prec - 1) * 2 ^ d := by
      by_contra hge
      push Not at hge
      apply hmul
      have : d ≤ dropBits prec m' := by
        have : 2 ^ (prec - 1 + d) ≤ m' := by rw [pow_add]; exact hge
        have := (Nat.le_log2 (by have := Nat.two_pow_pos (prec - 1 + d); omega)).mpr this
        unfold dropBits; omega
      exact (pow_dvd_pow 2 this).trans (Nat.dvd_of_mod_eq_zero hm')
    have hlt' : (m' : ℝ) < ((2 ^ (prec - 1) * 2 ^ d : ℕ) : ℝ) := by exact_mod_cast hlt
    obtain ⟨g1, -⟩ := hgrid (2 ^ (prec - 1))
    have hl := hlb hpos
    have e1 : |y - ((2 ^ (prec - 1) * 2 ^ d : ℕ) : ℝ)| = y - ((2 ^ (prec - 1) * 2 ^ d : ℕ) : ℝ) :=
        abs_of_nonneg (by push_cast; linarith)
    have e2 : y - m' ≤ |y - (m' : ℝ)| := le_abs_self _
    have : |y - ((a * 2 ^ d : ℕ) : ℝ)| < |y - (m' : ℝ)| := by linarith
    exact ⟨this.le, fun h => absurd h this.ne⟩

theorem rneDiv_near (num : ℕ) {den : ℕ} (h : 0 < den) :
    |(num : ℝ) / den - rneDiv num den| ≤ 1 / 2 ∧ (|(num : ℝ) / den - rneDiv num den| = 1 / 2 →
        rneDiv num den % 2 = 0) := by
  have hd : (0 : ℝ) < den := by exact_mod_cast h
  have hm := Nat.div_add_mod num den
  have hr := Nat.mod_lt num h
  have hy : (num : ℝ) / den = (num / den : ℕ) + ((num % den : ℕ) : ℝ) / den := by
    have : (num : ℝ) = den * (num / den : ℕ) + (num % den : ℕ) := by exact_mod_cast hm.symm
    rw [eq_comm, ← sub_eq_zero]; field_simp; linarith
  rw [hy, rneDiv]
  generalize num / den = q at *
  generalize num % den = r at *
  have hr0 : (0 : ℝ) ≤ (r : ℝ) / den := by positivity
  have hlt : ∀ {x y : ℕ}, x < y → (x : ℝ) < y := fun h => by exact_mod_cast h
  have hc : ∀ t : ℝ, (r : ℝ) / den < t ↔ (r : ℝ) < t * den := fun t => div_lt_iff₀ hd
  have hc' : ∀ t : ℝ, t < (r : ℝ) / den ↔ t * den < r := fun t => lt_div_iff₀ hd
  have h1 : (r : ℝ) / den < 1 := by rw [hc]; have := hlt hr; linarith
  split_ifs with g1 g2 g3
  · have g := hlt g1; push_cast at g
    have : (r : ℝ) / den < 1 / 2 := by rw [hc]; linarith
    rw [add_sub_cancel_left, abs_of_nonneg hr0]
    exact ⟨this.le, fun h => absurd h this.ne⟩
  · have g := hlt g2; push_cast at g
    have : 1 / 2 < (r : ℝ) / den := by rw [hc']; linarith
    push_cast
    rw [show (q : ℝ) + r / den - (q + 1) = -(1 - r / den) by ring, abs_neg, abs_of_nonneg (by linarith)]
    exact ⟨by linarith, fun h => by linarith⟩
  · have : (r : ℝ) / den = 1 / 2 := by
      have : (2 * r : ℕ) = (den : ℝ) := by exact_mod_cast (by omega : 2 * r = den)
      push_cast at this
      rw [div_eq_iff hd.ne']; linarith
    rw [this, add_sub_cancel_left]
    exact ⟨by rw [abs_of_nonneg (by norm_num)], fun _ => g3⟩
  · have : (r : ℝ) / den = 1 / 2 := by
      have : (2 * r : ℕ) = (den : ℝ) := by exact_mod_cast (by omega : 2 * r = den)
      push_cast at this
      rw [div_eq_iff hd.ne']; linarith
    rw [this]
    push_cast
    rw [show (q : ℝ) + 1 / 2 - (q + 1) = -(1 / 2) by ring, abs_neg]
    exact ⟨by rw [abs_of_nonneg (by norm_num)], fun _ => by omega⟩

theorem near_scaled {y D a : ℝ} (hD : 0 < D) (h : |y / D - a| ≤ 1 / 2) :
    |y - a * D| ≤ D / 2 ∧ (|y - a * D| = D / 2 → |y / D - a| = 1 / 2) := by
  have : y - a * D = (y / D - a) * D := by field_simp
  rw [this, abs_mul, abs_of_pos hD]
  constructor
  · nlinarith
  · intro h'; nlinarith

/-- A ratio is rounded to the nearest number of the precision, ties to even. -/
theorem roundRatio_isRounding {prec : ℕ} (hp : 2 ≤ prec) (num : ℕ) {den : ℕ} (hden : 0 < den) :
    IsRounding prec ((num : ℝ) / den) (roundRatio prec num den) := by
  have hd : (0 : ℝ) < den := by exact_mod_cast hden
  have h2 : (num : ℝ) / den < (num / den : ℕ) + 1 := by
    rw [div_lt_iff₀ hd]
    exact_mod_cast (by rw [mul_comm]; exact Nat.lt_mul_div_succ num hden : num < (num / den + 1) * den)
  obtain ⟨n1, n2⟩ := rneDiv_near num (den := den * 2 ^ dropBits prec (num / den)) (by positivity)
  push_cast at n1 n2
  rw [← div_div] at n1 n2
  obtain ⟨m1, m2⟩ := near_scaled (by positivity) n1
  refine isRounding_of_grid hp Nat.cast_div_le h2 ?_ ?_
  · push_cast; exact m1
  · push_cast; exact fun h => n2 (m2 h)

/-- What lies between two values that round alike rounds as they do. -/
theorem IsRounding.convex {prec m : ℕ} {y1 y y2 : ℝ} (h1 : IsRounding prec y1 m) (h2 : IsRounding prec y2 m)
    (l1 : y1 ≤ y) (l2 : y ≤ y2) :
    IsRounding prec y m := by
  refine ⟨h1.1, fun m' hm' => ?_⟩
  obtain ⟨a1, b1⟩ := h1.2 m' hm'
  obtain ⟨a2, b2⟩ := h2.2 m' hm'
  rcases lt_trichotomy m m' with hlt | rfl | hlt
  · have hlt' : (m : ℝ) < m' := by exact_mod_cast hlt
    have hmid : y2 ≤ (m + m') / 2 := by
      by_contra hc; push Not at hc
      have : |y2 - m'| < |y2 - m| := by
        rw [abs_lt]; have := le_abs_self (y2 - m); constructor <;> linarith
      linarith
    have e : |y - m'| = m' - y := by rw [abs_sub_comm, abs_of_nonneg (by linarith)]
    constructor
    · rw [e, abs_le]; constructor <;> linarith
    · intro h hne
      rw [e] at h
      have : y = (m + m') / 2 := by
        rcases abs_cases (y - (m : ℝ)) with ⟨h', _⟩ | ⟨h', _⟩ <;> rw [h'] at h <;> linarith
      have hy : y2 = y := by linarith
      rw [hy] at b2
      exact b2 (by rw [e, h]) hne
  · exact ⟨le_rfl, fun _ h => absurd rfl h⟩
  · have hlt' : (m' : ℝ) < m := by exact_mod_cast hlt
    have hmid : (m + m') / 2 ≤ y1 := by
      by_contra hc; push Not at hc
      have : |y1 - m'| < |y1 - m| := by
        rw [abs_lt]; have := neg_abs_le (y1 - m); constructor <;> linarith
      linarith
    have e : |y - m'| = y - m' := by rw [abs_of_nonneg (by linarith)]
    constructor
    · rw [e, abs_le]; constructor <;> linarith
    · intro h hne
      rw [e] at h
      have : y = (m + m') / 2 := by
        rcases abs_cases (y - (m : ℝ)) with ⟨h', _⟩ | ⟨h', _⟩ <;> rw [h'] at h <;> linarith
      have hy : y1 = y := by linarith
      rw [hy] at b1
      exact b1 (by rw [e, h]) hne

/-- A value whose rounding reaches a power of two is not below half of it. -/
theorem isRounding_ge {prec m K : ℕ} {y : ℝ} (hp : 0 < prec) (h : IsRounding prec y m) (hm : 2 ^ (K + 1) ≤ m) :
    (2 : ℝ) ^ K ≤ y := by
  by_contra hc; push Not at hc
  have hfit : fitsIn prec (2 ^ K) := by
    unfold fitsIn dropBits
    rw [Nat.log2_two_pow]
    rw [show K = (K + 1 - prec) + (K - (K + 1 - prec)) by omega, pow_add]
    have : K + 1 - prec + (K - (K + 1 - prec)) + 1 - prec = K + 1 - prec := by omega
    rw [this]; exact Nat.mul_mod_right _ _
  obtain ⟨h1, -⟩ := h.2 _ hfit
  have hmR : ((2 ^ (K + 1) : ℕ) : ℝ) ≤ m := by exact_mod_cast hm
  push_cast at hmR h1
  rw [pow_succ] at hmR
  have hP : (0 : ℝ) < 2 ^ K := by positivity
  have e1 : |y - m| = m - y := by rw [abs_sub_comm, abs_of_nonneg (by linarith)]
  have e2 : |y - 2 ^ K| = 2 ^ K - y := by rw [abs_sub_comm, abs_of_nonneg (by linarith)]
  rw [e1, e2] at h1; linarith

/-- A number of the precision is its own rounding. -/
theorem roundRatio_exact {prec v den : ℕ} (hd : 0 < den) (hv : v % 2 ^ dropBits prec v = 0) :
    roundRatio prec (v * den) den = v := by
  unfold roundRatio
  rw [Nat.mul_div_cancel _ hd]
  obtain ⟨a, ha⟩ := Nat.dvd_of_mod_eq_zero hv
  generalize dropBits prec v = d at *
  rw [show v * den = a * (den * 2 ^ d) by rw [ha]; ring, rneDiv_exact _ (by positivity), ha]; ring

/-! ## Results of operations -/

theorem oneUnits_posR : (0 : ℝ) < oneUnits := by exact_mod_cast oneUnits_pos

theorem oneUnits_real : (oneUnits : ℝ) = 2 ^ 1074 := by
  unfold oneUnits; exact Nat.cast_pow 2 1074

theorem roundsTo_ofRatio {x : ℝ} (n : Bool) (num : ℕ) {den : ℕ} (hden : 0 < den)
    (hx : |x| * oneUnits = num / den) (h1 : x < 0 → n = true) (h2 : 0 < x → n = false) :
    RoundsTo x (ofRatio n num den) :=
  ⟨n, roundRatio 53 num den, hx ▸ roundRatio_isRounding (by norm_num) num hden, rfl, h1, h2⟩

theorem roundsTo_zero (n : Bool) : RoundsTo 0 (.fin n 0) := by
  have := roundsTo_ofRatio (x := 0) n 0 (den := 1) one_pos (by simp) (by simp) (by simp)
  have e : ofRatio n 0 1 = .fin n 0 := by
    unfold ofRatio
    have : roundRatio 53 0 1 = 0 := by decide
    rw [this, if_pos overflowUnits64_pos]
  rwa [e] at this

/-- The sign as a factor. -/
def sgn (n : Bool) : ℝ := if n then -1 else 1

theorem fpReal_fin (n u) : fpReal (.fin n u) = sgn n * (u / oneUnits) := rfl

theorem fneg_real (m v) : fpReal (fneg (.fin m v)) = - fpReal (.fin m v) := by
  cases m <;> simp [fneg, fpReal]

theorem signed_rounds (n : Bool) {x : ℝ} (hx : 0 ≤ x) (num : ℕ) {den : ℕ} (hden : 0 < den)
    (he : x * oneUnits = num / den) : RoundsTo (sgn n * x) (ofRatio n num den) := by
  refine roundsTo_ofRatio n _ hden ?_ ?_ ?_
  · rw [abs_mul, abs_of_nonneg hx]
    have : |sgn n| = 1 := by cases n <;> simp [sgn]
    rw [this, one_mul, he]
  · intro h; cases n; · exfalso; simp [sgn] at h; linarith
    rfl
  · intro h; cases n; · rfl
    exfalso; simp [sgn] at h; linarith

theorem sgn_xor (n m : Bool) : sgn (n ^^ m) = sgn n * sgn m := by cases n <;> cases m <;> simp [sgn]

theorem RoundsTo.neg {x : ℝ} {r : Fp} (h : RoundsTo x r) : RoundsTo (-x) (fneg r) := by
  obtain ⟨n, m, h1, h2, h3, h4⟩ := h
  refine ⟨!n, m, by rwa [abs_neg], ?_, fun h => ?_, fun h => ?_⟩
  · rw [h2]; split_ifs <;> rfl
  · rw [h4 (by linarith)]; rfl
  · rw [h3 (by linarith)]; rfl

/-! ## The square root -/

theorem isqrtFrom_spec (x k r : ℕ) (h1 : r * r ≤ x) (h2 : x < (r + 2 ^ k) * (r + 2 ^ k)) :
    isqrtFrom x k r * isqrtFrom x k r ≤ x ∧ x < (isqrtFrom x k r + 1) * (isqrtFrom x k r + 1) := by
  induction k generalizing r with
  | zero => simpa [isqrtFrom] using ⟨h1, h2⟩
  | succ k ih =>
    rw [isqrtFrom]
    split_ifs with h
    · refine ih _ h ?_
      rw [add_assoc, ← two_mul, ← pow_succ']; exact h2
    · exact ih _ h1 (by omega)

/-- The integer square root. -/
theorem isqrt_spec (x : ℕ) : isqrt x * isqrt x ≤ x ∧ x < (isqrt x + 1) * (isqrt x + 1) := by
  refine isqrtFrom_spec x _ 0 (by simp) ?_
  rw [zero_add, ← pow_add]
  rcases Nat.eq_zero_or_pos x with rfl | h
  · positivity
  · exact (log2_bounds (by omega)).2.trans_le (Nat.pow_le_pow_right (by norm_num) (by omega))

/-- The rounding of the square root of a number of at least 1074 bits. -/
theorem sqrt_round {x : ℕ} (hx : 2 ^ 1074 ≤ x) : IsRounding 53 (Real.sqrt x) (roundRatio 53 (sqrtSticky x) 2) := by
  set h := sqrtDrop x with hh
  have hl : 1074 ≤ x.log2 := (Nat.le_log2 (by have := Nat.two_pow_pos 1074; omega)).mpr hx
  have hx0 : x ≠ 0 := by rintro rfl; simp at hl
  have hb := log2_bounds hx0
  have hhe : h = (x.log2 - 128) / 2 := rfl
  set X := x / 4 ^ h with hX
  set r := isqrt X with hr
  obtain ⟨r1, r2⟩ := isqrt_spec X
  rw [← hr] at r1 r2
  have h4 : (4 : ℕ) ^ h = 2 ^ (2 * h) := by rw [pow_mul]; norm_num
  have hXlo : 2 ^ 128 ≤ X := by
    rw [hX, Nat.le_div_iff_mul_le (by positivity), h4, ← pow_add]
    exact le_trans (Nat.pow_le_pow_right (by norm_num) (by omega)) hb.1
  have hXhi : X < 2 ^ 130 := by
    rw [hX, Nat.div_lt_iff_lt_mul (by positivity), h4, ← pow_add]
    exact lt_of_lt_of_le hb.2 (Nat.pow_le_pow_right (by norm_num) (by omega))
  have hrlo : 2 ^ 64 ≤ r := by
    by_contra hc; push Not at hc
    have : (r + 1) * (r + 1) ≤ 2 ^ 64 * 2 ^ 64 := Nat.mul_le_mul hc hc
    rw [← pow_add] at this; omega
  have hrhi : r < 2 ^ 65 := by
    by_contra hc; push Not at hc
    have : 2 ^ 65 * 2 ^ 65 ≤ r * r := Nat.mul_le_mul hc hc
    rw [← pow_add] at this; omega
  have hlow : r * r * 4 ^ h ≤ x := by
    calc r * r * 4 ^ h ≤ X * 4 ^ h := Nat.mul_le_mul_right _ r1
      _ ≤ x := Nat.div_mul_le_self _ _
  have hhigh : x < (r + 1) * (r + 1) * 4 ^ h := by
    have : x < (X + 1) * 4 ^ h := by rw [mul_comm]; exact Nat.lt_mul_div_succ x (by positivity)
    exact lt_of_lt_of_le this (Nat.mul_le_mul_right _ r2)
  have hP : (0 : ℝ) < 2 ^ h := by positivity
  have h4R : (4 : ℝ) ^ h = 2 ^ h * 2 ^ h := by rw [← mul_pow]; norm_num
  by_cases hex : r * r * 4 ^ h = x
  · -- exact
    have hs : sqrtSticky x = 2 * r * 2 ^ h := by simp only [sqrtSticky, ← hh, ← hX, ← hr]; rw [if_pos hex]
    have hq : Real.sqrt x = (sqrtSticky x : ℕ) / (2 : ℕ) := by
      rw [hs, ← hex]; push_cast
      rw [h4R, show (r : ℝ) * r * (2 ^ h * 2 ^ h) =
        (r * 2 ^ h) * (r * 2 ^ h) by ring, Real.sqrt_mul_self (by positivity)]; ring
    rw [hq]; exact roundRatio_isRounding (by norm_num) _ (by norm_num)
  · have hs : sqrtSticky x = (2 * r + 1) * 2 ^ h := by simp only [sqrtSticky, ← hh, ← hX, ← hr]; rw [if_neg hex]
    have hlowR : (r : ℝ) * 2 ^ h < Real.sqrt x := by
      apply Real.lt_sqrt_of_sq_lt
      have : ((r * r * 4 ^ h : ℕ) : ℝ) < x := by exact_mod_cast lt_of_le_of_ne hlow hex
      push_cast at this; rw [h4R] at this
      calc ((r : ℝ) * 2 ^ h) ^ 2 = r * r * (2 ^ h * 2 ^ h) := by ring
        _ < x := this
    have hhighR : Real.sqrt x < (r + 1) * 2 ^ h := by
      rw [Real.sqrt_lt' (by positivity)]
      have : (x : ℝ) < (((r + 1) * (r + 1) * 4 ^ h : ℕ) : ℝ) := by exact_mod_cast hhigh
      push_cast at this; rw [h4R] at this
      calc (x : ℝ) < (r + 1) * (r + 1) * (2 ^ h * 2 ^ h) := this
        _ = ((r + 1) * 2 ^ h) ^ 2 := by ring
    -- same floor size
    set q := sqrtSticky x / 2 with hq
    have hqe : q = r * 2 ^ h + 2 ^ (h - 1) := by
      rw [hq, hs]
      obtain ⟨k, hk⟩ : ∃ k, h = k + 1 := ⟨h - 1, by omega⟩
      rw [hk, Nat.add_sub_cancel, pow_succ]
      rw [show (2 * r + 1) * (2 ^ k * 2) = (r * (2 ^ k * 2) + 2 ^ k) * 2 by ring,
        Nat.mul_div_cancel _ (by norm_num)]
    have hhp : 2 ^ (h - 1) < 2 ^ h := Nat.pow_lt_pow_right (by norm_num) (by omega)
    have hqlog : q.log2 = 64 + h := by
      apply log2_eq_of_bounds
      · rw [pow_add]; calc _ ≤ r * 2 ^ h := Nat.mul_le_mul_right _ hrlo
          _ ≤ q := by rw [hqe]; exact Nat.le_add_right _ _
      · rw [show 64 + h + 1 = 65 + h by omega, pow_add]
        calc q < (r + 1) * 2 ^ h := by rw [add_mul, one_mul]; omega
          _ ≤ _ := Nat.mul_le_mul_right _ hrhi
    set Q := ⌊Real.sqrt x⌋₊ with hQ
    have hQ1 : (Q : ℝ) ≤ Real.sqrt x := Nat.floor_le (Real.sqrt_nonneg _)
    have hQ2 : Real.sqrt x < Q + 1 := Nat.lt_floor_add_one _
    have hQlog : Q.log2 = 64 + h := by
      apply log2_eq_of_bounds
      · rw [pow_add]; refine le_trans (Nat.mul_le_mul_right _ hrlo) ?_
        exact Nat.le_floor (by push_cast; exact hlowR.le)
      · rw [show 64 + h + 1 = 65 + h by omega, pow_add]
        rw [Nat.floor_lt (Real.sqrt_nonneg _)]
        refine lt_of_lt_of_le hhighR ?_
        have : ((r + 1 : ℕ) : ℝ) ≤ ((2 ^ 65 : ℕ) : ℝ) := by exact_mod_cast hrhi
        push_cast at this ⊢; exact mul_le_mul_of_nonneg_right this hP.le
    have hdq : dropBits 53 q = dropBits 53 Q := by unfold dropBits; rw [hqlog, hQlog]
    have hd : dropBits 53 Q = 12 + h := by unfold dropBits; rw [hQlog]; omega
    simp only [roundRatio, ← hq]
    rw [hdq]
    obtain ⟨n1, n2⟩ := rneDiv_near (sqrtSticky x) (den := 2 * 2 ^ dropBits 53 Q) (by positivity)
    generalize rneDiv (sqrtSticky x) (2 * 2 ^ dropBits 53 Q) = a at *
    push_cast at n1
    rw [← div_div, hs, hd] at n1
    have n1' := (near_scaled (by positivity) n1).1
    push_cast at n1'
    have n1'' := abs_le.mp n1'
    rw [pow_add] at n1''
    have hint : (a : ℝ) * 4096 - 2048 ≤ r ∧ (r : ℝ) + 1 ≤ a * 4096 + 2048 := by
      constructor
      · have : (a : ℝ) * 4096 - 2048 < r + 1 := by
          by_contra hc
          have := mul_le_mul_of_nonneg_right (not_lt.mp hc) hP.le
          linarith [n1''.1]
        have : ((a * 4096 : ℕ) : ℝ) < ((r + 1 + 2048 : ℕ) : ℝ) := by push_cast; linarith
        have := Nat.cast_lt.mp this
        have : a * 4096 ≤ r + 2048 := by omega
        have : ((a * 4096 : ℕ) : ℝ) ≤ ((r + 2048 : ℕ) : ℝ) := by exact_mod_cast this
        push_cast at this; linarith
      · have : (r : ℝ) < a * 4096 + 2048 := by
          by_contra hc
          have := mul_le_mul_of_nonneg_right (not_lt.mp hc) hP.le
          linarith [n1''.2]
        have : (r : ℝ) < ((a * 4096 + 2048 : ℕ) : ℝ) := by push_cast; linarith
        have := Nat.cast_lt.mp this
        have : ((r + 1 : ℕ) : ℝ) ≤ ((a * 4096 + 2048 : ℕ) : ℝ) := by exact_mod_cast this
        push_cast at this; linarith
    have hstrict : |Real.sqrt x - (a * 2 ^ dropBits 53 Q : ℕ)| < 2 ^ dropBits 53 Q / 2 := by
      rw [hd, abs_lt]; push_cast; rw [pow_add]
      have h1 := mul_le_mul_of_nonneg_right hint.1 hP.le
      have h2 := mul_le_mul_of_nonneg_right hint.2 hP.le
      constructor <;> linarith
    exact isRounding_of_grid (by norm_num) hQ1 hQ2 hstrict.le (fun h => absurd h hstrict.ne)

/-! ## The storage formats -/

theorem magnitudeBits_magnitudeUnits {frac e f : ℕ} (hf : f < 2 ^ frac) :
    magnitudeBits frac (magnitudeUnits frac e f) = e * 2 ^ frac + f := by
  unfold magnitudeUnits
  split_ifs with h
  · subst h
    have : f.log2 - frac = 0 := by
      rcases Nat.eq_zero_or_pos f with rfl | h; · simp
      have := (Nat.log2_lt (by omega : f ≠ 0)).mpr hf; omega
    simp [magnitudeBits, this]
  · have hl : ((2 ^ frac + f) * 2 ^ (e - 1)).log2 = frac + (e - 1) := by
      apply log2_eq_of_bounds
      · rw [pow_add]; exact Nat.mul_le_mul_right _ (by omega)
      · rw [show frac + (e - 1) + 1 = (frac + 1) + (e - 1) by omega, pow_add]
        refine Nat.mul_lt_mul_of_pos_right ?_ (Nat.two_pow_pos _)
        rw [pow_succ]; omega
    simp only [magnitudeBits, hl, Nat.add_sub_cancel_left, Nat.mul_div_cancel _ (Nat.two_pow_pos _)]
    obtain ⟨k, rfl⟩ : ∃ k, e = k + 1 := ⟨e - 1, by omega⟩
    simp; ring

theorem magnitudeUnits_fits {frac e f : ℕ} (hf : f < 2 ^ frac) :
    magnitudeUnits frac e f % 2 ^ dropBits (frac + 1) (magnitudeUnits frac e f) = 0 := by
  unfold magnitudeUnits
  split_ifs with h
  · rw [dropBits_eq_zero (by omega) (by rw [pow_succ]; omega)]; simp [Nat.mod_one]
  · rw [dropBits_eq (d := e - 1) (by omega)]
    · exact Nat.mul_mod_left _ _
    · rw [Nat.add_sub_cancel, pow_add]; exact Nat.mul_le_mul_right _ (by omega)
    · rw [pow_add]; refine Nat.mul_lt_mul_of_pos_right ?_ (Nat.two_pow_pos _)
      rw [pow_succ]; omega

theorem magnitudeUnits_lt {frac e f E : ℕ} (hf : f < 2 ^ frac) (he : e < E) :
    magnitudeUnits frac e f < 2 ^ (frac + E - 1) := by
  unfold magnitudeUnits
  split_ifs with h
  · exact hf.trans_le (Nat.pow_le_pow_right (by norm_num) (by omega))
  · calc _ < 2 ^ (frac + 1) * 2 ^ (e - 1) :=
        Nat.mul_lt_mul_of_pos_right (by rw [pow_succ]; omega) (Nat.two_pow_pos _)
      _ = 2 ^ (frac + e) := by rw [← pow_add]; congr 1; omega
      _ ≤ _ := Nat.pow_le_pow_right (by norm_num) (by omega)

theorem fp64_representable (b : DWord) : representable (fp64 b) = true := by
  unfold fp64
  simp only
  split_ifs with h1 h2
  · rfl
  · rfl
  · have hf : (b.extractLsb' 0 52).toNat < 2 ^ 52 := (b.extractLsb' 0 52).isLt
    have he : (b.extractLsb' 52 11).toNat < 2047 := by have := (b.extractLsb' 52 11).isLt; omega
    have h2 := magnitudeUnits_lt (E := 2047) hf he
    simp only [representable, Bool.and_eq_true, decide_eq_true_eq, beq_iff_eq]
    exact ⟨by unfold overflowUnits64; exact h2, magnitudeUnits_fits hf⟩

theorem fp32_representable (b : Word) : representable (fp32to64 b) = true := by
  unfold fp32to64
  simp only
  split_ifs with h1 h2
  · rfl
  · rfl
  · have hf : (b.extractLsb' 0 23).toNat < 2 ^ 23 := (b.extractLsb' 0 23).isLt
    have he : (b.extractLsb' 23 8).toNat < 255 := by have := (b.extractLsb' 23 8).isLt; omega
    have h2 := magnitudeUnits_lt (E := 255) hf he
    have hfit := magnitudeUnits_fits (e := (b.extractLsb' 23 8).toNat) hf
    generalize magnitudeUnits 23 (b.extractLsb' 23 8).toNat (b.extractLsb' 0 23).toNat = v at *
    simp only [representable, Bool.and_eq_true, decide_eq_true_eq, beq_iff_eq]
    unfold overflowUnits64 unitsPer32
    constructor
    · calc v * 2 ^ 925 < 2 ^ (23 + 255 - 1) * 2 ^ 925 := Nat.mul_lt_mul_of_pos_right h2 (Nat.two_pow_pos _)
        _ = 2 ^ 1202 := by rw [← pow_add]
        _ < _ := Nat.pow_lt_pow_right (by norm_num) (by norm_num)
    · rcases Nat.eq_zero_or_pos v with rfl | h
      · simp
      · obtain ⟨a, ha⟩ := Nat.dvd_of_mod_eq_zero hfit
        have hl := log2_bounds (by omega : v ≠ 0)
        have : (v * 2 ^ 925).log2 = v.log2 + 925 := by
          apply log2_eq_of_bounds
          · rw [pow_add]; exact Nat.mul_le_mul_right _ hl.1
          · rw [show v.log2 + 925 + 1 = v.log2 + 1 + 925 by omega,
              pow_add]; exact Nat.mul_lt_mul_of_pos_right hl.2 (Nat.two_pow_pos _)
        apply Nat.mod_eq_zero_of_dvd
        have hdv : 2 ^ (dropBits 24 v + 925) ∣ v * 2 ^ 925 := by
          rw [pow_add]; exact Nat.mul_dvd_mul (Nat.dvd_of_mod_eq_zero hfit) dvd_rfl
        refine (pow_dvd_pow 2 ?_).trans hdv
        unfold dropBits; rw [this]; omega

end Sys2Proof.Machine
end

