-- ==== Sys2Proof/Laws/Trig.lean ====
section
/-! SUPPORT. The enclosures of cos and sin hold: at every angle the exact values lie within the box the model computes, and
where the two ends of an enclosure round alike, so does the exact value. -/

namespace Sys2Proof.Machine

/-- The box encloses cos and sin of the angle, in units of 2^-p. -/
def TrigBox.Holds (p : ℕ) (b : TrigBox) (θ : ℝ) : Prop :=
  |Real.cos θ * 2 ^ p - b.c| ≤ b.e ∧ |Real.sin θ * 2 ^ p - b.s| ≤ b.e

theorem natfloor (x d : ℕ) (hd : 0 < d) : |(x : ℝ) / d - (x / d : ℕ)| ≤ 1 := by
  have h := Nat.cast_div_le (m := x) (n := d) (α := ℝ)
  have hdR : (0 : ℝ) < d := by exact_mod_cast hd
  have h2 : (x : ℝ) / d < (x / d : ℕ) + 1 := by
    rw [div_lt_iff₀ hdR]
    exact_mod_cast (by rw [mul_comm]; exact Nat.lt_mul_div_succ x hd : x < (x / d + 1) * d)
  rw [abs_le]; constructor <;> linarith

theorem intfloor (x : ℤ) (d : ℕ) (hd : 0 < d) : |(x : ℝ) / d - (x / (d : ℤ) : ℤ)| ≤ 1 := by
  have hdR : (0 : ℝ) < d := by exact_mod_cast hd
  have hdZ : (0 : ℤ) < d := by exact_mod_cast hd
  have h := Int.emod_add_mul_ediv x d
  have h0 := Int.emod_nonneg x hdZ.ne'
  have h1 := Int.emod_lt_of_pos x hdZ
  have e : (x : ℝ) / d - (x / (d : ℤ) : ℤ) = ((x % d : ℤ) : ℝ) / d := by
    have : (x : ℝ) = ((x % d : ℤ) : ℝ) + d * ((x / d : ℤ) : ℝ) := by exact_mod_cast h.symm
    rw [div_sub' hdR.ne']; congr 1; linarith
  rw [e, abs_of_nonneg (by have : (0 : ℝ) ≤ ((x % d : ℤ) : ℝ) := by exact_mod_cast h0
                           positivity), div_le_one hdR]
  exact_mod_cast h1.le

/-- The enclosure of an angle between 0 and 1. -/
theorem trigStart_holds (p x : ℕ) (hx : x ≤ 2 ^ p) : TrigBox.Holds p (trigStart p x) ((x : ℝ) / 2 ^ p) := by
  have hP : (0 : ℝ) < 2 ^ p := by positivity
  set θ := (x : ℝ) / 2 ^ p with hθ
  have hxe : (x : ℝ) = θ * 2 ^ p := by rw [hθ]; field_simp
  have h1 : |θ| ≤ 1 := by
    have : (x : ℝ) ≤ 2 ^ p := by exact_mod_cast hx
    rw [abs_of_nonneg (by positivity), hθ, div_le_one hP]; exact this
  have hc := Real.cos_bound h1
  have hs : |Real.sin θ - (θ - θ ^ 3 / 6)| ≤ |θ| ^ 4 * (5 / 96) := by
    refine (Real.sin_bound h1).trans ?_
    have h4 : 0 ≤ |θ| ^ 4 := by positivity
    rw [pow_succ]; nlinarith
  have he : |θ| ^ 4 * 2 ^ p / 16 + 1 ≤ ((trigStart p x).e : ℝ) := by
    have := abs_le.mp (natfloor (x ^ 4) (16 * 2 ^ (3 * p)) (by positivity))
    have e : ((x ^ 4 : ℕ) : ℝ) / ((16 * 2 ^ (3 * p) : ℕ) : ℝ) = |θ| ^ 4 * 2 ^ p / 16 := by
      push_cast; rw [hxe, show 3 * p = p + p + p by omega, pow_add, pow_add,
          abs_of_nonneg (by positivity)]; field_simp
    rw [e] at this
    simp only [trigStart]; push_cast; linarith [this.2]
  have h4 : 0 ≤ |θ| ^ 4 * 2 ^ p := by positivity
  constructor
  · have hf := natfloor (x ^ 2) (2 ^ (p + 1)) (by positivity)
    have e : ((x ^ 2 : ℕ) : ℝ) / ((2 ^ (p + 1) : ℕ) : ℝ) = θ ^ 2 / 2 * 2 ^ p := by
      push_cast; rw [hxe, pow_succ 2 p]; field_simp
    rw [e] at hf
    have : ((trigStart p x).c : ℝ) = 2 ^ p - ((x ^ 2 / 2 ^ (p + 1) : ℕ) : ℝ) :=
        by simp only [trigStart, Int.cast_sub, Int.cast_natCast]; push_cast; rfl
    rw [this]
    calc _ = |(Real.cos θ - (1 - θ ^ 2 / 2)) * 2 ^ p +
          -(θ ^ 2 / 2 * 2 ^ p - ((x ^ 2 / 2 ^ (p + 1) : ℕ) : ℝ))| := by congr 1; ring
      _ ≤ |(Real.cos θ - (1 - θ ^ 2 / 2)) * 2 ^ p| +
          |θ ^ 2 / 2 * 2 ^ p - ((x ^ 2 / 2 ^ (p + 1) : ℕ) : ℝ)| := by
        rw [← abs_neg (θ ^ 2 / 2 * 2 ^ p - _)]; exact abs_add_le _ _
      _ ≤ |θ| ^ 4 * (5 / 96) * 2 ^ p + 1 := by
        rw [abs_mul, abs_of_pos hP]; exact add_le_add (mul_le_mul_of_nonneg_right hc hP.le) hf
      _ ≤ _ := by linarith
  · have hf := natfloor (x ^ 3) (6 * 2 ^ (2 * p)) (by positivity)
    have e : ((x ^ 3 : ℕ) : ℝ) / ((6 * 2 ^ (2 * p) : ℕ) : ℝ) = θ ^ 3 / 6 * 2 ^ p := by
      push_cast; rw [hxe, show 2 * p = p + p by omega, pow_add]; field_simp
    rw [e] at hf
    have : ((trigStart p x).s : ℝ) = θ * 2 ^ p - ((x ^ 3 / (6 * 2 ^ (2 * p)) : ℕ) : ℝ) :=
        by simp only [trigStart, Int.cast_sub, Int.cast_natCast, hxe]
    rw [this]
    calc _ = |(Real.sin θ - (θ - θ ^ 3 / 6)) * 2 ^ p +
          -(θ ^ 3 / 6 * 2 ^ p - ((x ^ 3 / (6 * 2 ^ (2 * p)) : ℕ) : ℝ))| := by congr 1; ring
      _ ≤ |(Real.sin θ - (θ - θ ^ 3 / 6)) * 2 ^ p| +
          |θ ^ 3 / 6 * 2 ^ p - ((x ^ 3 / (6 * 2 ^ (2 * p)) : ℕ) : ℝ)| := by
        rw [← abs_neg (θ ^ 3 / 6 * 2 ^ p - _)]; exact abs_add_le _ _
      _ ≤ |θ| ^ 4 * (5 / 96) * 2 ^ p + 1 := by
        rw [abs_mul, abs_of_pos hP]; exact add_le_add (mul_le_mul_of_nonneg_right hs hP.le) hf
      _ ≤ _ := by linarith

/-- The enclosure of twice an angle. -/
theorem trigDouble_holds {p : ℕ} {b : TrigBox} {θ : ℝ} (h : TrigBox.Holds p b θ) :
    TrigBox.Holds p (trigDouble p b) (2 * θ) := by
  obtain ⟨hc, hs⟩ := h
  have hP : (0 : ℝ) < 2 ^ p := by positivity
  set C := Real.cos θ * 2 ^ p with hC
  set S := Real.sin θ * 2 ^ p with hS
  have he0 : (0 : ℝ) ≤ b.e := by positivity
  have hCb : |C| ≤ |(b.c : ℝ)| + b.e := by
    calc |C| = |(C - b.c) + b.c| := by ring_nf
      _ ≤ |C - b.c| + |(b.c : ℝ)| := abs_add_le _ _
      _ ≤ _ := by linarith
  have hSb : |S| ≤ |(b.s : ℝ)| + b.e := by
    calc |S| = |(S - b.s) + b.s| := by ring_nf
      _ ≤ |S - b.s| + |(b.s : ℝ)| := abs_add_le _ _
      _ ≤ _ := by linarith
  have hE : (2 * (b.e : ℝ) * (|(b.c : ℝ)| + |(b.s : ℝ)| + b.e)) / 2 ^ p + 1 ≤ ((trigDouble p b).e : ℝ) := by
    have := abs_le.mp (natfloor (2 * b.e * (b.c.natAbs + b.s.natAbs + b.e)) (2 ^ p) (by positivity))
    simp only [trigDouble]; push_cast at this ⊢
    rw [Nat.cast_natAbs, Nat.cast_natAbs] at this
    push_cast at this; linarith [this.2]
  constructor
  · have hf := intfloor (b.c * b.c - b.s * b.s) (2 ^ p) (by positivity)
    have e1 : Real.cos (2 * θ) * 2 ^ p = (C * C - S * S) / 2 ^ p := by
      rw [Real.cos_two_mul', hC, hS]; field_simp
    have hcc : |C * C - b.c * b.c| ≤ b.e * (2 * |(b.c : ℝ)| + b.e) := by
      rw [show C * C - (b.c : ℝ) * b.c = (C - b.c) * (C + b.c) by ring, abs_mul]
      refine mul_le_mul hc ?_ (abs_nonneg _) he0
      calc _ ≤ |C| + |(b.c : ℝ)| := abs_add_le _ _
        _ ≤ _ := by linarith
    have hss : |S * S - b.s * b.s| ≤ b.e * (2 * |(b.s : ℝ)| + b.e) := by
      rw [show S * S - (b.s : ℝ) * b.s = (S - b.s) * (S + b.s) by ring, abs_mul]
      refine mul_le_mul hs ?_ (abs_nonneg _) he0
      calc _ ≤ |S| + |(b.s : ℝ)| := abs_add_le _ _
        _ ≤ _ := by linarith
    have hd : |(C * C - S * S) - (b.c * b.c - b.s * b.s)| ≤ 2 * b.e * (|(b.c : ℝ)| + |(b.s : ℝ)| + b.e) := by
      calc _ = |(C * C - b.c * b.c) - (S * S - b.s * b.s)| := by congr 1; ring
        _ ≤ |C * C - b.c * b.c| + |S * S - b.s * b.s| := abs_sub _ _
        _ ≤ _ := by linarith
    rw [e1]
    calc _ = |((C * C - S * S) - (b.c * b.c - b.s * b.s)) / 2 ^ p +
          ((b.c * b.c - b.s * b.s) / 2 ^ p - ((trigDouble p b).c : ℝ))| := by
          congr 1; ring
      _ ≤ |((C * C - S * S) - (b.c * b.c - b.s * b.s)) / 2 ^ p| +
          |(b.c * b.c - b.s * b.s : ℝ) / 2 ^ p - ((trigDouble p b).c : ℝ)| := abs_add_le _ _
      _ ≤ (2 * (b.e : ℝ) * (|(b.c : ℝ)| + |(b.s : ℝ)| + b.e)) / 2 ^ p + 1 := by
        refine add_le_add ?_ ?_
        · rw [abs_div, abs_of_pos hP]; exact div_le_div_of_nonneg_right hd hP.le
        · push_cast at hf; exact_mod_cast hf
      _ ≤ _ := hE
  · have hf := intfloor (2 * b.c * b.s) (2 ^ p) (by positivity)
    have e1 : Real.sin (2 * θ) * 2 ^ p = (2 * C * S) / 2 ^ p := by
      rw [Real.sin_two_mul, hC, hS]; field_simp
    have hd : |2 * C * S - 2 * b.c * b.s| ≤ 2 * b.e * (|(b.c : ℝ)| + |(b.s : ℝ)| + b.e) := by
      calc _ = |2 * (C * (S - b.s) + b.s * (C - b.c))| := by congr 1; ring
        _ = 2 * |C * (S - b.s) + b.s * (C - b.c)| := by rw [abs_mul]; norm_num
        _ ≤ 2 * (|C * (S - b.s)| + |b.s * (C - b.c)|) := by
            have := abs_add_le (C * (S - b.s)) (b.s * (C - b.c))
            linarith
        _ ≤ 2 * ((|(b.c : ℝ)| + b.e) * b.e + |(b.s : ℝ)| * b.e) := by
          rw [abs_mul C, abs_mul (b.s : ℝ)]
          have := mul_le_mul hCb hs (abs_nonneg _) (by positivity)
          have := mul_le_mul_of_nonneg_left hc (abs_nonneg (b.s : ℝ))
          linarith
        _ = _ := by ring
    rw [e1]
    calc _ = |(2 * C * S - 2 * b.c * b.s) / 2 ^ p + ((2 * b.c * b.s) / 2 ^ p - ((trigDouble p b).s : ℝ))| :=
        by congr 1; ring
      _ ≤ |(2 * C * S - 2 * b.c * b.s) / 2 ^ p| + |(2 * b.c * b.s : ℝ) / 2 ^ p - ((trigDouble p b).s : ℝ)| :=
          abs_add_le _ _
      _ ≤ (2 * (b.e : ℝ) * (|(b.c : ℝ)| + |(b.s : ℝ)| + b.e)) / 2 ^ p + 1 := by
        refine add_le_add ?_ ?_
        · rw [abs_div, abs_of_pos hP]; exact div_le_div_of_nonneg_right hd hP.le
        · simpa [trigDouble] using hf
      _ ≤ _ := hE

theorem trigDoubles_holds {p : ℕ} (m : ℕ) {b : TrigBox} {θ : ℝ} (h : TrigBox.Holds p b θ) :
    TrigBox.Holds p (trigDoubles p m b) (2 ^ m * θ) := by
  induction m generalizing b θ with
  | zero => simpa [trigDoubles] using h
  | succ m ih =>
    rw [trigDoubles]
    split_ifs
    · have hP : (0 : ℝ) < 2 ^ p := by positivity
      constructor
      · simp only [Int.cast_zero, sub_zero, abs_mul, abs_of_pos hP]; push_cast
        have := Real.abs_cos_le_one (2 ^ (m + 1) * θ); nlinarith
      · simp only [Int.cast_zero, sub_zero, abs_mul, abs_of_pos hP]; push_cast
        have := Real.abs_sin_le_one (2 ^ (m + 1) * θ); nlinarith
    · have := ih (trigDouble_holds h)
      rwa [pow_succ, mul_assoc]

/-- The enclosure of every nonzero binary64 magnitude. -/
theorem trigEnclose_holds (guard units : ℕ) (hu : units ≠ 0) :
    TrigBox.Holds (trigPrecision guard units) (trigEnclose guard units) ((units : ℝ) / 2 ^ 1074) := by
  have key : ∀ K m p : ℕ, units.log2 + 1 ≤ K + m → p = K + 2 * m + guard →
      TrigBox.Holds p (trigDoubles p m (trigStart p (units * 2 ^ (p - K - m)))) ((units : ℝ) / 2 ^ K) := by
    intro K m p h1 hpm
    have hlt := (log2_bounds hu).2
    have hx : units * 2 ^ (p - K - m) ≤ 2 ^ p := by
      calc _ ≤ 2 ^ (K + m) * 2 ^ (p - K - m) :=
          Nat.mul_le_mul_right _ (hlt.le.trans (Nat.pow_le_pow_right (by norm_num) h1))
        _ = 2 ^ p := by rw [← pow_add]; congr 1; omega
    have h := trigDoubles_holds m (trigStart_holds p _ hx)
    have e : (2 : ℝ) ^ m * (((units * 2 ^ (p - K - m) : ℕ) : ℝ) / 2 ^ p) = (units : ℝ) / 2 ^ K := by
      have : (2 : ℝ) ^ p = 2 ^ m * 2 ^ K * 2 ^ (p - K - m) := by rw [← pow_add, ← pow_add]; congr 1; omega
      rw [this]; push_cast
      field_simp
    rwa [e] at h
  refine key 1074 (trigHalvings guard units) (trigPrecision guard units) ?_ rfl
  unfold trigHalvings; omega

theorem roundAt_cases (p : ℕ) (v : ℤ) : roundAt p v =
    if roundRatio 53 v.natAbs (2 ^ (p - 1074)) < overflowUnits64 then .fin (decide (v < 0))
        (roundRatio 53 v.natAbs (2 ^ (p - 1074))) else .inf (decide (v < 0)) := rfl

theorem pow_split {K p : ℕ} (h : K ≤ p) : (2 : ℝ) ^ K * 2 ^ (p - K) = 2 ^ p := by rw [← pow_add]; congr 1; omega

/-- A value of magnitude at most 1 between two whole numbers of units that round alike rounds as they do. -/
theorem between_rounds {p : ℕ} (hp : 1074 ≤ p) {x : ℝ} (hx : |x| ≤ 1) {lo hi : ℤ} (h1 : (lo : ℝ) ≤ x * 2 ^ p)
    (h2 : x * 2 ^ p ≤ hi) (he : roundAt p lo = roundAt p hi) :
    RoundsTo x (roundAt p lo) := by
  have hP : (0 : ℝ) < 2 ^ p := by positivity
  have hone : (oneUnits : ℝ) = 2 ^ p / 2 ^ (p - 1074) := by
    rw [eq_div_iff (by positivity), oneUnits_real]; exact pow_split hp
  set D := (2 : ℝ) ^ (p - 1074) with hD
  have hDp : 0 < D := by positivity
  have rnd : ∀ v : ℤ, IsRounding 53 (|(v : ℝ)| / D) (roundRatio 53 v.natAbs (2 ^ (p - 1074))) := by
    intro v
    have := roundRatio_isRounding (prec := 53) (by norm_num) v.natAbs (den := 2 ^ (p - 1074)) (by positivity)
    rw [Nat.cast_natAbs] at this
    push_cast at this; exact this
  have hxe : |x| * oneUnits = |x * 2 ^ p| / D := by rw [hone, abs_mul, abs_of_pos hP]; ring
  -- no infinity
  have small : ∀ v : ℤ, |(v : ℝ)| ≤ 2 ^ p → roundRatio 53 v.natAbs (2 ^ (p - 1074)) < overflowUnits64 := by
    intro v hv
    by_contra hc; push Not at hc
    have := isRounding_ge (K := 2097) (by norm_num) (rnd v) (by unfold overflowUnits64 at hc; exact hc)
    rw [le_div_iff₀ hDp, hD, ← pow_add] at this
    have h3 : (2 : ℝ) ^ p < 2 ^ (2097 + (p - 1074)) := pow_lt_pow_right₀ (by norm_num) (by omega)
    exact absurd (this.trans hv) (not_le.mpr h3)
  clear hp
  have hxb := abs_le.mp hx
  rw [roundAt_cases, roundAt_cases] at he
  have hmain : ∃ m, roundRatio 53 lo.natAbs (2 ^ (p - 1074)) = m ∧
      roundRatio 53 hi.natAbs (2 ^ (p - 1074)) = m ∧ decide (lo < 0) = decide (hi < 0) ∧ m < overflowUnits64 := by
    by_cases hl0 : lo < 0 <;> by_cases hh0 : hi < 0
    · -- both negative: hi small
      have hhR : (hi : ℝ) < 0 := by exact_mod_cast hh0
      have hs := small hi (by rw [abs_of_neg hhR]; nlinarith)
      rw [if_pos hs] at he
      split_ifs at he
      simp only [Fp.fin.injEq] at he
      exact ⟨_, he.2, rfl, he.1, hs⟩
    · exfalso; split_ifs at he <;> simp [hl0, hh0] at he
    · exfalso; have : (hi : ℝ) < lo := by exact_mod_cast (by omega : hi < lo)
      linarith
    · have hlR : (0 : ℝ) ≤ lo := by exact_mod_cast not_lt.mp hl0
      have hs := small lo (by rw [abs_of_nonneg hlR]; nlinarith)
      rw [if_pos hs] at he
      split_ifs at he
      simp only [Fp.fin.injEq] at he
      exact ⟨_, rfl, he.2.symm, he.1, hs⟩
  obtain ⟨m, m1, m2, hsgn, hm⟩ := hmain
  have r1 := rnd lo; have r2 := rnd hi
  rw [m1] at r1; rw [m2] at r2
  rw [roundAt_cases, m1]
  refine ⟨decide (lo < 0), m, ?_, rfl, ?_, ?_⟩
  · rw [hxe]
    by_cases hl0 : lo < 0
    · have hh0 : hi < 0 := by simpa [hl0] using hsgn.symm
      have hhR : (hi : ℝ) < 0 := by exact_mod_cast hh0
      have hlR : (lo : ℝ) < 0 := by exact_mod_cast hl0
      refine IsRounding.convex r2 r1 ?_ ?_
      · apply div_le_div_of_nonneg_right _ hDp.le; rw [abs_of_neg hhR, abs_of_neg (by linarith)]; linarith
      · apply div_le_div_of_nonneg_right _ hDp.le; rw [abs_of_neg hlR, abs_of_neg (by linarith)]; linarith
    · have hlR : (0 : ℝ) ≤ lo := by exact_mod_cast not_lt.mp hl0
      refine IsRounding.convex r1 r2 ?_ ?_
      · apply div_le_div_of_nonneg_right _ hDp.le; rw [abs_of_nonneg hlR, abs_of_nonneg (by linarith)]; linarith
      · apply div_le_div_of_nonneg_right _ hDp.le; rw [abs_of_nonneg (by linarith),
          abs_of_nonneg (by linarith)]; linarith
  · intro hneg
    have : x * 2 ^ p < 0 := mul_neg_of_neg_of_pos (by assumption) hP
    have : (lo : ℝ) < 0 := by linarith
    simpa using (by exact_mod_cast this : lo < 0)
  · intro hpos
    have : 0 < x * 2 ^ p := mul_pos hpos hP
    have : (0 : ℝ) < hi := by linarith
    have : 0 < hi := by exact_mod_cast this
    rw [hsgn]; simp; omega

theorem trigRound_representable (b u gs) : representable (trigRound b u gs) = true := by
  induction gs with
  | nil => rfl
  | cons g gs ih =>
    simp only [trigRound]
    split
    · exact ofRatio_representable ..
    · split
      · split <;> exact ofRatio_representable ..
      · exact ih

theorem representable_one : representable fpOne = true := by
  have : fpOne = ofRatio false oneUnits 1 := by
    unfold ofRatio fpOne
    have h : roundRatio 53 oneUnits 1 = oneUnits := by unfold oneUnits; decide +kernel
    rw [h, if_pos]
    unfold oneUnits overflowUnits64
    exact Nat.pow_lt_pow_right (by norm_num) (by norm_num)
  rw [this]; exact ofRatio_representable ..

theorem unitRoot_representable (x) : representable (unitRoot x).re = true ∧
    representable (unitRoot x).im = true := by
  unfold unitRoot
  split
  · exact ⟨rfl, rfl⟩
  · exact ⟨rfl, rfl⟩
  · simp only [cosRN, sinRN]
    constructor
    · split_ifs
      · exact representable_one
      · exact trigRound_representable ..
    · split_ifs
      · exact representable_fin_zero _
      · exact fneg_representable (trigRound_representable ..)
      · exact trigRound_representable ..

end Sys2Proof.Machine
end

