-- ==== Sys2Proof/Tests/Slice0.lean ====
section
/-! SUPPORT. Tests. Expected values come from the spec: the encodings of 30_encoding.md R58 and R63, the vectors and
examples of 95_test_vectors.md and of the command rules. Witnesses show that the hypotheses of each statement can be
met. -/

namespace Sys2Proof.Tests

set_option Elab.async false

open Sys2Proof.Machine

/-! ## Helpers -/

/-- The reset state with the given registers. -/
def withRegs (r : Regs) : State := { State.reset with regs := r }

/-- The reset state with LEN written. -/
def withLen (n : Word) : State := withRegs { Regs.reset with len := n }

/-- The reset state with BITREV's operands written. -/
def withIdx (idx bits : Word) : State := withRegs { Regs.reset with idx := idx, bits := bits }

/-- The reset state with OPA and OPB written. -/
def withOps (aRe aIm bRe bIm : DWord) : State :=
  withRegs { Regs.reset with opaRe := aRe, opaIm := aIm, opbRe := bRe, opbIm := bIm }

/-- A buffer's slots from 0 on hold the values given. -/
def fill (s : State) (b : Buf) (vs : List DWord) : State :=
  vs.zipIdx.foldl (fun s v => s.setSlot b v.2 v.1) s

/-- LEN and a buffer pair are written. -/
def withPair (n : Word) (a b : Buf) (x y : List DWord) : State := fill (fill (withLen n) a x) b y

/-- The state of a NOP that was accepted after reset. -/
def running : State := { State.reset with pending := some .nop, regs := { Regs.reset with status := 1#32 } }

/-- An idle machine with DONE and ERR set, and the host's next input. -/
def ended (x : Input) : State :=
  { withRegs { Regs.reset with status := 6#32 } with world := { State.reset.world with inputs := [x] } }

/-- What a next state shows. -/
def onNext {α} (f : State → α) : Host.Outcome State Fault Refusal → Option α
  | .next t => some (f t)
  | .fault _ => none
  | .refused _ => none

/-- The result registers a command leaves. -/
def res (i : Instr) (s : State) : Option (DWord × DWord) := onNext (fun t => (t.regs.resRe, t.regs.resIm)) (exec i s)

/-- OUT_RE and OUT_IM slots 0 to n - 1 a command leaves. -/
def out (n : Nat) (i : Instr) (s : State) : Option (List DWord × List DWord) :=
  onNext (fun t => ((List.range n).map (t.slot .outRe), (List.range n).map (t.slot .outIm))) (exec i s)

/-- STATUS, ERRCODE and ERRADDR. -/
def errors (s : State) : Nat × Nat × Nat := (s.regs.status.toNat, s.regs.errcode.toNat, s.regs.erraddr.toNat)

/-- STATUS, ERRCODE and CMD. -/
def issued (s : State) : Nat × Nat × Nat := (s.regs.status.toNat, s.regs.errcode.toNat, s.regs.cmd.toNat)

/-- The answer to the last host access. -/
def answer (s : State) : Option (Nat × Bool) := s.world.response.map (fun r => (r.data.toNat, r.error))

/-! ## Well-formedness: each check refuses an ill-formed term -/

theorem test_wf_op_reserved : Fields.wellFormed ⟨0xB#4, 0, 0, 0, 0⟩ = false := by decide
theorem test_wf_reserved_low : Fields.wellFormed ⟨0x1#4, 1#4, 0, 0, 0⟩ = false := by decide
theorem test_wf_reserved_high : Fields.wellFormed ⟨0x1#4, 0, 0, 0, 1#22⟩ = false := by decide
theorem test_wf_prec_unused : Fields.wellFormed ⟨0x5#4, 0, 1#1, 0, 0⟩ = false := by decide
theorem test_wf_role_unused : Fields.wellFormed ⟨0x1#4, 0, 0, 1#1, 0⟩ = false := by decide
theorem test_wf_accepts : Fields.wellFormed ⟨0x4#4, 0, 1#1, 1#1, 0⟩ = true := by decide

/-! ## Decoding (R58): a word for every constructor, written bit by bit; rejected words (95 section 8) -/

theorem test_decode_nop : decode 0b0000000000000000000000_0_0_0000_0000#32 = .ok .nop := by decide
theorem test_decode_fwd : decode 0b0000000000000000000000_0_1_0000_0001#32 = .ok (.fwd .f64) := by decide
theorem test_decode_inv : decode 0b0000000000000000000000_0_0_0000_0010#32 = .ok (.inv .f32) := by decide
theorem test_decode_setup : decode 0b0000000000000000000000_0_1_0000_0011#32 = .ok (.setup .f64) := by decide
theorem test_decode_bfly : decode 0b0000000000000000000000_1_0_0000_0100#32 = .ok (.bfly .f32 .swap) := by decide
theorem test_decode_bfly_f64 : decode 0b0000000000000000000000_0_1_0000_0100#32 = .ok (.bfly .f64 .straight) := by decide
theorem test_decode_bitrev : decode 0b0000000000000000000000_0_0_0000_0101#32 = .ok .bitrev := by decide
theorem test_decode_cadd : decode 0b0000000000000000000000_0_0_0000_0110#32 = .ok .cadd := by decide
theorem test_decode_csub : decode 0b0000000000000000000000_0_0_0000_0111#32 = .ok .csub := by decide
theorem test_decode_cmul : decode 0b0000000000000000000000_0_0_0000_1000#32 = .ok .cmul := by decide
theorem test_decode_cmag : decode 0b0000000000000000000000_0_0_0000_1001#32 = .ok .cmag := by decide
theorem test_decode_uroot : decode 0b0000000000000000000000_0_0_0000_1010#32 = .ok .uroot := by decide

/-- R63's examples, and R92's. -/
theorem test_asm_examples :
    (Instr.fwd .f64).asm = "fwd.f64" ∧ encode (.fwd .f64) = 0x00000101#32 ∧
    (Instr.inv .f32).asm = "inv.f32" ∧ encode (.inv .f32) = 0x00000002#32 ∧
    (Instr.bfly .f64 .swap).asm = "bfly.f64.swap" ∧ encode (.bfly .f64 .swap) = 0x00000304#32 ∧
    Instr.cmul.asm = "cmul" ∧ encode .cmul = 0x00000008#32 := by decide

theorem test_reject_illegal_op :
    [0x0000000B#32, 0x0000000F#32, 0x0000001B#32].map decode = List.replicate 3 (.error .illegalOp) := by decide

theorem test_reject_rsvd_field :
    [0x00000010#32, 0x80000001#32, 0x00000100#32, 0x00000105#32, 0x00000201#32, 0x00000208#32].map decode =
      List.replicate 6 (.error .rsvdField) := by decide

theorem test_table_word : decodeTableWord 32 0x304 = some (.bfly .f64 .swap) ∧ decodeTableWord 32 0x10 = none := by
  decide

/-! ## Issue (95 section 8 and 9) -/

theorem test_issue_accepts : issued ((withLen 4#32).issue 0x00000101#32) = (0x1, 0, 0x101) := by decide
theorem test_issue_illegal : issued ((withLen 4#32).issue 0x0000001B#32) = (0x6, 0x01, 0x1B) := by decide
theorem test_issue_reserved : issued ((withLen 4#32).issue 0x80000001#32) = (0x6, 0x02, 0x80000001) := by decide
theorem test_issue_len_zero : errors ((withLen 0#32).issue 0x00000101#32) = (0x6, 0x03, 0x028) := by decide
theorem test_issue_len_six : errors ((withLen 6#32).issue 0x00000003#32) = (0x6, 0x03, 0x028) := by decide
theorem test_issue_len_long : errors ((withLen 0x02000000#32).issue 0x00000104#32) = (0x6, 0x03, 0x028) := by decide
theorem test_issue_len_longest : errors ((withLen 0x01000000#32).issue 0x00000101#32) = (0x1, 0, 0) := by decide
theorem test_issue_len_capacity :
    errors ({ withLen 0x01000000#32 with inst := ⟨20, 0⟩ }.issue 0x00000101#32) = (0x6, 0x03, 0x028) := by decide
theorem test_issue_bits_25 : errors ((withIdx 6#32 25#32).issue 0x00000005#32) = (0x6, 0x04, 0x028) := by decide
theorem test_issue_bits_24 : errors ((withIdx 6#32 24#32).issue 0x00000005#32) = (0x1, 0, 0) := by decide
theorem test_issue_cadd_len_zero : errors ((withLen 0#32).issue 0x00000006#32) = (0x1, 0, 0) := by decide

/-! ## The primitives (95 section 2) -/

theorem test_cadd : res .cadd (withOps 0x3FF8000000000000 0xC000000000000000 0x3FD0000000000000 0x4010000000000000) =
    some (0x3FFC000000000000, 0x4000000000000000) := by decide +kernel
theorem test_cadd_signed_zeros : res .cadd (withOps 0x8000000000000000 0x8000000000000000 0 0x8000000000000000) =
    some (0, 0x8000000000000000) := by decide +kernel
theorem test_csub : res .csub (withOps 0x3FF0000000000000 0x4000000000000000 0x4008000000000000 0x4014000000000000) =
    some (0xC000000000000000, 0xC008000000000000) := by decide +kernel
theorem test_csub_signed_zeros : res .csub (withOps 0x8000000000000000 0 0 0x8000000000000000) =
    some (0x8000000000000000, 0) := by decide +kernel
theorem test_cmul : res .cmul (withOps 0x3FF0000000000000 0x4000000000000000 0x4008000000000000 0x4010000000000000) =
    some (0xC014000000000000, 0x4024000000000000) := by decide +kernel
/-- (+∞, 0)·(0, 1) is (NaN, +∞): no infinity recovery. -/
theorem test_cmul_infinity : cmul ⟨.inf false, fpZero⟩ ⟨fpZero, fpOne⟩ = ⟨.nan, .inf false⟩ := by decide +kernel
/-- CMAG of (1, 1): one rounding of the root. -/
theorem test_cmag : res .cmag (withOps 0x3FF0000000000000 0x3FF0000000000000 0x4008000000000000 0) =
    some (0x3FF6A09E667F3BCD, 0) := by decide +kernel
/-- CMAG of (1e200, 1e200): the squares overflow (1e200 is 0x6974E718D7D7625A). -/
theorem test_cmag_overflow : res .cmag (withOps 0x6974E718D7D7625A 0x6974E718D7D7625A 0 0) =
    some (0x7FF0000000000000, 0) := by decide +kernel
/-- UROOT of 1/3. -/
theorem test_uroot : res .uroot (withOps 0x3FD5555555555555 0 0 0) =
    some (0x3FE0000000000001, 0x3FEBB67AE8584CAA) := by decide +kernel
/-- UROOT of -0: the sign of t is kept. -/
theorem test_uroot_zero : res .uroot (withOps 0x8000000000000000 0 0 0) =
    some (0x3FF0000000000000, 0x8000000000000000) := by decide +kernel

/-- unitRoot of 1e300 (0x7E37E43C8800759C): a large t; -0.43076454514243845 is 0xBFDB91A5746A700C and
-0.902464352009667 is 0xBFECE0FCEBB5FEC9. -/
theorem test_unit_root_large : (⟨fp64 0xBFDB91A5746A700C, fp64 0xBFECE0FCEBB5FEC9⟩ : Cplx) =
    unitRoot (fp64 0x7E37E43C8800759C) := by decide +kernel

/-! ## Bit reversal (41_bitrev.md R76, 95 section 3) -/

theorem test_rom_row : (List.range 8).map (fun m => rev6 (40 + m)) = [5, 37, 21, 53, 13, 45, 29, 61] := by decide
theorem test_bitrev_high_bits : onNext (fun t => t.regs.ridx) (exec .bitrev (withIdx 0x1234567#32 24#32)) =
    some 0xE6A2C4#32 := by decide
theorem test_bitrev_short : onNext (fun t => t.regs.ridx) (exec .bitrev (withIdx 0xABCDEF#32 12#32)) =
    some 0xF7B#32 := by decide

/-! ## Setup, butterfly, transforms (95 sections 5 to 7) -/

theorem test_setup_f64 :
    out 4 (.setup .f64) (withPair 4 .inRe .inIm
      [0x3FF0000000000000, 0x4000000000000000, 0x4008000000000000, 0x4010000000000000]
      [0, 0xBFF0000000000000, 0x3FE0000000000000, 0]) =
    some ([0x3FE0000000000000, 0x3FF8000000000000, 0x3FF0000000000000, 0x4000000000000000],
      [0, 0x3FD0000000000000, 0xBFE0000000000000, 0]) := by decide +kernel

/-- N = 1 with PREC = 0: bits 63:32 of the output slot become 0. -/
theorem test_setup_f32_one :
    out 1 (.setup .f32) (withPair 1 .inRe .inIm [0xDEADBEEF40600000] [0xC0000000]) =
    some ([0x0000000040600000], [0x00000000C0000000]) := by decide +kernel

theorem test_bfly_straight :
    out 2 (.bfly .f64 .straight) (withPair 2 .outRe .outIm [0x3FF0000000000000, 0x4000000000000000] [0, 0]) =
    some ([0x4008000000000000, 0xBFF0000000000000], [0, 0]) := by decide +kernel

/-- ROLE = 1 (95 section 6.3, the fifth row). -/
theorem test_bfly_swap :
    out 4 (.bfly .f64 .swap) (withPair 4 .outRe .outIm
      [0x3FE0000000000000, 0x3FF8000000000000, 0x3FF0000000000000, 0x4000000000000000]
      [0, 0x3FD0000000000000, 0xBFE0000000000000, 0]) =
    some ([0x4014000000000000, 0xBFE0000000000000, 0xBFF0000000000000, 0xBFF8000000000000],
      [0xBFD0000000000000, 0xBFF4000000000000, 0x3FE8000000000000, 0x3FE8000000000000]) := by decide +kernel

/-- Section 7.4, PREC = 1. -/
theorem test_fwd_f64 :
    out 4 (.fwd .f64) (withPair 4 .inRe .inIm
      [0x3FF0000000000000, 0x4000000000000000, 0x4008000000000000, 0x4010000000000000]
      [0, 0xBFF0000000000000, 0x3FE0000000000000, 0]) =
    some ([0x4014000000000000, 0xBFF8000000000000, 0xBFF0000000000000, 0xBFDFFFFFFFFFFFFE],
      [0xBFD0000000000000, 0x3FE8000000000000, 0x3FE8000000000000, 0xBFF4000000000000]) := by decide +kernel

/-- Section 7.1, PREC = 0. -/
theorem test_fwd_f32 : out 2 (.fwd .f32) (withPair 2 .inRe .inIm [0x3F800000, 0x40000000] [0, 0]) =
    some ([0x4007C3B6, 0xBF3504F3], [0, 0]) := by decide +kernel

/-- Section 7.4, INV: the direction of the rotation. -/
theorem test_inv_f64 :
    out 4 (.inv .f64) (withPair 4 .inRe .inIm
      [0x3FF0000000000000, 0x4000000000000000, 0x4008000000000000, 0x4010000000000000]
      [0, 0xBFF0000000000000, 0x3FE0000000000000, 0]) =
    some ([0x4014000000000000, 0xBFE0000000000000, 0xBFF0000000000000, 0xBFF8000000000000],
      [0xBFD0000000000000, 0xBFF4000000000000, 0x3FE8000000000000, 0x3FE8000000000000]) := by decide +kernel

/-- Section 7.1, PREC = 0. -/
theorem test_inv_f32 : out 2 (.inv .f32) (withPair 2 .inRe .inIm [0x3F800000, 0x40000000] [0, 0]) =
    some ([0x4007C3B6, 0xBF3504F3], [0, 0]) := by decide +kernel

/-- Section 6.1: the twiddle increments of strides 4 and 2^23. -/
theorem test_twiddle_steps :
    twiddleStep 4 = ⟨fp64 0x3FE6A09E667F3BCD, fp64 0xBFE6A09E667F3BCC⟩ ∧
    twiddleStep (2 ^ 23) = ⟨fp64 0x3FEFFFFFFFFFFD88, fp64 0xBE9921FB54442C73⟩ := by decide +kernel

/-- Section 6.2: the running twiddle, not a fresh unitRoot. -/
theorem test_running_twiddle :
    runningTwiddle 4 3 = ⟨fp64 0xBFE6A09E667F3BCB, fp64 0xBFE6A09E667F3BCE⟩ := by decide +kernel

/-- Section 4: scale of 2^3 and 2^24. -/
theorem test_scale : bits64 0 (scaleOf 8) = 0x3FD6A09E667F3BCC#64 ∧
    bits64 0 (scaleOf (2 ^ 24)) = 0x3F30000000000000#64 := by decide +kernel

/-- The binary32 formats (R8, R11): subnormal results, ties to even, overflow. -/
theorem test_rn32 :
    bits32 0 (rn32 (fp64 0x36A0000000000000)) = 1#32 ∧ bits32 0 (rn32 (fp64 0x3690000000000000)) = 0#32 ∧
    bits32 0 (rn32 (fp64 0x3FF0000030000000)) = 0x3F800002#32 ∧
    bits32 0 (rn32 (fp64 0x47EFFFFFF0000000)) = 0x7F800000#32 := by decide +kernel

/-! ## NOP -/

theorem test_nop : onNext (fun t => (t.regs.status.toNat, t.regs.cmd.toNat)) (exec .nop running) = some (0x2, 0) := by
  decide

/-! ## Host accesses (95 section 9) -/

theorem test_bus_bad_width : errors (State.reset.hostRead 0x001 2) = (0x4, 0x06, 0x001) ∧
    answer (State.reset.hostRead 0x001 2) = some (0, true) := by decide
theorem test_bus_misaligned : errors (State.reset.hostRead 0x082 4) = (0x4, 0x07, 0x082) := by decide
theorem test_bus_unmapped : errors (State.reset.hostRead 0x080 4) = (0x4, 0x08, 0x080) := by decide
theorem test_bus_unmapped_page : errors (State.reset.hostRead 0x1000 8) = (0x4, 0x08, 0x1000) := by decide
theorem test_bus_past_window : errors (State.reset.hostRead 0x18000000 8) = (0x4, 0x08, 0x18000000) := by decide
theorem test_bus_last_slot : errors (State.reset.hostRead 0x17FFFFF8 8) = (0, 0, 0) ∧
    placeAt State.reset.inst 0x17FFFFF8 = some (.slot .inRe 0xFFFFFF) := by decide +kernel
theorem test_bus_past_map : errors (State.reset.hostRead 0x50000000 8) = (0x4, 0x08, 0x50000000) := by decide
theorem test_busy_cmd : errors (running.hostWrite 0x028 4 0) = (0x5, 0x05, 0x028) := by decide
theorem test_busy_slot : errors (running.hostRead 0x30000008 8) = (0x5, 0x05, 0x30000008) := by decide
theorem test_busy_len : errors (running.hostWrite 0x030 4 8) = (0x5, 0x05, 0x030) := by decide
theorem test_busy_status_read : answer (running.hostRead 0x010 4) = some (1, false) := by decide
theorem test_busy_ctrl_write : (running.hostWrite 0x008 4 3).regs.ctrl = 3#32 := by decide
theorem test_second_error : errors (State.hostRead ((withLen 0).issue 0x101) 0x080 4) = (0xE, 0x03, 0x028) := by decide
theorem test_clear_err : errors (State.hostWrite
    (withRegs { Regs.reset with status := 0xE#32, errcode := 3#32, erraddr := 0x28#32 }) 0x010 4 4) = (0xA, 0, 0) := by
  decide
theorem test_id : answer (State.reset.hostRead 0x000 8) = some (0x46465401, false) ∧
    answer (State.reset.hostRead 0x004 4) = some (0, false) := by decide
theorem test_upper_half : answer ((State.reset.hostWrite 0x054 4 0x3FF00000).hostRead 0x050 8) =
    some (0x3FF0000000000000, false) := by decide
theorem test_cmd_wide : (State.reset.hostWrite 0x028 8 0xFFFFFFFF00000000).pending = some .nop ∧
    (State.reset.hostWrite 0x02C 4 1).pending = none := by decide
theorem test_little_endian : ((State.reset.setSlot .inRe 0 0x0123456789ABCDEF).byte 0x10000000,
    (State.reset.setSlot .inRe 0 0x0123456789ABCDEF).byte 0x10000007) = (0xEF#8, 0x01#8) := by decide
theorem test_irq : (withRegs { Regs.reset with ctrl := 1#32, status := 2#32 }).irq = true ∧
    (withRegs { Regs.reset with ctrl := 2#32, status := 2#32 }).irq = false := by decide

/-! ## The step -/

/-- An accepted command completes at the engine's step: BUSY, then DONE (95 section 8, the first row). -/
theorem test_step_nop : onNext (fun t => t.regs.status.toNat) (step running) = some 0x2 := by decide

/-- A host write to CMD makes the command pending, at the platform's address BASE + 0x028. -/
theorem test_step_cmd_write :
    onNext (fun t => (t.pending, t.regs.status.toNat)) (step { State.reset with
      inst := ⟨24, 3⟩, world := { State.reset.world with inputs := [.write 0x300000028 4 6] } }) =
    some (some .cadd, 0x1) := by decide

/-- An access with a command still running is refused, and with LATENCY 0 it comes after the command (95 section 9,
the race): both are runs of the model. -/
theorem test_race :
    onNext (fun t => t.regs.errcode.toNat) (step { running with
      world := { running.world with inputs := [.write 0x10000000 8 1], delay := 1 } }) = some 0x05 ∧
    onNext (fun t => (t.regs.status.toNat, t.world.inputs.length)) (step { running with
      world := { running.world with inputs := [.write 0x10000000 8 1], delay := 0 } }) = some (0x2, 1) := by decide

/-- A reset while a command runs abandons it. -/
theorem test_step_reset :
    onNext (fun t => (t.pending, t.regs.status.toNat)) (step { running with
      world := { running.world with inputs := [.reset true], delay := 1 } }) = some (none, 0) := by decide

/-- `withFetchWord` makes the next step run the word. -/
theorem test_fetch_word :
    onNext (fun t => (t.regs.resRe, t.regs.status.toNat)) (step
      ((withOps 0x3FF0000000000000 0 0x3FF0000000000000 0).withFetchWord 32 0x6)) =
      some (0x4000000000000000#64, 0x2) := by decide +kernel

/-! ## Witnesses: the hypotheses of the statements can be met, at the boundaries of their clauses -/

/-- CommandsAndWordsCorrespond: a word that decodes. -/
theorem witness_CommandsAndWordsCorrespond : decode 0x304#32 = .ok (.bfly .f64 .swap) := by decide

/-- ValidLengthsArePowersOfTwo, SetupPermutesAndScales, BflyComputesTheStages, TransformsComputeButterflyOfSetup and
BflyOfLengthOneTouchesNothing: 2^24, the greatest valid length, and 1; BFLY runs a stage from 2 on. -/
theorem witness_validLen : validLen (withLen 0x01000000#32).inst 0x01000000#32 = true ∧
    validLen (withLen 1#32).inst 1#32 = true ∧ (withLen 1#32).lenN = 1 ∧
    validLen (withLen 2#32).inst 2#32 = true ∧ 1 < (withLen 2#32).lenN := by decide

/-- ReservedEncodingsAreRejected: both clauses, and each cause of the second, as the low half of a wide write. -/
theorem witness_ReservedEncodingsAreRejected : State.reset.regs.busy = false ∧
    0xB#32 = (0xFFFFFFFF0000000B#64).extractLsb' 0 32 ∧
    0xB ≤ ((0xB#32).extractLsb' 0 4).toNat ∧
    ((0x8000001A#32).extractLsb' 0 4).toNat ≤ 0xA ∧ (0x8000001A#32).extractLsb' 4 4 ≠ 0#4 ∧
    (0x8000001A#32).extractLsb' 10 22 ≠ 0#22 ∧
    ((0x105#32).getLsbD 8 = true ∧ ((0x105#32).extractLsb' 0 4).toNat ∉ [1, 2, 3, 4]) ∧
    ((0x203#32).getLsbD 9 = true ∧ ((0x203#32).extractLsb' 0 4).toNat ≠ 4) := by decide

theorem witness_StepRunsThePendingCommand : running.pending = some .nop ∧ engineReady running = true ∧
    decodeTableWord 32 0x101 = some (.fwd .f64) := by decide

theorem witness_CommandWrite : (withLen 4#32).regs.busy = false ∧
    decode ((0xFFFFFFFF00000101#64).extractLsb' 0 32) = .ok (.fwd .f64) ∧
    validLen (withLen 4#32).inst (withLen 4#32).regs.len = true ∧
    decode ((0x5#64).extractLsb' 0 32) = .ok .bitrev ∧ (withIdx 6#32 24#32).regs.bits.toNat ≤ 24 := by decide

/-- InvalidLengthsAreRejected: 0, 3 and the first length above the capacity. -/
theorem witness_InvalidLengthsAreRejected :
    (withLen 0#32).regs.busy = false ∧ 0x304#32 = (0xFFFFFFFF00000304#64).extractLsb' 0 32 ∧
    decode 0x304#32 = .ok (.bfly .f64 .swap) ∧ (withLen 0#32).regs.len.toNat = 0 ∧
    (∀ k, (withLen 3#32).regs.len.toNat ≠ 2 ^ k) ∧
    2 ^ ((withLen 0x02000000#32).inst.nmaxLog2 : Nat) < (withLen 0x02000000#32).regs.len.toNat := by
  refine ⟨by decide, by decide, by decide, by decide, fun k h => ?_, by decide⟩
  have h : 3 = 2 ^ k := h
  rcases k with _ | _ | k
  · simp at h
  · simp at h
  · omega

/-- InvalidBitsAreRejected, and BitrevResult at its greatest width. -/
theorem witness_InvalidBitsAreRejected : (withIdx 6#32 24#32).regs.bits.toNat ≤ 24 ∧ 23 < 24 ∧ decode 5#32 = .ok .bitrev ∧
    24 < (withIdx 6#32 25#32).regs.bits.toNat ∧ (withIdx 6#32 25#32).regs.busy = false ∧
    5#32 = (0xFFFFFFFF00000005#64).extractLsb' 0 32 := by decide

/-- EveryCommandCompletesWithoutError: one state meets the premise for every command. -/
theorem witness_EveryCommandCompletes (i : Instr) : operandError (withLen 1#32) i = none := by
  cases i with
  | bfly p r => rfl
  | _ => rfl

/-- RomReversesSixBits, BitrevReversesTheLowBits, BitrevIsAnInvolutiveBijection, ScaleOfPowersOfTwo and
TwiddleArgumentsAreExact: the bounds are met by their greatest values, and the values are the spec's. -/
theorem witness_bounds : rev6 63 = 63 ∧ bitrev (2 ^ 24 - 1) 24 = 2 ^ 24 - 1 ∧ bitrev 5 0 = 0 ∧ 4 ^ 12 = 2 ^ 24 ∧
    2 * 4 ^ 11 = 2 ^ 23 := by decide

theorem witness_RegisterCommandsFrame : ∃ t u v, exec .cadd State.reset = .next t ∧
    exec .bitrev State.reset = .next u ∧ exec .nop State.reset = .next v := ⟨_, _, _, rfl, rfl, rfl⟩

/-- SetupOfLengthOneIsTheIdentity: an ordinary and a NaN sample, in both formats. -/
theorem witness_SetupOfLengthOne :
    (withPair 1 .inRe .inIm [0x3FF0000000000000] [0x7FF8000000000001]).regs.len = 1#32 ∧
    fp64 ((withPair 1 .inRe .inIm [0x3FF0000000000000] [0x7FF8000000000001]).slot .inRe 0) ≠ .nan ∧
    fp64 ((withPair 1 .inRe .inIm [0x3FF0000000000000] [0x7FF8000000000001]).slot .inIm 0) = .nan ∧
    fp32to64 (((withPair 1 .inRe .inIm [0x3F800000] [0x7FC00001]).slot .inRe 0).extractLsb' 0 32) ≠ .nan ∧
    fp32to64 (((withPair 1 .inRe .inIm [0x3F800000] [0x7FC00001]).slot .inIm 0).extractLsb' 0 32) = .nan := by
  decide +kernel

/-- BufferCommandsFrame and TransformsAreSetupThenBfly. -/
theorem witness_BufferCommandsFrame : ∃ t u v, exec (.setup .f64) (withLen 1#32) = .next t ∧
    exec (.bfly .f64 .swap) (withLen 1#32) = .next u ∧ exec (.inv .f32) (withLen 1#32) = .next v ∧
    (Instr.setup .f64).usesLen = true := ⟨_, _, _, rfl, rfl, rfl, rfl⟩

/-- TransformsDependOnTheInputOnly: two states that differ beside the input. -/
theorem witness_TransformsDependOnTheInputOnly :
    (withPair 1 .inRe .inIm [0x3FF0000000000000] [0]).regs.len =
      ({ withPair 1 .inRe .inIm [0x3FF0000000000000] [0] with draws := 7 } : State).regs.len ∧
    ∀ k, k < (withPair 1 .inRe .inIm [0x3FF0000000000000] [0]).lenN →
      (withPair 1 .inRe .inIm [0x3FF0000000000000] [0]).ld .inRe k .f64 =
        ({ withPair 1 .inRe .inIm [0x3FF0000000000000] [0] with draws := 7 } : State).ld .inRe k .f64 :=
  ⟨rfl, fun _ _ => rfl⟩

/-- ArithmeticRoundsTheExactResultOnce: a divisor that is not 0, and the two kinds of radicand. -/
theorem witness_Arithmetic : fdiv (.fin true oneUnits) fpOne = .fin true oneUnits ∧ fsqrt fpOne = fpOne ∧
    fsqrt (.fin true 0) = .fin true 0 := by decide +kernel

/-- StoringRoundsToBinary32Once: the bytes next to a slot on either side. -/
theorem witness_Storing : slotAddr .outRe 1 - 1 < slotAddr .outRe 1 ∧ slotAddr .outRe 1 + 8 ≤ slotAddr .outRe 2 := by
  decide

/-- SpecialValuesFollowIeee754: the least magnitude that is not 0, by the signs of the spec's rules. -/
theorem witness_SpecialValues : 1 ≠ 0 ∧ fmul (.inf true) (.fin true 1) = .inf false ∧
    fdiv (.fin true 1) (.fin false 0) = .inf true ∧ fdiv (.fin true 0) (.fin true 1) = .fin false 0 ∧
    fsqrt (.fin true 1) = .nan := by decide +kernel

theorem witness_StorageFormatsRoundTrip : fp64 1#64 ≠ .nan ∧ fp32to64 1#32 ≠ .nan := by decide +kernel

/-- UnitRootIsCorrectlyRounded: each clause's argument: NaN, a product that overflows, a zero, and 1.0. -/
theorem witness_UnitRoot : fmul piFp .nan = .nan ∧ fmul piFp (fp64 0x7FE1CCF385EBC8A0) = .inf false ∧
    fmul piFp (.fin true 0) = .fin true 0 ∧
    ∃ u, fmul piFp fpOne = .fin false u ∧ u ≠ 0 ∧ TrigSettled false u ∧ TrigSettled true u := by
  refine ⟨rfl, by decide +kernel, by decide +kernel, 884279719003555 * 8 * 2 ^ 1023, by decide +kernel,
    by decide +kernel, ⟨96, by decide, ?_⟩, ⟨96, by decide, ?_⟩⟩ <;> decide +kernel

/-- BusErrorsInPriorityOrder: the last slot of a window and the offset after it, the registers' end, and the busy
lockout. -/
theorem witness_BusErrors : inSlot State.reset.inst 0x17FFFFFF ∧ ¬ inSlot State.reset.inst 0x18000000 ∧
    ¬ inSlot State.reset.inst 0x80 ∧ running.regs.busy = true ∧ (0x2C#32).toNat / 8 ∈ [5, 6, 7, 8, 10, 11, 12, 13] ∧
    (0x6C#32).toNat % 4 = 0 ∧ (0x6C#32).toNat / 8 ∈ [5, 6, 7, 8, 10, 11, 12, 13] := by
  have hs : State.reset.inst.slots = 2 ^ 24 := rfl
  refine ⟨⟨.inRe, 0xFFFFFF, by decide +kernel, by decide, by decide⟩, ?_, ?_, by decide, by decide, by decide,
    by decide⟩
  · rintro ⟨b, k, hk, h1, h2⟩
    rw [hs] at hk
    cases b <;> simp only [slotAddr, Buf.window] at h1 h2 <;> omega
  · rintro ⟨b, k, -, h1, -⟩
    cases b <;> simp only [slotAddr, Buf.window] at h1 <;> omega

/-- RegistersStayReachableWhileBusy and HostCannotReachARunningCommand: a busy machine, and an access to it. -/
theorem witness_Busy : running.regs.busy = true ∧ answer (running.hostWrite 0x010#32 4 0) = some (0, false) ∧
    answer (running.hostRead 0x078#32 8) = some (0, false) := by decide

theorem witness_ReadsHaveNoSideEffect :
    (State.reset.hostRead 0x000#32 8).world.response = some ⟨0x46465401, false⟩ := by decide

/-- BufferAccesses: the last slot. RegisterWrites shares the premise. -/
theorem witness_BufferAccesses : State.reset.regs.busy = false ∧ 0xFFFFFF < State.reset.inst.slots ∧
    (BitVec.ofNat 32 (slotAddr .outIm 0xFFFFFF + 4)).toNat = slotAddr .outIm 0xFFFFFF + 4 := by decide +kernel

/-- StatusWritesClearWhereOne and SlotsAreLittleEndian: the bounds are met by both widths and the last byte. -/
theorem witness_widths : answer (State.reset.hostWrite 0x010#32 8 0xE) = some (0, false) ∧
    answer (State.reset.hostWrite 0x010#32 4 0xE) = some (0, false) ∧ 7 < 8 := by decide

theorem witness_ErrorsDoNotBlockCommands : Accepted State.reset (State.reset.issue 6#32) 6#32 .cadd := by
  refine ⟨fun j => ?_, rfl⟩
  rcases j with _ | _ | j
  · rfl
  · rfl
  · show ((0#32 &&& ~~~2#32) ||| 1#32).getLsbD (j + 2) = _
    simp [State.reset, Regs.reset, BitVec.getLsbD_one]

/-- InterruptFollowsDoneAndErr: each way DONE or ERR is cleared, over one step: the host's two writes to STATUS, a
command accepted, and reset. -/
theorem witness_InterruptFollowsDoneAndErr :
    (ended (.reset true)).regs.err = true ∧ (ended (.reset true)).regs.done = true ∧
    onNext (fun t => t.regs.status) (step (ended (.write 0x010 4 4))) = some 2#32 ∧
    onNext (fun t => t.regs.status) (step (ended (.write 0x010 8 2))) = some 4#32 ∧
    onNext (fun t => t.regs.status) (step (ended (.write 0x028 4 0))) = some 5#32 ∧
    onNext (fun t => t.regs.status) (step (ended (.reset true))) = some 0#32 := by decide

/-- ResetInput: a state with reset asserted is what the assertion leaves, whatever was written before. -/
theorem witness_ResetInput : ((State.reset.setSlot .inRe 0 1).input (.reset true)).world.inReset = true ∧
    ((State.reset.setSlot .inRe 0 1).input (.reset true)).mem = [] ∧ (State.reset.setSlot .inRe 0 1).mem ≠ [] := by
  decide

/-- A running command meets the invariant. -/
theorem running_inv : State.Inv running where
  memWf := rfl
  memMapped := fun c hc => absurd hc (by simp [running, State.reset])
  ctrlReserved := fun i _ => by simp [running, Regs.reset]
  statusReserved := fun i hi => by
    show (1#32).getLsbD i = false
    rw [BitVec.getLsbD_one]; simp; omega
  busyPending := rfl
  accepted := fun i hi => by cases hi; rfl
  errNamed := fun h => absurd h (by decide)
  errClear := fun _ => ⟨rfl, rfl⟩

/-- StepKeepsTheInvariant, RunsAreSafe, PendingCommandsRunToCompletion, ParametersAreFixed and
OnlyTheirCommandsWriteResults. -/
theorem witness_Step : State.Inv running ∧ running.pending = some .nop ∧ engineReady running = true ∧
    ∃ t, step running = .next t := ⟨running_inv, rfl, rfl, _, rfl⟩

/-- AcceptedCommandsComplete: a command with an access before its completion. -/
theorem witness_AcceptedCommandsComplete :
    let s : State := { running with world := { running.world with inputs := [.read 0x10 4], delay := 1 } }
    State.Inv s ∧ s.regs.busy = true ∧ s.world.inReset = false ∧
      ∀ x ∈ s.world.inputs.take s.world.delay, x ≠ .reset true := by
  refine ⟨⟨running_inv.1, running_inv.2, running_inv.3, running_inv.4, running_inv.5, running_inv.6, running_inv.7,
    running_inv.8⟩, rfl, rfl, fun x hx => ?_⟩
  simp only [List.take_succ_cons, List.take_nil, List.mem_singleton] at hx
  simp [hx]

/-- OnlyTheirCommandsWriteResults: each of its results is changed by some step. -/
theorem witness_OnlyTheirCommands :
    onNext (fun t => t.regs.resRe) (step ((withOps 0x3FF0000000000000 0 0 0).withFetchWord 32 0x6)) =
      some 0x3FF0000000000000#64 ∧
    onNext (fun t => t.regs.ridx) (step ((withIdx 6 3).withFetchWord 32 0x5)) = some 3#32 ∧
    onNext (fun t => t.mem.length) (step { State.reset with
      world := { State.reset.world with inputs := [.write 0x10000000 8 1] } }) = some 8 := by decide +kernel

theorem witness_HostAccessesAreTakenInOrder :
    let s : State := { State.reset with world := { State.reset.world with inputs := [.read 0x10 4] } }
    engineReady s = false ∧ s.world.inputs = [.read 0x10 4] ∧ engineReady State.reset = false ∧
      State.reset.world.inputs = [] := by decide

/-- HostAddressesReachLocalOffsets: the first and the last offset of page 3, and the address after it; reset is
released, and an access is answered. -/
theorem witness_HostAddresses : Params.localOffset ⟨24, 3⟩ 0x300000000 = some 0#32 ∧
    Params.localOffset ⟨24, 3⟩ 0x3FFFFFFFF = some 0xFFFFFFFF#32 ∧ Params.localOffset ⟨24, 3⟩ 0x400000000 = none ∧
    0x3FFFFFFFF = Params.base ⟨24, 3⟩ + (0xFFFFFFFF#32).toNat ∧ State.reset.world.inReset = false ∧
    answer (({ State.reset with inst := ⟨24, 3⟩ } : State).input (.read 0x300000000 4)) = some (0x46465401, false) := by
  decide

end Sys2Proof.Tests
end

section
/-! SUPPORT. Rounding of the datapath's operations (00_scope.md R9, R11): the real number a finite result stands for,
and the special values. -/

namespace Sys2Proof.Machine

/-! ## Sums of finite values -/

theorem sgn_not (n : Bool) : sgn (!n) = -sgn n := by cases n <;> simp [sgn]

theorem fpReal_add_same (n : Bool) (u v : ℕ) :
    fpReal (.fin n u) + fpReal (.fin n v) = fpReal (.fin n (u + v)) := by
  simp only [fpReal_fin]
  push_cast
  ring

theorem fpReal_add_opposite (n : Bool) {u v : ℕ} (h : v ≤ u) :
    fpReal (.fin n u) + fpReal (.fin (!n) v) = fpReal (.fin n (u - v)) := by
  simp only [fpReal_fin, sgn_not]
  push_cast [h]
  ring

/-- A whole number of units, whatever its size, is rounded once. -/
theorem fin_roundsTo_ofRatio (n : Bool) (u : ℕ) : RoundsTo (fpReal (.fin n u)) (ofRatio n u 1) := by
  have hone := oneUnits_posR
  exact signed_rounds n (by positivity) u one_pos (by rw [Nat.cast_one]; field_simp)

theorem faddFin_roundsTo (n : Bool) (u : ℕ) (m : Bool) (v : ℕ) :
    RoundsTo (fpReal (.fin n u) + fpReal (.fin m v)) (faddFin n u m v) := by
  unfold faddFin
  split_ifs with hnm huv hlt
  · subst hnm
    rw [fpReal_add_same]
    exact fin_roundsTo_ofRatio n (u + v)
  all_goals obtain rfl : m = !n := Bool.eq_not.mpr (Ne.symm hnm)
  · rw [fpReal_add_opposite n huv.ge, huv, Nat.sub_self, fpReal_fin, Nat.cast_zero, zero_div, mul_zero]
    exact roundsTo_zero false
  · rw [fpReal_add_opposite n hlt.le]
    exact fin_roundsTo_ofRatio n (u - v)
  · have hsum := fpReal_add_opposite (!n) (u := v) (v := u) (by omega)
    rw [Bool.not_not, add_comm] at hsum
    rw [hsum]
    exact fin_roundsTo_ofRatio (!n) (v - u)

theorem fsub_roundsTo (n : Bool) (u : ℕ) (m : Bool) (v : ℕ) :
    RoundsTo (fpReal (.fin n u) - fpReal (.fin m v)) (fsub (.fin n u) (.fin m v)) := by
  rw [sub_eq_add_neg, ← fneg_real]
  exact faddFin_roundsTo n u (!m) v

/-! ## Products, quotients and roots of finite values -/

theorem fmul_roundsTo (n : Bool) (u : ℕ) (m : Bool) (v : ℕ) :
    RoundsTo (fpReal (.fin n u) * fpReal (.fin m v)) (fmul (.fin n u) (.fin m v)) := by
  have hone := oneUnits_posR
  rw [fpReal_fin, fpReal_fin, mul_mul_mul_comm, ← sgn_xor]
  exact signed_rounds _ (by positivity) (u * v) oneUnits_pos (by push_cast; field_simp)

theorem sgn_div (n m : Bool) : sgn n / sgn m = sgn (n ^^ m) := by cases n <;> cases m <;> simp [sgn]

theorem fdiv_roundsTo (n : Bool) (u : ℕ) (m : Bool) {v : ℕ} (hv : v ≠ 0) :
    RoundsTo (fpReal (.fin n u) / fpReal (.fin m v)) (fdiv (.fin n u) (.fin m v)) := by
  have hone := oneUnits_posR
  have hvR : (v : ℝ) ≠ 0 := Nat.cast_ne_zero.mpr hv
  rw [fpReal_fin, fpReal_fin, mul_div_mul_comm, sgn_div, fdiv, if_neg hv]
  exact signed_rounds _ (by positivity) (u * oneUnits) (Nat.pos_of_ne_zero hv) (by push_cast; field_simp)

/-- In units, the root of `u` units is the root of the whole number `u * oneUnits`. -/
theorem sqrt_units (u : ℕ) : √((u : ℝ) / oneUnits) * oneUnits = √((u * oneUnits : ℕ) : ℝ) := by
  have hone := oneUnits_posR
  rw [← Real.sqrt_mul_self hone.le, ← Real.sqrt_mul (by positivity), Real.sqrt_mul_self hone.le]
  congr 1
  push_cast
  field_simp

theorem fsqrt_roundsTo {n : Bool} {u : ℕ} (h : n = false ∨ u = 0) :
    RoundsTo (√(fpReal (.fin n u))) (fsqrt (.fin n u)) := by
  by_cases hu : u = 0
  · subst hu
    simpa [fpReal, fsqrt] using roundsTo_zero n
  · obtain rfl : n = false := h.resolve_right hu
    have hval : fpReal (.fin false u) = u / oneUnits := by rw [fpReal_fin, sgn, if_neg (by decide), one_mul]
    have hlarge : 2 ^ 1074 ≤ u * oneUnits := by
      unfold oneUnits
      exact Nat.le_mul_of_pos_left _ (Nat.pos_of_ne_zero hu)
    rw [hval, fsqrt, if_neg hu, if_neg (by decide)]
    refine ⟨false, roundRatio 53 (sqrtSticky (u * oneUnits)) 2, ?_, rfl, ?_, fun _ => rfl⟩
    · rw [abs_of_nonneg (Real.sqrt_nonneg _), sqrt_units]
      exact sqrt_round hlarge
    · exact fun hneg => absurd hneg (not_lt.mpr (Real.sqrt_nonneg _))

/-! ## Zeros, infinities and NaNs -/

@[simp] theorem ofRatio_zero (n : Bool) (den : ℕ) : ofRatio n 0 den = .fin n 0 := by
  have hround : roundRatio 53 0 den = 0 := by simp [roundRatio, rneDiv]
  rw [ofRatio, hround, if_pos overflowUnits64_pos]

theorem fadd_nan_right (a : Fp) : fadd a .nan = .nan := by cases a <;> rfl

theorem fmul_nan_right (a : Fp) : fmul a .nan = .nan := by cases a <;> rfl

theorem fdiv_nan_right (a : Fp) : fdiv a .nan = .nan := by cases a <;> rfl

/-- An exact zero sum of operands of unlike sign is +0. -/
theorem fadd_cancel (n : Bool) (u : ℕ) : fadd (.fin n u) (.fin (!n) u) = .fin false 0 := by
  simp [fadd, faddFin, fpZero]

theorem fadd_zero_like (n : Bool) : fadd (.fin n 0) (.fin n 0) = .fin n 0 := by
  simp [fadd, faddFin]

theorem fsub_inf_inf (n m : Bool) : fsub (.inf n) (.inf m) = if n = m then .nan else .inf n := by
  cases n <;> cases m <;> rfl

theorem fmul_zero_left (n m : Bool) (u : ℕ) : fmul (.fin n 0) (.fin m u) = .fin (n ^^ m) 0 := by
  rw [fmul, Nat.zero_mul, ofRatio_zero]

theorem fmul_zero_right (n m : Bool) (u : ℕ) : fmul (.fin n u) (.fin m 0) = .fin (n ^^ m) 0 := by
  rw [fmul, Nat.mul_zero, ofRatio_zero]

theorem fmul_inf_left (n m : Bool) {u : ℕ} (hu : u ≠ 0) : fmul (.inf n) (.fin m u) = .inf (n ^^ m) := if_neg hu

theorem fmul_inf_right (n m : Bool) {u : ℕ} (hu : u ≠ 0) : fmul (.fin n u) (.inf m) = .inf (n ^^ m) := if_neg hu

theorem fdiv_by_zero (n m : Bool) {u : ℕ} (hu : u ≠ 0) : fdiv (.fin n u) (.fin m 0) = .inf (n ^^ m) := by
  rw [fdiv, if_pos rfl, if_neg hu]

theorem fdiv_zero_left (n m : Bool) {u : ℕ} (hu : u ≠ 0) : fdiv (.fin n 0) (.fin m u) = .fin (n ^^ m) 0 := by
  rw [fdiv, if_neg hu, Nat.zero_mul, ofRatio_zero]

theorem fsqrt_negative {u : ℕ} (hu : u ≠ 0) : fsqrt (.fin true u) = .nan := if_neg hu

end Sys2Proof.Machine
end

section
/-! SUPPORT. The storage formats hold their values exactly (00_scope.md R8, R11), and what a store leaves in its slot. -/

namespace Sys2Proof.Machine

/-! ## A pattern from its sign, exponent and fraction -/

theorem toNat_sign_append (n : Bool) {w x : ℕ} (h : x < 2 ^ w) :
    (BitVec.ofBool n ++ BitVec.ofNat w x).toNat = n.toNat * 2 ^ w + x := by
  rw [BitVec.toNat_append, BitVec.toNat_ofNat, Nat.mod_eq_of_lt h, ← Nat.shiftLeft_add_eq_or_of_lt h,
    Nat.shiftLeft_eq, BitVec.toNat_ofBool]

/-- A binary64 pattern is its sign, its exponent field and its fraction field. -/
theorem sign_exp_frac64 (b : DWord) : (BitVec.ofBool (b.getLsbD 63) ++
    BitVec.ofNat 63 ((b.extractLsb' 52 11).toNat * 2 ^ 52 + (b.extractLsb' 0 52).toNat) : DWord) = b := by
  have he := (b.extractLsb' 52 11).isLt
  have hf := (b.extractLsb' 0 52).isLt
  apply BitVec.eq_of_toNat_eq
  rw [toNat_sign_append _ (by omega), BitVec.getLsbD, Nat.toNat_testBit, BitVec.extractLsb'_toNat,
    BitVec.extractLsb'_toNat, Nat.shiftRight_eq_div_pow, Nat.shiftRight_zero]
  have hb := b.isLt
  omega

/-- A binary32 pattern is its sign, its exponent field and its fraction field. -/
theorem sign_exp_frac32 (b : Word) : (BitVec.ofBool (b.getLsbD 31) ++
    BitVec.ofNat 31 ((b.extractLsb' 23 8).toNat * 2 ^ 23 + (b.extractLsb' 0 23).toNat) : Word) = b := by
  have he := (b.extractLsb' 23 8).isLt
  have hf := (b.extractLsb' 0 23).isLt
  apply BitVec.eq_of_toNat_eq
  rw [toNat_sign_append _ (by omega), BitVec.getLsbD, Nat.toNat_testBit, BitVec.extractLsb'_toNat,
    BitVec.extractLsb'_toNat, Nat.shiftRight_eq_div_pow, Nat.shiftRight_zero]
  have hb := b.isLt
  omega

/-! ## The pattern of the value of a pattern -/

theorem bits64_inf (d : ℕ) (n : Bool) :
    bits64 d (.inf n) = BitVec.ofBool n ++ BitVec.ofNat 63 (2047 * 2 ^ 52 + 0) := by cases n <;> rfl

theorem bits32_inf (d : ℕ) (n : Bool) :
    bits32 d (.inf n) = BitVec.ofBool n ++ BitVec.ofNat 31 (255 * 2 ^ 23 + 0) := by cases n <;> rfl

theorem bits64_fp64 (d : ℕ) {b : DWord} (h : fp64 b ≠ .nan) : bits64 d (fp64 b) = b := by
  refine Eq.trans ?_ (sign_exp_frac64 b)
  have hf := (b.extractLsb' 0 52).isLt
  unfold fp64 at h ⊢
  simp only at h ⊢
  split_ifs at h ⊢ with he hf0
  · rw [he, hf0, bits64_inf]
  · exact absurd rfl h
  · rw [bits64, magnitudeBits_magnitudeUnits hf]

theorem bits32_fp32to64 (d : ℕ) {b : Word} (h : fp32to64 b ≠ .nan) : bits32 d (fp32to64 b) = b := by
  refine Eq.trans ?_ (sign_exp_frac32 b)
  have hf := (b.extractLsb' 0 23).isLt
  unfold fp32to64 at h ⊢
  simp only at h ⊢
  split_ifs at h ⊢ with he hf0
  · rw [he, hf0, bits32_inf]
  · exact absurd rfl h
  · rw [bits32, Nat.mul_div_cancel _ unitsPer32_pos, magnitudeBits_magnitudeUnits hf]

theorem two_pow_le_overflowUnits32 {e : ℕ} (h : e ≤ 277) : 2 ^ e ≤ overflowUnits32 := by
  unfold overflowUnits32
  exact Nat.pow_le_pow_right two_pos h

/-- A binary32 value is its own rounding to binary32. -/
theorem rn32_fp32to64 (b : Word) : rn32 (fp32to64 b) = fp32to64 b := by
  have hf := (b.extractLsb' 0 23).isLt
  unfold fp32to64
  simp only
  split_ifs with he hf0
  · rfl
  · rfl
  · have hlt : (b.extractLsb' 23 8).toNat < 255 := by have := (b.extractLsb' 23 8).isLt; omega
    rw [rn32, roundRatio_exact unitsPer32_pos (magnitudeUnits_fits hf),
      if_pos ((magnitudeUnits_lt hf hlt).trans_le (two_pow_le_overflowUnits32 (by norm_num)))]

theorem quietNan64_quiet (x : BitVec 52) : (quietNan64 x).getLsbD 51 = true := by
  rw [quietNan64, BitVec.getLsbD_append, BitVec.getLsbD_append]
  simp

theorem quietNan32_quiet (x : BitVec 23) : (quietNan32 x).getLsbD 22 = true := by
  rw [quietNan32, BitVec.getLsbD_append, BitVec.getLsbD_append]
  simp

/-! ## A store with PREC = 0 -/

/-- Every value, whether binary64 has it or not, is read back from a binary32 slot rounded once. -/
theorem ld_st_f32 (s : State) (b : Buf) (k : ℕ) (x : Fp) : (s.st b k .f32 x).ld b k .f32 = rn32 x := by
  simp only [State.ld, st_slot_same, storeBits, extract_setWidth]
  exact fp32to64_bits32_rn32 s.draws x

end Sys2Proof.Machine
end

section
/-! SUPPORT. What the engine's step on a command leaves: it completes (60_exceptions.md R108). -/

namespace Sys2Proof.Machine

theorem exec_completed {i : Instr} {s t : State} (h : exec i s = .next t) : Completed s t := by
  cases i with
  | nop => cases h; exact (RegFrame.refl s).completed
  | fwd p => cases h; exact ((setup_regs ..).trans (butterfly_regs ..)).completed
  | inv p => cases h; exact ((setup_regs ..).trans (butterfly_regs ..)).completed
  | setup p => cases h; exact (setup_regs ..).completed
  | bfly p r => cases h; exact (butterfly_regs ..).completed
  | bitrev => cases h; exact complete_spec s _ rfl rfl rfl rfl
  | cadd => cases h; exact writeRes_completed ..
  | csub => cases h; exact writeRes_completed ..
  | cmul => cases h; exact writeRes_completed ..
  | cmag => cases h; exact writeRes_completed ..
  | uroot => cases h; exact writeRes_completed ..

theorem step_inst {s t : State} (h : step s = .next t) : t.inst = s.inst := by
  rcases step_cases h with ⟨-, i, -, hexec⟩ | ⟨-, -, rfl⟩ | ⟨-, x, xs, -, rfl⟩
  · exact (exec_completed hexec).inst
  · rfl
  · exact input_inst _ x

end Sys2Proof.Machine
end

section
/-! CERTIFICATES. The statements of 00_scope.md. -/

namespace Sys2Proof.Machine

/-- Settles O32: by operation, the result is the exact real result in units, rounded once. -/
theorem arithmeticRoundsTheExactResultOnce : Obligations.ArithmeticRoundsTheExactResultOnce := by
  intro n m u v
  exact ⟨faddFin_roundsTo n u m v, fsub_roundsTo n u m v, fmul_roundsTo n u m v, fdiv_roundsTo n u m, fsqrt_roundsTo⟩

/-- Settles O33: the slot is read back as `rn32` of the stored value, which is the rounding of its units to 24 bits. -/
theorem storingRoundsToBinary32Once : Obligations.StoringRoundsToBinary32Once := by
  intro s b k n u
  refine ⟨⟨roundRatio 24 u unitsPer32, roundRatio_isRounding (by norm_num) u unitsPer32_pos, ld_st_f32 s b k _⟩,
    ld_st_f32 s b k _, ld_st_f32 s b k _, fun x => ⟨?_, st_slot_same s b k .f64 x⟩, st_byte_outside s b k⟩
  rw [st_slot_same]
  exact storeBits_f32_high s.draws x

/-- Settles O36: the fields of a pattern give it back, and a drawn NaN has its quiet bit set. -/
theorem storageFormatsRoundTrip : Obligations.StorageFormatsRoundTrip := by
  refine ⟨fun d b h => bits64_fp64 d h, fun d b h => ?_, fun d =>
    ⟨fp64_quietNan64 _, quietNan64_quiet _, fp32to64_quietNan32 _, quietNan32_quiet _⟩⟩
  rw [rn32_fp32to64, bits32_fp32to64 d h]

/-- Settles O58: a command completes with the parameters it started with, and no input changes them. -/
theorem parametersAreFixed : Obligations.ParametersAreFixed := fun _ _ => step_inst

/-- Settles O34: a row that is an equation of the operation's definition is `rfl`; the others are named lemmas. -/
theorem specialValuesFollowIeee754 : Obligations.SpecialValuesFollowIeee754 := by
  intro n m u a
  refine ⟨⟨rfl, rfl, rfl, fadd_cancel n u, fadd_zero_like n, rfl, fadd_nan_right a⟩,
    ⟨fsub_inf_inf n m, rfl, rfl, ?_, ?_, rfl, fadd_nan_right a⟩,
    ⟨rfl, fun hu => ⟨fmul_inf_left n m hu, fmul_inf_right n m hu⟩, rfl, rfl, fmul_zero_left n m u,
      fmul_zero_right n m u, rfl, fmul_nan_right a⟩,
    ⟨rfl, rfl, rfl, rfl, fun hu => ⟨fdiv_by_zero n m hu, fdiv_zero_left n m hu⟩, rfl, fdiv_nan_right a⟩,
    rfl, rfl, rfl, fsqrt_negative, rfl⟩
  · exact fadd_cancel n u
  · rw [fsub, fneg, Bool.not_not, fadd_zero_like]

end Sys2Proof.Machine
end

section
/-! SUPPORT. The operands a command is accepted with: the lengths R60 calls valid, and the range of the bit reversal
(41_bitrev.md R76 to R78). -/

namespace Sys2Proof.Machine

/-- Valid lengths are the powers of two up to the number of slots (30_encoding.md R60). -/
theorem validLen_iff {p : Params} {n : Word} :
    validLen p n = true ↔ ∃ k, k ≤ (p.nmaxLog2 : Nat) ∧ n.toNat = 2 ^ k := by
  have hsub (h : n.toNat ≠ 0) : (n - 1#32).toNat = n.toNat - 1 := by
    have := n.isLt
    rw [BitVec.toNat_sub]
    simp only [BitVec.toNat_ofNat]
    omega
  have hpow : (n != 0#32 && n &&& (n - 1#32) == 0#32) = true ↔ n.toNat.isPowerOfTwo := by
    rw [← Nat.ne_zero_and_sub_one_eq_zero_iff_isPowerOfTwo]
    simp only [Bool.and_eq_true, bne_iff_ne, ne_eq, beq_iff_eq, ← BitVec.toNat_inj, BitVec.toNat_and]
    exact and_congr_right fun h => by rw [hsub h]; rfl
  rw [validLen, Bool.and_eq_true, hpow, decide_eq_true_eq, Params.slots]
  constructor
  · rintro ⟨⟨k, hk⟩, hle⟩
    exact ⟨k, (Nat.pow_le_pow_iff_right (by norm_num)).mp (hk ▸ hle), hk⟩
  · rintro ⟨k, hle, hk⟩
    exact ⟨⟨k, hk⟩, hk ▸ Nat.pow_le_pow_right (by norm_num) hle⟩

theorem lenN_of_validLen {s : State} (hv : validLen s.inst s.regs.len = true) :
    ∃ k, k ≤ 24 ∧ s.lenN = 2 ^ k ∧ s.lenN ≤ s.inst.slots := by
  obtain ⟨k, hk, hn⟩ := validLen_iff.mp hv
  have := s.inst.nmaxLog2.isLt
  exact ⟨k, by omega, hn, hn.trans_le (Nat.pow_le_pow_right (by norm_num) hk)⟩

theorem rev6_lt (k : Nat) : rev6 k < 2 ^ 6 := by
  by_cases hk : k < 64
  · have hall : ∀ j < 64, rev6 j < 2 ^ 6 := by decide
    exact hall k hk
  · have hlen : rev6Rom.length ≤ k := Nat.not_lt.mp hk
    rw [rev6, List.getD_eq_default _ _ hlen]
    norm_num

theorem rev24_lt (i : Nat) : rev24 i < 2 ^ 24 := by
  have hgroup (k m : Nat) (hm : m ≤ 18) : rev6 k <<< m < 2 ^ 24 :=
    (Nat.shiftLeft_lt (rev6_lt k)).trans_le (Nat.pow_le_pow_right (by norm_num) (by omega))
  exact Nat.or_lt_two_pow (Nat.or_lt_two_pow (Nat.or_lt_two_pow (hgroup _ 18 le_rfl) (hgroup _ 12 (by norm_num)))
    (hgroup _ 6 (by norm_num))) (hgroup _ 0 (by norm_num))

/-- The bit reversal of `b` bits stays below 2^b (41_bitrev.md R78). -/
theorem bitrev_lt (i : Nat) {b : Nat} (hb : b ≤ 24) : bitrev i b < 2 ^ b := by
  rw [bitrev, Nat.shiftRight_eq_div_pow, Nat.div_lt_iff_lt_mul (Nat.two_pow_pos _), ← pow_add,
    Nat.add_sub_cancel' hb]
  exact rev24_lt _

end Sys2Proof.Machine
end

section
/-! SUPPORT. The parts of the invariant: what it says of the registers alone, of the pending command, and of the
memory (`MemInv`), and what keeps each. -/

namespace Sys2Proof.Machine

/-! ## The registers -/

/-- Reserved bits read 0, and ERRCODE and ERRADDR are in step with ERR (10_state.md R21 to R24). -/
structure Regs.Inv (r : Regs) : Prop where
  ctrlReserved : ∀ i, 2 ≤ i → r.ctrl.getLsbD i = false
  statusReserved : ∀ i, 4 ≤ i → r.status.getLsbD i = false
  errNamed : r.err = true → ∃ e : Err, r.errcode = e.code
  errClear : r.err = false → r.errcode = 0 ∧ r.erraddr = 0

/-- BUSY, DONE and the registers without an error field are free. -/
theorem Regs.Inv.congr {r r' : Regs} (h : r.Inv) (hctrl : r'.ctrl = r.ctrl)
    (hstatus : ∀ i, 2 ≤ i → r'.status.getLsbD i = r.status.getLsbD i) (hcode : r'.errcode = r.errcode)
    (haddr : r'.erraddr = r.erraddr) : r'.Inv := by
  have herr : r'.err = r.err := hstatus 2 le_rfl
  constructor
  · rw [hctrl]; exact h.ctrlReserved
  · exact fun i hi => (hstatus i (by omega)).trans (h.statusReserved i hi)
  · rw [herr, hcode]; exact h.errNamed
  · rw [herr, hcode, haddr]; exact h.errClear

theorem reset_regsInv : Regs.reset.Inv :=
  ⟨fun _ _ => BitVec.getLsbD_zero, fun _ _ => BitVec.getLsbD_zero, fun h => absurd h (by decide),
    fun _ => ⟨rfl, rfl⟩⟩

theorem busy_reset : Regs.reset.busy = false := by decide

theorem err_record (r : Regs) (e : Err) (a : Word) : (r.record e a).err = true := by
  rw [Regs.err, record_status_bit]
  rfl

theorem record_regsInv {r : Regs} (h : r.Inv) (e : Err) (a : Word) : (r.record e a).Inv := by
  constructor
  · rw [record_ctrl]; exact h.ctrlReserved
  · intro i hi
    rw [record_status_bit, if_neg (by omega), if_neg (by omega)]
    exact h.statusReserved i hi
  · intro _
    rw [record_errcode]
    split
    next herr => exact h.errNamed herr
    next => exact ⟨e, rfl⟩
  · intro herr
    rw [err_record] at herr
    cases herr

theorem err_writeStatus (r : Regs) (v : Word) : (r.writeStatus v).err = (r.err && !v.getLsbD 2) := by
  rw [Regs.err, writeStatus_bit]
  simp [Regs.err]

theorem busy_writeStatus (r : Regs) (v : Word) : (r.writeStatus v).busy = r.busy := by
  rw [Regs.busy, writeStatus_bit]
  simp [Regs.busy]

theorem writeStatus_regsInv {r : Regs} (h : r.Inv) (v : Word) : (r.writeStatus v).Inv := by
  constructor
  · rw [writeStatus_ctrl]; exact h.ctrlReserved
  · intro i hi
    rw [writeStatus_bit, h.statusReserved i hi, Bool.false_and]
  · rw [err_writeStatus, writeStatus_errcode]
    cases v.getLsbD 2
    · simpa using h.errNamed
    · simp
  · rw [err_writeStatus, writeStatus_errcode, writeStatus_erraddr]
    cases v.getLsbD 2
    · simpa using h.errClear
    · simp

theorem writeCtrl_regsInv {r : Regs} (h : r.Inv) (v : Word) : (r.writeCtrl v).Inv := by
  refine ⟨fun i hi => ?_, h.statusReserved, h.errNamed, h.errClear⟩
  have hmask : (3#32).getLsbD i = false := by
    rw [BitVec.getLsbD, BitVec.toNat_ofNat]
    exact Nat.testBit_lt_two_pow (lt_of_lt_of_le (by norm_num) (Nat.pow_le_pow_right (by norm_num) hi))
  rw [Regs.writeCtrl, BitVec.getLsbD_and, hmask, Bool.and_false]

theorem OperandsOnly.regsInv {r r' : Regs} (ho : OperandsOnly r r') (h : r.Inv) : r'.Inv := by
  rw [ho.eq]
  exact h.congr rfl (fun _ _ => rfl) rfl rfl

theorem Completed.regsInv {s t : State} (hc : Completed s t) (h : s.regs.Inv) : t.regs.Inv := by
  refine h.congr ?_ (fun i hi => ?_) ?_ ?_
  · rw [hc.regs]
  · rw [hc.status, if_neg (by omega), if_neg (by omega)]
  · rw [hc.regs]
  · rw [hc.regs]

theorem Completed.busy {s t : State} (hc : Completed s t) : t.regs.busy = false := by
  rw [Regs.busy, hc.status]
  rfl

/-! ## The pending command -/

/-- BUSY is 1 exactly while a command with valid operands is pending (10_state.md R35, 30_encoding.md R61). -/
structure PendingInv (s : State) : Prop where
  busyPending : s.regs.busy = s.pending.isSome
  accepted : ∀ i, s.pending = some i → operandError s i = none

theorem PendingInv.of_idle {s : State} (hb : s.regs.busy = false) (hp : s.pending = none) : PendingInv s :=
  ⟨by rw [hb, hp]; rfl, fun i hi => by rw [hp] at hi; cases hi⟩

theorem PendingInv.pending_none {s : State} (h : PendingInv s) (hb : s.regs.busy = false) : s.pending = none :=
  Option.not_isSome_iff_eq_none.mp (by rw [← h.busyPending, hb]; exact Bool.false_ne_true)

/-- LEN, BITS and NMAX_LOG2 are all the check of the operands looks at. -/
theorem operandError_congr {s t : State} (hlen : t.regs.len = s.regs.len) (hbits : t.regs.bits = s.regs.bits)
    (hinst : t.inst = s.inst) (i : Instr) : operandError t i = operandError s i := by
  rw [operandError, operandError, hlen, hbits, hinst]

theorem PendingInv.congr {s t : State} (h : PendingInv s) (hpending : t.pending = s.pending)
    (hbusy : t.regs.busy = s.regs.busy) (hlen : t.regs.len = s.regs.len) (hbits : t.regs.bits = s.regs.bits)
    (hinst : t.inst = s.inst) : PendingInv t := by
  constructor
  · rw [hbusy, hpending]; exact h.busyPending
  · intro i hi
    rw [operandError_congr hlen hbits hinst]
    exact h.accepted i (hpending ▸ hi)

theorem busy_accept (s : State) (i : Instr) : (s.accept i).regs.busy = true := by
  rw [Regs.busy, accept_status_bit]
  rfl

theorem accept_pendingInv {s : State} {i : Instr} (h : operandError s i = none) : PendingInv (s.accept i) := by
  constructor
  · rw [busy_accept, accept_pending]; rfl
  · rintro j ⟨⟩
    exact (operandError_congr rfl rfl rfl i).trans h

theorem busy_reject (s : State) (e : Err) : (s.reject e).regs.busy = s.regs.busy := by
  rw [Regs.busy, reject_regs, setStatus_bit, doneMask_bit, ← Regs.busy, busy_record]
  simp

/-! ## The whole invariant -/

theorem inv_iff {s : State} : s.Inv ↔ MemInv s ∧ s.regs.Inv ∧ PendingInv s :=
  ⟨fun h => ⟨⟨h.memWf, h.memMapped⟩, ⟨h.ctrlReserved, h.statusReserved, h.errNamed, h.errClear⟩,
    ⟨h.busyPending, h.accepted⟩⟩,
    fun ⟨hm, hr, hp⟩ => ⟨hm.wf, hm.mapped, hr.ctrlReserved, hr.statusReserved, hp.busyPending, hp.accepted,
      hr.errNamed, hr.errClear⟩⟩

/-- The invariant does not speak of the outside world. -/
theorem inv_world {s : State} (h : s.Inv) (w : World) : State.Inv { s with world := w } :=
  ⟨h.memWf, h.memMapped, h.ctrlReserved, h.statusReserved, h.busyPending, h.accepted, h.errNamed, h.errClear⟩

end Sys2Proof.Machine
end

section
/-! SUPPORT. Every access, input and command keeps the invariant. -/

namespace Sys2Proof.Machine

theorem recordError_inv {s : State} (h : s.Inv) (e : Err) (a : Word) : (s.recordError e a).Inv := by
  obtain ⟨hm, hr, hp⟩ := inv_iff.mp h
  exact inv_iff.mpr ⟨⟨hm.wf, hm.mapped⟩, record_regsInv hr e a,
    hp.congr rfl (busy_record ..) (record_len ..) (record_bits ..) rfl⟩

theorem busError_inv {s : State} (h : s.Inv) (e : Err) (a : Word) : (s.busError e a).Inv :=
  inv_world (recordError_inv h e a) _

/-- With BUSY = 0 the registers may become any that meet their part of the invariant. -/
theorem idle_inv {s : State} (h : s.Inv) {r : Regs} (hr : r.Inv) (hs : s.regs.busy = false) (hb : r.busy = false) :
    State.Inv { s with regs := r } := by
  obtain ⟨hm, -, hp⟩ := inv_iff.mp h
  exact inv_iff.mpr ⟨⟨hm.wf, hm.mapped⟩, hr, .of_idle hb (hp.pending_none hs)⟩

theorem reject_inv {s : State} (h : s.Inv) (hb : s.regs.busy = false) (e : Err) : (s.reject e).Inv := by
  obtain ⟨-, hr, -⟩ := inv_iff.mp h
  refine idle_inv h ?_ hb ((busy_reject s e).trans hb)
  refine (record_regsInv hr e cmdOffset).congr rfl (fun i hi => ?_) rfl rfl
  rw [setStatus_bit, doneMask_bit, decide_eq_false (by omega), Bool.or_false]

theorem accept_inv {s : State} (h : s.Inv) {i : Instr} (hi : operandError s i = none) : (s.accept i).Inv := by
  obtain ⟨hm, hr, -⟩ := inv_iff.mp h
  refine inv_iff.mpr ⟨⟨hm.wf, hm.mapped⟩, hr.congr rfl (fun j hj => ?_) rfl rfl, accept_pendingInv hi⟩
  rw [accept_status_bit, if_neg (by omega), if_neg (by omega)]

theorem issue_inv {s : State} (h : s.Inv) (hb : s.regs.busy = false) (c : Word) : (s.issue c).Inv := by
  obtain ⟨-, hr, -⟩ := inv_iff.mp h
  have hlatched : State.Inv { s with regs := { s.regs with cmd := c } } :=
    idle_inv h (hr.congr rfl (fun _ _ => rfl) rfl rfl) hb hb
  rcases issue_cases s c with ⟨-, heq⟩ | ⟨-, heq⟩ | ⟨i, e, -, -, heq⟩ | ⟨i, -, hnone, heq⟩ <;> rw [heq]
  · exact reject_inv hlatched hb _
  · exact reject_inv hlatched hb _
  · exact reject_inv hlatched hb e
  · exact accept_inv hlatched hnone

theorem setSlot_inv {s : State} (h : s.Inv) (b : Buf) {k : Nat} (v : DWord) (hk : k < s.inst.slots) :
    (s.setSlot b k v).Inv := by
  refine ⟨setSlot_memWf h.memWf b k v, fun c hc => ?_, h.ctrlReserved, h.statusReserved, h.busyPending, h.accepted,
    h.errNamed, h.errClear⟩
  rcases Memory.mem_splice hc with hc | hc
  · exact h.memMapped c hc
  · rw [bytesOf_length] at hc
    exact ⟨b, k, hk, hc⟩

theorem hostRead_inv {s : State} (h : s.Inv) (off : Word) (bytes : Nat) : (s.hostRead off bytes).Inv := by
  rcases hostRead_cases s off bytes with ⟨e, heq⟩ | ⟨d, heq⟩ <;> rw [heq]
  · exact busError_inv h e off
  · exact inv_world h _

theorem writeCase_inv {s t : State} {off : Word} {data : DWord} (h : s.Inv) (hw : WriteCase s off data t) : t.Inv := by
  obtain ⟨hm, hr, hp⟩ := inv_iff.mp h
  cases hw with
  | error e => exact busError_inv h e off
  | ignored => exact inv_world h _
  | ctrl =>
    exact inv_world (s := { s with regs := s.regs.writeCtrl (data.extractLsb' 0 32) })
      (inv_iff.mpr ⟨⟨hm.wf, hm.mapped⟩, writeCtrl_regsInv hr _, hp.congr rfl rfl rfl rfl rfl⟩) _
  | status =>
    exact inv_world (s := { s with regs := s.regs.writeStatus (data.extractLsb' 0 32) })
      (inv_iff.mpr ⟨⟨hm.wf, hm.mapped⟩, writeStatus_regsInv hr _,
        hp.congr rfl (busy_writeStatus ..) (writeStatus_len ..) (writeStatus_bits ..) rfl⟩) _
  | issue _ hb => exact inv_world (issue_inv h hb _) _
  | operand hb r ho =>
    have hbusy : r.busy = false := by rw [ho.eq]; exact hb
    exact inv_world (idle_inv h (ho.regsInv hr) hb hbusy) _
  | slot _ b k v hk => exact inv_world (setSlot_inv h b v hk) _

theorem afterReset_inv (s : State) : s.afterReset.Inv :=
  inv_iff.mpr ⟨⟨rfl, fun _ hc => by cases hc⟩, reset_regsInv, .of_idle busy_reset rfl⟩

theorem setReset_inv {s : State} (h : s.Inv) (a : Bool) : (s.setReset a).Inv := by
  cases a with
  | false => exact inv_world h _
  | true => exact inv_world (afterReset_inv s) _

theorem input_inv {s : State} (h : s.Inv) (x : Input) : (s.input x).Inv := by
  rcases input_cases s x with heq | ⟨off, bytes, heq⟩ | ⟨addr, off, bytes, data, -, -, heq⟩ | ⟨a, -, heq⟩ <;> rw [heq]
  · exact inv_world h _
  · exact hostRead_inv h off bytes
  · exact writeCase_inv h (hostWrite_cases s off bytes data)
  · exact setReset_inv h a

/-! ## The commands -/

theorem complete_memInv {s : State} (h : MemInv s) : MemInv s.complete := ⟨h.wf, h.mapped⟩

theorem writeRes_memInv {s : State} (h : MemInv s) (z : Cplx) : MemInv (s.writeRes z) := ⟨h.wf, h.mapped⟩

/-- Setup of a valid length stores to populated slots only. -/
theorem setup_memInv_of_validLen {s : State} (h : MemInv s) (hv : validLen s.inst s.regs.len = true) (p : Prec) :
    MemInv (setup s.lenN p s) := by
  obtain ⟨k, hk, hn, hslots⟩ := lenN_of_validLen hv
  exact setup_memInv h p k _ hn (fun l => hn ▸ bitrev_lt l hk) hslots

/-- The butterfly of a valid length stores to populated slots only. -/
theorem butterfly_memInv_of_validLen {s : State} (h : MemInv s) (hv : validLen s.inst s.regs.len = true) (a b : Buf)
    (p : Prec) : MemInv (butterfly a b s.lenN p s) := by
  obtain ⟨k, -, hn, hslots⟩ := lenN_of_validLen hv
  exact butterfly_memInv h a b p k _ hn hslots

/-- Setup, then the butterfly. -/
theorem transform_memInv_of_validLen {s : State} (h : MemInv s) (hv : validLen s.inst s.regs.len = true) (a b : Buf)
    (p : Prec) : MemInv (butterfly a b s.lenN p (setup s.lenN p s)) := by
  have hf := setup_regs s.lenN p s
  have hlen : (setup s.lenN p s).lenN = s.lenN := by rw [State.lenN, hf.regs, State.lenN]
  have := butterfly_memInv_of_validLen (setup_memInv_of_validLen h hv p) (by rw [hf.regs, hf.inst]; exact hv) a b p
  rwa [hlen] at this

theorem exec_memInv {i : Instr} {s t : State} (h : MemInv s) (hv : i.usesLen = true → validLen s.inst s.regs.len = true)
    (hexec : exec i s = .next t) : MemInv t := by
  cases i with
  | nop => cases hexec; exact complete_memInv h
  | fwd p => cases hexec; exact complete_memInv (transform_memInv_of_validLen h (hv rfl) _ _ p)
  | inv p => cases hexec; exact complete_memInv (transform_memInv_of_validLen h (hv rfl) _ _ p)
  | setup p => cases hexec; exact complete_memInv (setup_memInv_of_validLen h (hv rfl) p)
  | bfly p r => cases hexec; exact complete_memInv (butterfly_memInv_of_validLen h (hv rfl) _ _ p)
  | bitrev => cases hexec; exact ⟨h.wf, h.mapped⟩
  | cadd => cases hexec; exact complete_memInv (writeRes_memInv h _)
  | csub => cases hexec; exact complete_memInv (writeRes_memInv h _)
  | cmul => cases hexec; exact complete_memInv (writeRes_memInv h _)
  | cmag => cases hexec; exact complete_memInv (writeRes_memInv h _)
  | uroot => cases hexec; exact complete_memInv (writeRes_memInv h _)

/-- A command that passed R61's checks leaves a state that meets the invariant. -/
theorem exec_inv {i : Instr} {s t : State} (h : s.Inv) (hi : operandError s i = none) (hexec : exec i s = .next t) :
    t.Inv := by
  obtain ⟨hm, hr, -⟩ := inv_iff.mp h
  have hc := exec_completed hexec
  exact inv_iff.mpr ⟨exec_memInv hm (operandError_none_iff.mp hi).1 hexec, hc.regsInv hr, .of_idle hc.busy hc.pending⟩

theorem step_inv {s t : State} (h : s.Inv) (hstep : step s = .next t) : t.Inv := by
  rcases step_cases hstep with ⟨-, i, hpending, hexec⟩ | ⟨-, -, rfl⟩ | ⟨-, x, xs, -, rfl⟩
  · exact exec_inv h (h.accepted i hpending) hexec
  · exact h
  · exact input_inv (inv_world h _) x

end Sys2Proof.Machine
end

section
/-! SUPPORT. Who may change the results and the buffers: each command its own results (10_state.md R27, R29), a host
access a buffer with BUSY = 0, and nothing of a running command (20_memory.md R53). -/

namespace Sys2Proof.Machine

/-! ## The commands -/

/-- Everything a command can do. -/
inductive ExecCase (s : State) : Instr → State → Prop
  | nop : ExecCase s .nop s.complete
  | bitrev (v : Word) : ExecCase s .bitrev (State.complete { s with regs := { s.regs with ridx := v } })
  | result {i : Instr} (z : Cplx) (hi : i ∈ [Instr.cadd, .csub, .cmul, .cmag, .uroot]) :
      ExecCase s i (s.writeRes z).complete
  | loops {i : Instr} {u : State} (hi : i.usesLen = true) (hf : RegFrame s u) : ExecCase s i u.complete

theorem exec_cases {i : Instr} {s t : State} (h : exec i s = .next t) : ExecCase s i t := by
  cases i with
  | nop => cases h; exact .nop
  | fwd p => cases h; exact .loops rfl ((setup_regs ..).trans (butterfly_regs ..))
  | inv p => cases h; exact .loops rfl ((setup_regs ..).trans (butterfly_regs ..))
  | setup p => cases h; exact .loops rfl (setup_regs ..)
  | bfly p r => cases h; exact .loops rfl (butterfly_regs ..)
  | bitrev => cases h; exact .bitrev _
  | cadd => cases h; exact .result _ (by decide)
  | csub => cases h; exact .result _ (by decide)
  | cmul => cases h; exact .result _ (by decide)
  | cmag => cases h; exact .result _ (by decide)
  | uroot => cases h; exact .result _ (by decide)

theorem exec_writes {i : Instr} {s t : State} (h : exec i s = .next t) :
    (t.regs.resRe ≠ s.regs.resRe ∨ t.regs.resIm ≠ s.regs.resIm → i ∈ [Instr.cadd, .csub, .cmul, .cmag, .uroot]) ∧
      (t.regs.ridx ≠ s.regs.ridx → i = .bitrev) ∧ (t.mem ≠ s.mem → i.usesLen = true) := by
  cases exec_cases h with
  | nop => simp
  | bitrev v => simp
  | result z hi => exact ⟨fun _ => hi, fun hne => absurd rfl hne, fun hne => absurd rfl hne⟩
  | loops hi hf => simp [hf.regs, hi]

/-! ## The host -/

/-- The registers differ at most in CTRL, STATUS, ERRCODE and ERRADDR, and not in BUSY. -/
structure StatusOnly (r r' : Regs) : Prop where
  eq : r' = { r with ctrl := r'.ctrl, status := r'.status, errcode := r'.errcode, erraddr := r'.erraddr }
  busy : r'.busy = r.busy

theorem StatusOnly.refl (r : Regs) : StatusOnly r r := ⟨rfl, rfl⟩

theorem record_statusOnly (r : Regs) (e : Err) (a : Word) : StatusOnly r (r.record e a) := by
  refine ⟨?_, busy_record r e a⟩
  unfold Regs.record
  split <;> rfl

theorem writeStatus_frame (r : Regs) (v : Word) :
    r.writeStatus v = { r with
      status := (r.writeStatus v).status, errcode := (r.writeStatus v).errcode
      erraddr := (r.writeStatus v).erraddr } := by
  unfold Regs.writeStatus
  split <;> rfl

theorem writeStatus_statusOnly (r : Regs) (v : Word) : StatusOnly r (r.writeStatus v) :=
  ⟨(writeStatus_frame r v).trans (by rw [writeStatus_ctrl]), busy_writeStatus r v⟩

theorem writeCtrl_statusOnly (r : Regs) (v : Word) : StatusOnly r (r.writeCtrl v) := ⟨rfl, rfl⟩

/-- `t` is `s` after an access that changes no more than the registers in `StatusOnly` and is answered. -/
def AnsweredOnly (s t : State) : Prop :=
  ∃ r d e, StatusOnly s.regs r ∧ t = State.respond { s with regs := r } d e

theorem busError_answeredOnly (s : State) (e : Err) (a : Word) : AnsweredOnly s (s.busError e a) :=
  ⟨_, _, _, record_statusOnly s.regs e a, rfl⟩

theorem hostRead_answeredOnly (s : State) (off : Word) (bytes : Nat) : AnsweredOnly s (s.hostRead off bytes) := by
  rcases hostRead_cases s off bytes with ⟨e, heq⟩ | ⟨d, heq⟩ <;> rw [heq]
  · exact busError_answeredOnly s e off
  · exact ⟨_, _, _, .refl _, rfl⟩

/-- While BUSY = 1 the lockout leaves a write CTRL and STATUS alone (70_reset_and_hazards.md R122). -/
theorem WriteCase.answeredOnly {s t : State} {off : Word} {data : DWord} (hw : WriteCase s off data t)
    (hb : s.regs.busy = true) : AnsweredOnly s t := by
  cases hw with
  | error e => exact busError_answeredOnly s e off
  | ignored => exact ⟨_, _, _, .refl _, rfl⟩
  | ctrl => exact ⟨_, _, _, writeCtrl_statusOnly s.regs _, rfl⟩
  | status => exact ⟨_, _, _, writeStatus_statusOnly s.regs _, rfl⟩
  | issue _ hidle => rw [hidle] at hb; cases hb
  | operand hidle => rw [hidle] at hb; cases hb
  | slot hidle => rw [hidle] at hb; cases hb

/-- RES_RE, RES_IM and RIDX are as before. -/
structure SameResults (s t : State) : Prop where
  resRe : t.regs.resRe = s.regs.resRe
  resIm : t.regs.resIm = s.regs.resIm
  ridx : t.regs.ridx = s.regs.ridx

theorem AnsweredOnly.sameResults {s t : State} (h : AnsweredOnly s t) : SameResults s t := by
  obtain ⟨r, d, e, hr, rfl⟩ := h
  constructor <;> rw [respond_regs, hr.eq]

theorem AnsweredOnly.mem {s t : State} (h : AnsweredOnly s t) : t.mem = s.mem := by
  obtain ⟨r, d, e, -, rfl⟩ := h
  rfl

theorem WriteCase.sameResults {s t : State} {off : Word} {data : DWord} (hw : WriteCase s off data t) :
    SameResults s t := by
  cases hw with
  | error e => exact (busError_answeredOnly s e off).sameResults
  | ignored => exact ⟨rfl, rfl, rfl⟩
  | ctrl => exact ⟨rfl, rfl, rfl⟩
  | status => exact ⟨writeStatus_resRe .., writeStatus_resIm .., writeStatus_ridx ..⟩
  | issue =>
    obtain ⟨-, hridx, hre, him⟩ := issue_frame s (data.extractLsb' 0 32)
    exact ⟨hre, him, hridx⟩
  | operand _ r hr => constructor <;> rw [respond_regs, hr.eq]
  | slot => exact ⟨rfl, rfl, rfl⟩

/-- Beside the assertion of reset no input changes a result register. -/
theorem input_sameResults {s : State} {x : Input} (hx : x ≠ .reset true) : SameResults s (s.input x) := by
  rcases input_cases s x with heq | ⟨off, bytes, heq⟩ | ⟨addr, off, bytes, data, -, -, heq⟩ | ⟨a, rfl, heq⟩ <;>
    rw [heq]
  · exact ⟨rfl, rfl, rfl⟩
  · exact (hostRead_answeredOnly s off bytes).sameResults
  · exact (hostWrite_cases s off bytes data).sameResults
  · cases a with
    | false => exact ⟨rfl, rfl, rfl⟩
    | true => exact absurd rfl hx

/-- Beside the assertion of reset an input that changes the buffers is a write with BUSY = 0. -/
theorem input_mem {s : State} {x : Input} (hx : x ≠ .reset true) (hne : (s.input x).mem ≠ s.mem) :
    s.regs.busy = false ∧ ∃ addr bytes data, x = .write addr bytes data := by
  rcases input_cases s x with heq | ⟨off, bytes, heq⟩ | ⟨addr, off, bytes, data, rfl, -, heq⟩ | ⟨a, rfl, heq⟩ <;>
    rw [heq] at hne
  · exact absurd rfl hne
  · exact absurd (hostRead_answeredOnly s off bytes).mem hne
  · refine ⟨Bool.eq_false_iff.mpr fun hb => hne ?_, addr, bytes, data, rfl⟩
    exact ((hostWrite_cases s off bytes data).answeredOnly hb).mem
  · cases a with
    | false => exact absurd rfl hne
    | true => exact absurd rfl hx

theorem busy_of_engineReady {s : State} (h : engineReady s = true) : s.regs.busy = true := by
  rw [engineReady, Bool.and_eq_true, Bool.and_eq_true] at h
  exact h.1.2

end Sys2Proof.Machine
end

section
/-! CERTIFICATES. The statements of 10_state.md. -/

namespace Sys2Proof.Machine

/-- Settles O53: a command whose operands passed R61's checks, and every input, keeps each part of the invariant. -/
theorem stepKeepsTheInvariant : Obligations.StepKeepsTheInvariant := fun _ _ => step_inv

/-- Settles O57: the engine's step by what its command writes, the host's by what its input can. -/
theorem onlyTheirCommandsWriteResults : Obligations.OnlyTheirCommandsWriteResults := by
  intro s t hstep hreset
  rcases step_cases hstep with ⟨hready, i, hpending, hexec⟩ | ⟨-, -, rfl⟩ | ⟨hready, x, xs, hinputs, rfl⟩
  · have hb := busy_of_engineReady hready
    obtain ⟨hres, hridx, hmem⟩ := exec_writes hexec
    exact ⟨fun hne => ⟨hb, i, hres hne, hpending⟩, fun hne => ⟨hb, hridx hne ▸ hpending⟩,
      fun hne => .inl ⟨hb, i, hmem hne, hpending⟩⟩
  · simp
  · have hx : x ≠ .reset true := by
      rintro rfl
      simp [hready, hinputs] at hreset
    obtain ⟨hre, him, hridx⟩ :=
      input_sameResults (s := { s with world := { s.world with inputs := xs, delay := s.world.delay - 1 } }) hx
    refine ⟨fun hne => ?_, fun hne => absurd hridx hne, fun hne => .inr ?_⟩
    · exact absurd him (hne.resolve_left (not_not_intro hre))
    · obtain ⟨hb, addr, bytes, data, rfl⟩ := input_mem hx hne
      exact ⟨hb, addr, bytes, data, congrArg List.head? hinputs⟩

/-- Settles O40: with BUSY = 1 an access is answered and leaves all but CTRL, STATUS, ERRCODE and ERRADDR. -/
theorem hostCannotReachARunningCommand : Obligations.HostCannotReachARunningCommand := by
  intro s t off bytes data hb ht
  have hanswered : AnsweredOnly s t := by
    rcases ht with rfl | rfl
    · exact hostRead_answeredOnly s off bytes
    · exact (hostWrite_cases s off bytes data).answeredOnly hb
  obtain ⟨r, d, e, hr, rfl⟩ := hanswered
  exact ⟨congrArg (fun r => State.respond { s with regs := r } d e) hr.eq, hr.busy.trans hb, rfl,
    byte_congr rfl rfl⟩

/-- Settles O47: the write reaches STATUS whether a command is running or not, and does what `Regs.writeStatus` does. -/
theorem statusWritesClearWhereOne : Obligations.StatusWritesClearWhereOne := by
  intro s bytes data hbytes
  generalize hv : data.extractLsb' 0 32 = v
  have hbit (i : Nat) : v.getLsbD i = (decide (i < 32) && data.getLsbD i) := by simp [← hv]
  have hwrite : s.hostWrite 0x010#32 bytes data = State.respond { s with regs := s.regs.writeStatus v } 0 false := by
    have h := hostWrite_reg s .status data hbytes (by simp [Reg.lockedOnWrite])
    rwa [State.writeReg, coversLow_offset, if_pos rfl, hv] at h
  refine ⟨_, _, _, hwrite.trans (congrArg (fun r => State.respond { s with regs := r } 0 false)
    (writeStatus_frame s.regs v)), fun i => ?_, ?_, ?_⟩
  · by_cases hi : i < 32
    · rw [writeStatus_bit, hbit, decide_eq_true hi, Bool.true_and, Bool.decide_or, Bool.decide_or, Bool.or_assoc]
    · rw [BitVec.getLsbD_of_ge _ _ (Nat.not_lt.mp hi), BitVec.getLsbD_of_ge _ _ (Nat.not_lt.mp hi), Bool.false_and]
  · rw [writeStatus_errcode, hbit]; simp
  · rw [writeStatus_erraddr, hbit]; simp

end Sys2Proof.Machine
end

section
/-! SUPPORT. What a host access does, by the answer of its checks (20_memory.md, 60_exceptions.md R106): the bus errors
in their order, the data lanes, the accesses to a slot and to a register. -/

namespace Sys2Proof.Machine

/-! ## The checks in their order -/

theorem checkAccess_badWidth (s : State) (w : Bool) (off : Nat) {bytes : Nat} (h : bytes ≠ 4 ∧ bytes ≠ 8) :
    checkAccess s w off bytes = .error .badWidth := if_pos (not_or.mpr h)

theorem checkAccess_misaligned (s : State) (w : Bool) {off bytes : Nat} (hb : bytes = 4 ∨ bytes = 8)
    (h : off % bytes ≠ 0) : checkAccess s w off bytes = .error .misaligned := by
  rw [checkAccess, if_neg (not_not_intro hb), if_pos h]

theorem checkAccess_unmapped {s : State} (w : Bool) {off bytes : Nat} (hb : bytes = 4 ∨ bytes = 8)
    (ha : off % bytes = 0) (h : placeAt s.inst off = none) : checkAccess s w off bytes = .error .unmapped := by
  rw [checkAccess, if_neg (not_not_intro hb), if_neg (not_not_intro ha), h]

/-- An aligned access to a mapped place is left to the busy lockout. -/
theorem checkAccess_mapped {s : State} (w : Bool) {off bytes : Nat} {p : Place} (hb : bytes = 4 ∨ bytes = 8)
    (ha : off % bytes = 0) (h : placeAt s.inst off = some p) :
    checkAccess s w off bytes = if s.regs.busy && p.locked w then .error .busyAccess else .ok p := by
  rw [checkAccess, if_neg (not_not_intro hb), if_neg (not_not_intro ha), h]

theorem checkAccess_locked {s : State} {w : Bool} {off bytes : Nat} {p : Place} (hb : bytes = 4 ∨ bytes = 8)
    (ha : off % bytes = 0) (h : placeAt s.inst off = some p) (hbusy : s.regs.busy = true) (hl : p.locked w = true) :
    checkAccess s w off bytes = .error .busyAccess := by
  rw [checkAccess_mapped w hb ha h, hbusy, hl]
  rfl

/-- The slots of R122's locked registers, counted in slots from the first register. -/
theorem placeAt_lockedReg (p : Params) {off : Nat} (h : off / 8 ∈ [5, 6, 7, 8, 10, 11, 12, 13]) :
    ∃ r : Reg, placeAt p off = some (.reg r) ∧ r.lockedOnWrite = true := by
  have hlocked : ∀ d ∈ [5, 6, 7, 8, 10, 11, 12, 13],
      d < 16 ∧ ∃ r, Reg.all[d]? = some r ∧ r.lockedOnWrite = true := by
    simp [Reg.all, Reg.lockedOnWrite]
  obtain ⟨hlt, r, hr, hl⟩ := hlocked _ h
  exact ⟨r, by rw [placeAt, if_pos (by omega), regAt, hr]; rfl, hl⟩

/-- An access its checks refuse, a read or a write, ends in the bus error they name. -/
theorem access_busErrored {s t : State} {off : Word} {bytes : Nat} {write : Bool} {data : DWord} {e : Err}
    (ht : t = if write then s.hostWrite off bytes data else s.hostRead off bytes)
    (h : checkAccess s write off.toNat bytes = .error e) : BusErrored s t e off := by
  have heq : t = s.busError e off := by
    cases write with
    | false => rw [ht, if_neg Bool.false_ne_true, State.hostRead, h]
    | true => rw [ht, if_pos rfl, State.hostWrite, h]
  rw [heq]
  exact busError_spec s e off

/-! ## The answer is no part of what an access looks at -/

@[simp] theorem respond_slot (s : State) (d : DWord) (e : Bool) (b : Buf) (k : Nat) :
    (s.respond d e).slot b k = s.slot b k := slot_congr rfl rfl b k

@[simp] theorem respond_byte (s : State) (d : DWord) (e : Bool) (x : Nat) : (s.respond d e).byte x = s.byte x :=
  byte_congr rfl rfl x

theorem respond_readPlace (s : State) (d : DWord) (e : Bool) (p : Place) :
    (s.respond d e).readPlace p = s.readPlace p := by
  cases p with
  | reg r => rfl
  | slot b k => exact respond_slot s d e b k

/-- A read's outcome does not depend on the answer before it. -/
theorem respond_hostRead (s : State) (d : DWord) (e : Bool) (off : Word) (bytes : Nat) :
    (s.respond d e).hostRead off bytes = s.hostRead off bytes := by
  have hcheck : checkAccess (s.respond d e) false off.toNat bytes = checkAccess s false off.toNat bytes := rfl
  rw [State.hostRead, State.hostRead, hcheck]
  cases checkAccess s false off.toNat bytes with
  | error _ => rfl
  | ok p => simp only [respond_readPlace]; rfl

/-! ## Data lanes -/

theorem readLanes_low {off : Nat} (v : DWord) (h : off % 8 = 0) :
    readLanes off 4 v = (v.extractLsb' 0 32).setWidth 64 := by
  rw [readLanes, if_neg (by decide), if_pos h]

theorem readLanes_high {off : Nat} (v : DWord) (h : off % 8 = 0) :
    readLanes (off + 4) 4 v = (v.extractLsb' 32 32).setWidth 64 := by
  rw [readLanes, if_neg (by decide), if_neg (by omega)]

theorem writeLanes_low {off : Nat} (v data : DWord) (h : off % 8 = 0) :
    writeLanes off 4 v data = v.extractLsb' 32 32 ++ data.extractLsb' 0 32 := by
  rw [writeLanes, if_neg (by decide), if_pos h]

theorem writeLanes_high {off : Nat} (v data : DWord) (h : off % 8 = 0) :
    writeLanes (off + 4) 4 v data = data.extractLsb' 0 32 ++ v.extractLsb' 0 32 := by
  rw [writeLanes, if_neg (by decide), if_neg (by omega)]

/-! ## The aligned accesses to one slot -/

/-- The aligned accesses to the slot at `a`, by offset and width: the whole slot, its lower and its upper half. -/
inductive SlotAccess (a : Nat) : Nat → Nat → Prop
  | whole : SlotAccess a a 8
  | low : SlotAccess a a 4
  | high : SlotAccess a (a + 4) 4

theorem SlotAccess.shape {a x bytes : Nat} (hx : SlotAccess a x bytes) (ha : a % 8 = 0) :
    (bytes = 4 ∨ bytes = 8) ∧ x % bytes = 0 ∧ a ≤ x ∧ x < a + 8 := by
  cases hx <;> omega

/-! ## Accesses to a buffer slot (R44) -/

theorem slotAddr_mod (b : Buf) (k : Nat) : slotAddr b k % 8 = 0 := by
  cases b <;> simp only [slotAddr, Buf.window] <;> omega

section
variable {s : State} {b : Buf} {k x bytes : Nat} (hx : SlotAccess (slotAddr b k) x bytes) (hk : k < s.inst.slots)
include hx hk

theorem slotAccess_toNat : (BitVec.ofNat 32 x).toNat = x := by
  obtain ⟨hlow, hhigh⟩ := slot_window b k (hk.trans_le (slots_le s.inst))
  cases hx with
  | whole => exact hlow
  | low => exact hlow
  | high => exact hhigh

theorem check_slot (w : Bool) (hbusy : s.regs.busy = false) : checkAccess s w x bytes = .ok (.slot b k) := by
  obtain ⟨hb, ha, hge, hlt⟩ := hx.shape (slotAddr_mod b k)
  rw [checkAccess_mapped w hb ha (placeAt_of_slot s.inst b k x hk hge hlt), hbusy]
  rfl

theorem hostRead_slot (hbusy : s.regs.busy = false) :
    s.hostRead (BitVec.ofNat 32 x) bytes = s.respond (readLanes x bytes (s.slot b k)) false := by
  rw [State.hostRead, slotAccess_toNat hx hk, check_slot hx hk false hbusy]
  rfl

theorem hostWrite_slot (hbusy : s.regs.busy = false) (data : DWord) :
    s.hostWrite (BitVec.ofNat 32 x) bytes data =
      (s.setSlot b k (writeLanes x bytes (s.slot b k) data)).respond 0 false := by
  rw [State.hostWrite, slotAccess_toNat hx hk, check_slot hx hk true hbusy]
  rfl

theorem hostWrite_slot_value (hbusy : s.regs.busy = false) (data : DWord) :
    (s.hostWrite (BitVec.ofNat 32 x) bytes data).slot b k = writeLanes x bytes (s.slot b k) data := by
  rw [hostWrite_slot hx hk hbusy, respond_slot, setSlot_slot_same]

/-- A write to a slot leaves the registers and every other byte. -/
theorem hostWrite_slot_frame (hbusy : s.regs.busy = false) {data : DWord} {t : State}
    (ht : t = s.hostWrite (BitVec.ofNat 32 x) bytes data) :
    t = { s with mem := t.mem, world := { s.world with response := some ⟨0, false⟩ } } ∧
      ∀ y, y < slotAddr b k ∨ slotAddr b k + 8 ≤ y → t.byte y = s.byte y := by
  rw [ht, hostWrite_slot hx hk hbusy]
  refine ⟨rfl, fun y hy => ?_⟩
  rw [respond_byte]
  exact setSlot_byte_outside s b k _ y hy

end

/-! ## Bytes of a slot (R38) -/

theorem joined_extract_byte (f : Nat → Byte) {j : Nat} (hj : j < 8) :
    (f 7 ++ f 6 ++ f 5 ++ f 4 ++ f 3 ++ f 2 ++ f 1 ++ f 0).extractLsb' (8 * j) 8 = f j := by
  interval_cases j <;>
    simp [-Nat.reduceAdd, BitVec.extractLsb'_append_eq_of_le, BitVec.extractLsb'_append_eq_right]

theorem bytes8_extract_byte (s : State) (a : Nat) {j : Nat} (hj : j < 8) :
    (s.bytes8 a).extractLsb' (8 * j) 8 = s.byte (a + j) := by
  rw [bytes8_eq]
  exact joined_extract_byte (fun i => s.byte (a + i)) hj

/-! ## Accesses to a register (R43) -/

section
variable {r : Reg} {x bytes : Nat} (hx : SlotAccess r.offset x bytes)
include hx

theorem hostRead_regSlot (s : State) :
    s.hostRead (BitVec.ofNat 32 x) bytes = s.respond (readLanes x bytes (s.regs.read r)) false := by
  cases hx with
  | whole => exact hostRead_reg s r (.inr rfl)
  | low => exact hostRead_reg s r (.inl rfl)
  | high => simp only [State.hostRead, offset4_toNat, check_reg4 s false r (by simp), State.readPlace]

theorem hostWrite_regSlot {s : State} (data : DWord) (hbusy : s.regs.busy = false) :
    s.hostWrite (BitVec.ofNat 32 x) bytes data = (s.writeReg r x bytes data).respond 0 false := by
  have hopen : (s.regs.busy && r.lockedOnWrite) = false := by rw [hbusy, Bool.false_and]
  cases hx with
  | whole => exact hostWrite_reg s r data (.inr rfl) hopen
  | low => exact hostWrite_reg s r data (.inl rfl) hopen
  | high => exact hostWrite_reg4 s r data hopen

end

/-- Bits 63:32 of a 32-bit register's slot read 0. -/
theorem setWidth_high (w : Word) : (w.setWidth 64 : DWord).extractLsb' 32 32 = 0#32 := by
  ext i hi
  simp

theorem read_high_zero (regs : Regs) {r : Reg}
    (hr : r ∈ [Reg.id, .ctrl, .status, .errcode, .erraddr, .cmd, .len, .idx, .bits, .ridx]) :
    (regs.read r).extractLsb' 32 32 = 0#32 := by
  fin_cases hr <;> exact setWidth_high _

theorem writeReg_upper (s : State) {r : Reg} (hr : r ∈ [Reg.ctrl, .status, .cmd, .len, .idx, .bits])
    (data : DWord) : s.writeReg r (r.offset + 4) 4 data = s := by
  fin_cases hr <;> simp [State.writeReg, coversLow_offset4]

theorem writeReg_readOnly (s : State) {r : Reg} (hr : r ∈ [Reg.id, .errcode, .erraddr, .ridx, .resRe, .resIm])
    (off bytes : Nat) (data : DWord) : s.writeReg r off bytes data = s := by
  fin_cases hr <;> rfl

section
variable (s : State) {r : Reg} (hr : r ∈ [Reg.opaRe, .opaIm, .opbRe, .opbIm]) (off bytes : Nat) (data : DWord)
include hr

/-- An operand register takes the lanes the write reaches. -/
theorem writeReg_operand_read :
    (s.writeReg r off bytes data).regs.read r = writeLanes off bytes (s.regs.read r) data := by
  fin_cases hr <;> rfl

theorem writeReg_operand_read_other {q : Reg} (hq : q ≠ r) :
    (s.writeReg r off bytes data).regs.read q = s.regs.read q := by
  fin_cases hr <;> cases q <;> simp [State.writeReg, Regs.read] at hq ⊢

theorem writeReg_operand_mem : (s.writeReg r off bytes data).mem = s.mem := by
  fin_cases hr <;> rfl

end

end Sys2Proof.Machine
end

section
/-! SUPPORT. The local offset a host address reaches (20_memory.md R36), and the host's step (R50). -/

namespace Sys2Proof.Machine

theorem localOffset_eq_some_iff {p : Params} {addr : Nat} {off : Word} :
    p.localOffset addr = some off ↔ addr = p.base + off.toNat := by
  have hoff := off.isLt
  rw [Params.localOffset, Params.base, Config.pageBytes]
  constructor
  · intro h
    split_ifs at h with hpage
    obtain rfl := Option.some.inj h
    rw [BitVec.toNat_ofNat]
    omega
  · rintro rfl
    rw [if_pos (by omega)]
    congr 1
    apply BitVec.eq_of_toNat_eq
    rw [BitVec.toNat_ofNat]
    omega

theorem input_of_localOffset_none {s : State} {addr : Nat} (h : s.inst.localOffset addr = none) (bytes : Nat)
    (data : DWord) : s.input (.read addr bytes) = s.unanswered ∧ s.input (.write addr bytes data) = s.unanswered := by
  simp [State.input, h]

/-! ## The host's step -/

theorem step_of_not_engineReady {s : State} (h : engineReady s = false) : step s = .next (hostTurn s) := by
  rw [step, h, if_neg Bool.false_ne_true]

theorem hostTurn_nil {s : State} (h : s.world.inputs = []) : hostTurn s = s := by rw [hostTurn, h]

theorem hostTurn_cons {s : State} {x : Input} {xs : List Input} (h : s.world.inputs = x :: xs) :
    hostTurn s = State.input { s with world := { s.world with inputs := xs, delay := s.world.delay - 1 } } x := by
  rw [hostTurn, h]

end Sys2Proof.Machine
end

section
/-! CERTIFICATES. The statements of 20_memory.md. -/

namespace Sys2Proof.Machine

/-- Settles O38: the answer of the checks, in their order, names the bus error of the access. -/
theorem busErrorsInPriorityOrder : Obligations.BusErrorsInPriorityOrder := by
  intro s t off bytes write data ht
  refine ⟨fun hwidth => access_busErrored ht (checkAccess_badWidth s write _ hwidth), fun hb => ⟨fun ha => ?_,
    fun ha => ⟨fun hreg hslot => ?_, fun hbusy => ⟨fun hslot => ?_, fun hwrite hreg => ?_⟩⟩⟩⟩
  · exact access_busErrored ht (checkAccess_misaligned s write hb ha)
  · exact access_busErrored ht (checkAccess_unmapped write hb ha (placeAt_none hreg hslot))
  · obtain ⟨b, k, -, hplace⟩ := placeAt_slot hslot
    exact access_busErrored ht (checkAccess_locked hb ha hplace hbusy rfl)
  · obtain ⟨r, hplace, hlocked⟩ := placeAt_lockedReg s.inst hreg
    refine access_busErrored ht (checkAccess_locked hb ha hplace hbusy ?_)
    rw [hwrite, Place.locked, hlocked]
    rfl

/-- Settles O41: an error response is no answer of the premise, and the answer is no part of what the read again
looks at. -/
theorem readsHaveNoSideEffect : Obligations.ReadsHaveNoSideEffect := by
  intro s off bytes d hd
  rcases hostRead_cases s off bytes with ⟨e, heq⟩ | ⟨d', heq⟩
  · rw [heq, busError_response] at hd
    cases hd
  · rw [heq, respond_response] at hd
    cases hd
    exact ⟨heq, by rw [heq, respond_hostRead, heq, respond_response]⟩

/-- Settles O42: by the three aligned accesses to a slot and the lanes each reaches. -/
theorem bufferAccesses : Obligations.BufferAccesses := by
  intro s b k data hbusy hk off hi
  have hmod := slotAddr_mod b k
  refine ⟨hostRead_slot .whole hk hbusy, ?_, ?_, hostWrite_slot_value .whole hk hbusy data, ?_, ?_, fun t ht => ?_⟩
  · rw [← readLanes_low _ hmod]
    exact hostRead_slot .low hk hbusy
  · rw [← readLanes_high _ hmod]
    exact hostRead_slot .high hk hbusy
  · rw [← writeLanes_low _ _ hmod]
    exact hostWrite_slot_value .low hk hbusy data
  · rw [← writeLanes_high _ _ hmod]
    exact hostWrite_slot_value .high hk hbusy data
  · rcases ht with ht | ht | ht
    · exact hostWrite_slot_frame .whole hk hbusy ht
    · exact hostWrite_slot_frame .low hk hbusy ht
    · exact hostWrite_slot_frame .high hk hbusy ht

/-- Settles O45: byte by byte of the 64 bits at the slot's offset. -/
theorem slotsAreLittleEndian : Obligations.SlotsAreLittleEndian :=
  fun s b k _ hj => (bytes8_extract_byte s (slotAddr b k) hj).symm

/-- Settles O43: by the aligned accesses to a register's slot, and what `State.writeReg` does for its kind. -/
theorem registerWrites : Obligations.RegisterWrites := by
  intro s data hbusy
  refine ⟨fun bytes hb => ?_, fun r hr => ?_, fun r hr => ?_, fun r hr => ?_⟩
  · have hw (r : Reg) : s.hostWrite (BitVec.ofNat 32 r.offset) bytes data =
        (s.writeReg r r.offset bytes data).respond 0 false :=
      hostWrite_reg s r data hb (by rw [hbusy, Bool.false_and])
    have hlow (r : Reg) : coversLow r.offset bytes = true := coversLow_offset r
    refine ⟨(hw .len).trans ?_, (hw .idx).trans ?_, (hw .bits).trans ?_⟩ <;> rw [State.writeReg, if_pos (hlow _)]
  · rw [hostWrite_regSlot .high data hbusy, writeReg_upper s hr]
  · have hread {x bytes : Nat} (hx : SlotAccess r.offset x bytes) :
        (s.hostWrite (BitVec.ofNat 32 x) bytes data).regs.read r = writeLanes x bytes (s.regs.read r) data := by
      rw [hostWrite_regSlot hx data hbusy, respond_regs, writeReg_operand_read s hr]
    have hmod := offset_mod r
    refine ⟨hread .whole, ?_, ?_, fun off bytes q ho hq => ?_⟩
    · rw [hread .low, writeLanes_low _ _ hmod]
    · rw [hread .high, writeLanes_high _ _ hmod]
    · have hx : SlotAccess r.offset off bytes := by
        simp only [List.mem_cons, Prod.mk.injEq, List.not_mem_nil, or_false] at ho
        rcases ho with ⟨rfl, rfl⟩ | ⟨rfl, rfl⟩ | ⟨rfl, rfl⟩
        exacts [.whole, .low, .high]
      rw [hostWrite_regSlot hx data hbusy, respond_regs, respond_mem]
      exact ⟨writeReg_operand_read_other s hr off bytes data hq, writeReg_operand_mem s hr off bytes data⟩
  · have hignored {x bytes : Nat} (hx : SlotAccess r.offset x bytes) :
        s.hostWrite (BitVec.ofNat 32 x) bytes data = s.respond 0 false := by
      rw [hostWrite_regSlot hx data hbusy, writeReg_readOnly s hr]
    exact ⟨hignored .whole, hignored .low, hignored .high⟩

/-- Settles O44: by the aligned accesses to a register's slot and the lanes each reads. -/
theorem registerReads : Obligations.RegisterReads := by
  refine fun s => ⟨fun r => ⟨hostRead_regSlot .whole s, ?_, ?_, read_high_zero s.regs⟩, rfl⟩
  · rw [hostRead_regSlot .low s, readLanes_low _ (offset_mod r)]
  · rw [hostRead_regSlot .high s, readLanes_high _ (offset_mod r)]

/-- Settles O59: the host's step takes the head of its inputs, and no input changes what is left of them. -/
theorem hostAccessesAreTakenInOrder : Obligations.HostAccessesAreTakenInOrder := by
  intro s hready
  rw [step_of_not_engineReady hready]
  exact ⟨fun h => by rw [hostTurn_nil h], fun x xs h =>
    ⟨_, congrArg Host.Outcome.next (hostTurn_cons h), input_inputs _ x, rfl⟩⟩

/-- Settles O60: an address is a page and an offset below 2^32 in it. -/
theorem hostAddressesReachLocalOffsets : Obligations.HostAddressesReachLocalOffsets :=
  fun _ _ _ => ⟨localOffset_eq_some_iff, fun h hr => input_local (localOffset_eq_some_iff.mpr h) hr,
    input_of_localOffset_none⟩

end Sys2Proof.Machine
end

section
/-! SUPPORT. The decoder and the encoder (30_encoding.md R55 to R59): the fields of a word and the word of its fields,
and what a word decodes to. -/

namespace Sys2Proof

/-! ## Words and fields (R56) -/

theorem fieldsOf_wordOf (f : Fields) : fieldsOf (wordOf f) = f := by
  simp [fieldsOf, wordOf, -Nat.reduceAdd, BitVec.extractLsb'_append_eq_of_le, BitVec.extractLsb'_append_eq_right]

theorem wordOf_fieldsOf (c : Word) : wordOf (fieldsOf c) = c := by
  have h : wordOf (fieldsOf c) = c.extractLsb' 0 32 := by
    simp only [wordOf, fieldsOf]
    iterate 4 rw [BitVec.extractLsb'_append_extractLsb'_eq_extractLsb' (by norm_num)]
  rw [h, BitVec.extractLsb'_eq_self]

theorem bit_precOf (b : BitVec 1) : (precOf b).bit = b := by
  rcases BitVec.eq_zero_or_eq_one b with rfl | rfl <;> rfl

theorem bit_roleOf (b : BitVec 1) : (roleOf b).bit = b := by
  rcases BitVec.eq_zero_or_eq_one b with rfl | rfl <;> rfl

theorem precOf_bit (p : Prec) : precOf p.bit = p := by cases p <;> rfl

theorem roleOf_bit (r : Role) : roleOf r.bit = r := by cases r <;> rfl

/-! ## The fields of a command (R57, R58) -/

theorem instrOf_fields (i : Instr) : instrOf i.fields = some i := by
  cases i with
  | fwd p => exact congrArg (fun p => some (Instr.fwd p)) (precOf_bit p)
  | inv p => exact congrArg (fun p => some (Instr.inv p)) (precOf_bit p)
  | setup p => exact congrArg (fun p => some (Instr.setup p)) (precOf_bit p)
  | bfly p r => exact congrArg₂ (fun p r => some (Instr.bfly p r)) (precOf_bit p) (roleOf_bit r)
  | nop | bitrev | cadd | csub | cmul | cmag | uroot => rfl

theorem fields_wellFormed (i : Instr) : i.fields.wellFormed = true := by
  cases i with
  | nop => exact Laws.FieldsWellFormed.nop
  | fwd p => exact Laws.FieldsWellFormed.fwd p
  | inv p => exact Laws.FieldsWellFormed.inv p
  | setup p => exact Laws.FieldsWellFormed.setup p
  | bfly p r => exact Laws.FieldsWellFormed.bfly p r
  | bitrev => exact Laws.FieldsWellFormed.bitrev
  | cadd => exact Laws.FieldsWellFormed.cadd
  | csub => exact Laws.FieldsWellFormed.csub
  | cmul => exact Laws.FieldsWellFormed.cmul
  | cmag => exact Laws.FieldsWellFormed.cmag
  | uroot => exact Laws.FieldsWellFormed.uroot

theorem instrOf_eq_none_iff {f : Fields} : instrOf f = none ↔ 0xB ≤ f.op.toNat := by
  have hlt := f.op.isLt
  unfold instrOf
  generalize f.op.toNat = n at hlt
  interval_cases n <;> simp

theorem Fields.usesPrec_iff {f : Fields} : f.usesPrec = true ↔ f.op.toNat ∈ [1, 2, 3, 4] := by
  simp [Fields.usesPrec, ← BitVec.toNat_inj, or_assoc]

theorem Fields.usesRole_iff {f : Fields} : f.usesRole = true ↔ f.op.toNat = 4 := by
  simp [Fields.usesRole, ← BitVec.toNat_inj]

theorem Fields.wellFormed_iff {f : Fields} : f.wellFormed = true ↔
    f.opAssigned = true ∧ (f.rsvdLo = 0#4 ∧ f.rsvdHi = 0#22) ∧ (f.prec = 0#1 ∨ f.usesPrec = true) ∧
      (f.role = 0#1 ∨ f.usesRole = true) := by
  simp [Fields.wellFormed, Fields.reservedZero, Fields.precAllowed, Fields.roleAllowed, and_assoc]

/-- A command keeps the opcode and the fields the opcode uses. -/
theorem fields_of_instrOf {f : Fields} {i : Instr} (h : instrOf f = some i) :
    i.fields = ⟨f.op, 0#4, if f.usesPrec then f.prec else 0#1, if f.usesRole then f.role else 0#1, 0#22⟩ := by
  have hop : f.op = BitVec.ofNat 4 f.op.toNat := by simp
  unfold instrOf at h
  split at h
  case h_12 => cases h
  all_goals
    next hval =>
    cases h
    rw [hval] at hop
    simp [Instr.fields, Fields.usesPrec, Fields.usesRole, hop, bit_precOf, bit_roleOf]

/-- The fields that the opcode does not use are 0, so that the command gives every bit back. -/
theorem fields_eq_of_instrOf {f : Fields} {i : Instr} (h : instrOf f = some i) (hw : f.wellFormed = true) :
    i.fields = f := by
  rw [fields_of_instrOf h]
  obtain ⟨-, ⟨hlo, hhi⟩, hprec, hrole⟩ := Fields.wellFormed_iff.mp hw
  rw [← hlo, ← hhi]
  congr 1
  · exact ite_eq_left_iff.mpr fun hunused => (hprec.resolve_right hunused).symm
  · exact ite_eq_left_iff.mpr fun hunused => (hrole.resolve_right hunused).symm

/-! ## What a word decodes to (R59, R61) -/

theorem decode_of_instrOf_none {c : Word} (h : instrOf (fieldsOf c) = none) : decode c = .error .illegalOp := by
  simp only [decode, h]

/-- Of a word with an assigned opcode the other checks decide. -/
theorem decode_of_instrOf_some {c : Word} {i : Instr} (h : instrOf (fieldsOf c) = some i) :
    decode c = if (fieldsOf c).wellFormed then .ok i else .error .rsvdField := by
  have hop : (fieldsOf c).opAssigned = true := by
    have : instrOf (fieldsOf c) ≠ none := by rw [h]; exact Option.some_ne_none i
    rw [Ne, instrOf_eq_none_iff, not_le] at this
    exact decide_eq_true this
  simp only [decode, h, Fields.wellFormed, hop]
  cases (fieldsOf c).reservedZero with
  | false => rfl
  | true =>
    cases (fieldsOf c).precAllowed with
    | false => rfl
    | true => cases (fieldsOf c).roleAllowed <;> rfl

theorem decode_rsvdField {c : Word} (hop : (fieldsOf c).op.toNat ≤ 0xA) (hw : (fieldsOf c).wellFormed ≠ true) :
    decode c = .error .rsvdField := by
  cases hi : instrOf (fieldsOf c) with
  | none => have := instrOf_eq_none_iff.mp hi; omega
  | some i => rw [decode_of_instrOf_some hi, if_neg hw]

theorem getLsbD_of_extract_eq_zero {c : Word} {k : Nat} (h : c.extractLsb' k 1 = 0#1) : c.getLsbD k = false := by
  simpa [BitVec.getLsbD_extractLsb'] using congrArg (·.getLsbD 0) h

/-- A bit that R59 reserves, or of a field the opcode does not use, is 1. -/
theorem not_wellFormed_of_set {c : Word}
    (h : (fieldsOf c).rsvdLo ≠ 0#4 ∨ (fieldsOf c).rsvdHi ≠ 0#22 ∨
      (c.getLsbD 8 = true ∧ (fieldsOf c).op.toNat ∉ [1, 2, 3, 4]) ∨
      (c.getLsbD 9 = true ∧ (fieldsOf c).op.toNat ≠ 4)) :
    (fieldsOf c).wellFormed ≠ true := by
  intro hw
  obtain ⟨-, ⟨hlo, hhi⟩, hprec, hrole⟩ := Fields.wellFormed_iff.mp hw
  rcases h with hset | hset | ⟨hbit, hunused⟩ | ⟨hbit, hunused⟩
  · exact hset hlo
  · exact hset hhi
  · rw [getLsbD_of_extract_eq_zero (hprec.resolve_right (hunused ∘ Fields.usesPrec_iff.mp))] at hbit
    cases hbit
  · rw [getLsbD_of_extract_eq_zero (hrole.resolve_right (hunused ∘ Fields.usesRole_iff.mp))] at hbit
    cases hbit

/-- A word decodes to a command exactly when it is the command's word. -/
theorem decode_eq_ok_iff {c : Word} {i : Instr} : decode c = .ok i ↔ encode i = c := by
  constructor
  · intro h
    cases hi : instrOf (fieldsOf c) with
    | none => rw [decode_of_instrOf_none hi] at h; cases h
    | some j =>
      rw [decode_of_instrOf_some hi] at h
      split at h
      next hw =>
        cases h
        rw [encode, fields_eq_of_instrOf hi hw, wordOf_fieldsOf]
      next => cases h
  · rintro rfl
    have hf : fieldsOf (encode i) = i.fields := fieldsOf_wordOf _
    rw [decode_of_instrOf_some (hf ▸ instrOf_fields i), hf, fields_wellFormed, if_pos rfl]

/-! ## The rows of the opcode map (R58) -/

/-- A mask that leaves out one bit leaves that bit free. -/
theorem and_not_twoPow_eq_iff {c m : Word} {k : Nat} (hm : m.getLsbD k = false) :
    c &&& ~~~BitVec.twoPow 32 k = m ↔ c = m ∨ c = m ||| BitVec.twoPow 32 k := by
  have hsplit (x : Word) : x = (x &&& ~~~BitVec.twoPow 32 k) ||| (x &&& BitVec.twoPow 32 k) := by
    rw [← BitVec.and_or_distrib_left, BitVec.or_comm, BitVec.or_not_self, BitVec.and_allOnes]
  have hkeep : m &&& ~~~BitVec.twoPow 32 k = m := by
    have h := hsplit m
    rw [BitVec.and_twoPow, hm, if_neg Bool.false_ne_true, BitVec.or_zero] at h
    exact h.symm
  constructor
  · rintro rfl
    have h := hsplit c
    rw [BitVec.and_twoPow] at h
    split at h
    · exact .inr h
    · exact .inl (by rwa [BitVec.or_zero] at h)
  · rintro (rfl | rfl)
    · exact hkeep
    · rw [BitVec.and_or_distrib_right, hkeep, BitVec.and_not_self]
      exact BitVec.or_zero

/-- A row without an operand field has one word. -/
theorem decode_iff_mask {c : Word} (i : Instr) : decode c = .ok i ↔ c &&& 0xFFFFFFFF#32 = encode i := by
  rw [decode_eq_ok_iff, eq_comm, show 0xFFFFFFFF#32 = BitVec.allOnes 32 from rfl, BitVec.and_allOnes]

theorem exists_prec {P : Prec → Prop} : (∃ p, P p) ↔ P .f32 ∨ P .f64 :=
  ⟨fun ⟨p, h⟩ => by cases p <;> simp [h], fun h => h.elim (⟨_, ·⟩) (⟨_, ·⟩)⟩

/-- A row with PREC leaves bit 8 free. -/
theorem decode_prec_iff_mask {row : Prec → Instr} {m : Word} (hf32 : encode (row .f32) = m)
    (hf64 : encode (row .f64) = m ||| BitVec.twoPow 32 8) (hm : m.getLsbD 8 = false) (c : Word) :
    (∃ p, decode c = .ok (row p)) ↔ c &&& 0xFFFFFEFF#32 = m := by
  rw [show 0xFFFFFEFF#32 = ~~~BitVec.twoPow 32 8 from rfl, and_not_twoPow_eq_iff hm, exists_prec, decode_eq_ok_iff,
    decode_eq_ok_iff, hf32, hf64, eq_comm, eq_comm (b := c)]

theorem exists_role {P : Role → Prop} : (∃ r, P r) ↔ P .straight ∨ P .swap :=
  ⟨fun ⟨r, h⟩ => by cases r <;> simp [h], fun h => h.elim (⟨_, ·⟩) (⟨_, ·⟩)⟩

/-- BFLY leaves bits 8 and 9 free. -/
theorem decode_bfly_iff_mask (c : Word) :
    (∃ p r, decode c = .ok (.bfly p r)) ↔ c &&& 0xFFFFFCFF#32 = 0x00000004#32 := by
  rw [show 0xFFFFFCFF#32 = 0xFFFFFEFF#32 &&& ~~~BitVec.twoPow 32 9 from rfl, ← BitVec.and_assoc,
    and_not_twoPow_eq_iff rfl, exists_comm, exists_role]
  exact or_congr (decode_prec_iff_mask rfl rfl rfl c) (decode_prec_iff_mask rfl rfl rfl c)

end Sys2Proof
end

section
/-! SUPPORT. Issue by what the written word decodes to (30_encoding.md R61), and the engine's step, which never stops
while a pending command has valid operands. -/

namespace Sys2Proof.Machine

theorem writeIssues {s : State} (hbusy : s.regs.busy = false) (data : DWord) : WriteIssues s data := by
  intro bytes hb
  have h := hostWrite_reg s .cmd data hb (by rw [hbusy, Bool.false_and])
  rwa [State.writeReg, coversLow_offset, if_pos rfl] at h

theorem issue_illegalOp (s : State) {c : Word} (h : decode c = .error .illegalOp) :
    Rejected s (s.issue c) c .illegalOp := by
  simp only [State.issue, h]
  exact reject_spec s c .illegalOp

theorem issue_rsvdField (s : State) {c : Word} (h : decode c = .error .rsvdField) :
    Rejected s (s.issue c) c .rsvdField := by
  simp only [State.issue, h]
  exact reject_spec s c .rsvdField

theorem issue_of_operandError_none {s : State} {c : Word} {i : Instr} (h : decode c = .ok i)
    (ho : operandError s i = none) :
    s.issue c = State.accept { s with regs := { s.regs with cmd := c } } i := by
  have ho' : operandError { s with regs := { s.regs with cmd := c } } i = none :=
    (operandError_congr rfl rfl rfl i).trans ho
  simp only [State.issue, h, ho']

theorem exec_next (i : Instr) (s : State) : ∃ t, exec i s = .next t := by
  cases i <;> exact ⟨_, rfl⟩

theorem step_next {s : State} (h : PendingInv s) : ∃ t, step s = .next t := by
  cases hready : engineReady s with
  | false => exact ⟨_, step_of_not_engineReady hready⟩
  | true =>
    obtain ⟨i, hi⟩ := Option.isSome_iff_exists.mp (h.busyPending ▸ busy_of_engineReady hready)
    rw [step, if_pos hready, engineTurn, hi]
    exact exec_next i s

/-- Every state of a run meets the invariant, so that the next step is one. -/
theorem safeFor_of_inv {s : State} (k : Nat) (h : s.Inv) : SafeFor k s := by
  induction k generalizing s with
  | zero => exact ⟨s, rfl⟩
  | succ k ih =>
    obtain ⟨t, hstep⟩ := step_next (inv_iff.mp h).2.2
    rw [SafeFor, run_succ core hstep]
    exact ih (step_inv h hstep)

end Sys2Proof.Machine
end

section
/-! CERTIFICATES. The statements of 30_encoding.md. -/

namespace Sys2Proof.Machine

/-- Settles O1: a word decodes to a command exactly when it is the command's word. -/
theorem commandsAndWordsCorrespond : Obligations.CommandsAndWordsCorrespond :=
  ⟨fun _ => decode_eq_ok_iff.mpr rfl, fun _ _ => decode_eq_ok_iff.mp⟩

/-- Settles O54: by induction on the length of the run, over states that meet the invariant. -/
theorem runsAreSafe : Obligations.RunsAreSafe := fun _ k => safeFor_of_inv k

/-- Settles O2: by the word or words of each row; what a row's mask leaves out are its operand fields. -/
theorem rowsAreSelectedByMaskAndMatch : Obligations.RowsAreSelectedByMaskAndMatch := by
  intro c
  exact ⟨decode_iff_mask .nop, decode_prec_iff_mask rfl rfl rfl c, decode_prec_iff_mask rfl rfl rfl c,
    decode_prec_iff_mask rfl rfl rfl c, decode_bfly_iff_mask c, decode_iff_mask .bitrev, decode_iff_mask .cadd,
    decode_iff_mask .csub, decode_iff_mask .cmul, decode_iff_mask .cmag, decode_iff_mask .uroot⟩

/-- Settles O4: an unassigned OP names no row, and a bit set where R59 has 0 leaves the fields ill-formed; what a
rejection does is `reject_spec`. -/
theorem reservedEncodingsAreRejected : Obligations.ReservedEncodingsAreRejected := by
  intro s data c hbusy _
  refine ⟨writeIssues hbusy data, fun hop => ?_, fun hop hset => ?_⟩
  · exact issue_illegalOp s (decode_of_instrOf_none (instrOf_eq_none_iff.mpr hop))
  · exact issue_rsvdField s (decode_rsvdField hop (not_wellFormed_of_set hset))

/-- Settles O6: the write issues its low half, of which every check passes; one to the upper half does not reach CMD. -/
theorem commandWriteMakesTheDecodedCommandPending : Obligations.CommandWriteMakesTheDecodedCommandPending := by
  intro s data i hbusy hd hlen hbits
  refine ⟨fun bytes hb => ⟨_, accept_spec s _ i, rfl, rfl, ?_⟩, ?_⟩
  · rw [writeIssues hbusy data bytes hb, issue_of_operandError_none hd (operandError_none hlen hbits)]
  · have h := hostWrite_regSlot (r := .cmd) .high data hbusy
    rwa [writeReg_upper s (by decide)] at h

/-- Settles O7: the lengths are `validLen_iff`, and log2 of a power of two is its exponent. -/
theorem validLengthsArePowersOfTwo : Obligations.ValidLengthsArePowersOfTwo := by
  refine fun p n => ⟨validLen_iff, fun hv => ?_⟩
  obtain ⟨k, -, hn⟩ := validLen_iff.mp hv
  rw [hn, log2N_pow]

/-- Settles O10: every arm of `exec` answers a next state, and its meaning ends in `State.complete`. -/
theorem everyCommandCompletesWithoutError : Obligations.EveryCommandCompletesWithoutError := by
  intro i s _
  obtain ⟨t, hexec⟩ := exec_next i s
  exact ⟨t, hexec, exec_completed hexec⟩

/-- Settles O3: each word is the word of its command. -/
theorem writtenWordsDecode : Obligations.WrittenWordsDecode := by
  simp only [Obligations.WrittenWordsDecode, decode_eq_ok_iff]
  decide

end Sys2Proof.Machine
end

section
/-! SUPPORT. Complex arithmetic (40_complex_arith.md): the result registers of the primitives, the commutativity of the
operations, and cos and sin wherever an enclosure settles them. -/

namespace Sys2Proof.Machine

/-! ## The result registers -/

theorem exec_cadd (s : State) : exec .cadd s = .next (s.writeRes (cadd s.opA s.opB)).complete := rfl

theorem exec_csub (s : State) : exec .csub s = .next (s.writeRes (csub s.opA s.opB)).complete := rfl

theorem exec_cmul (s : State) : exec .cmul s = .next (s.writeRes (cmul s.opA s.opB)).complete := rfl

theorem exec_cmag (s : State) : exec .cmag s = .next (s.writeRes ⟨cmag s.opA, fpZero⟩).complete := rfl

theorem exec_uroot (s : State) : exec .uroot s = .next (s.writeRes (unitRoot s.opA.re)).complete := rfl

/-- A command that writes a complex value and completes leaves it in RES, unchanged where its parts are binary64
values. -/
theorem exec_writeRes_result {i : Instr} {s : State} {z : Cplx} (hexec : exec i s = .next (s.writeRes z).complete)
    (hre : representable z.re = true) (him : representable z.im = true) :
    ∃ t, exec i s = .next t ∧ fp64 t.regs.resRe = z.re ∧ fp64 t.regs.resIm = z.im :=
  ⟨_, hexec, writeRes_result s hre him⟩

theorem bits64_fpZero (draw : Nat) : bits64 draw fpZero = 0#64 := rfl

/-! ## Commutativity -/

theorem faddFin_comm (n : Bool) (u : Nat) (m : Bool) (v : Nat) : faddFin n u m v = faddFin m v n u := by
  by_cases hsign : n = m
  · subst hsign
    rw [faddFin, faddFin, if_pos rfl, if_pos rfl, Nat.add_comm]
  · rw [faddFin, faddFin, if_neg hsign, if_neg (Ne.symm hsign)]
    rcases Nat.lt_trichotomy u v with hlt | rfl | hlt
    · rw [if_neg hlt.ne, if_neg hlt.asymm, if_neg hlt.ne', if_pos hlt]
    · rw [if_pos rfl, if_pos rfl]
    · rw [if_neg hlt.ne', if_pos hlt, if_neg hlt.ne, if_neg hlt.asymm]

theorem fadd_comm (a b : Fp) : fadd a b = fadd b a := by
  cases a with
  | nan => exact (fadd_nan_right b).symm
  | inf n =>
    cases b with
    | nan => rfl
    | inf m => cases n <;> cases m <;> rfl
    | fin m v => rfl
  | fin n u =>
    cases b with
    | nan => rfl
    | inf m => rfl
    | fin m v => exact faddFin_comm n u m v

theorem fmul_comm (a b : Fp) : fmul a b = fmul b a := by
  cases a with
  | nan => exact (fmul_nan_right b).symm
  | inf n => cases b <;> simp only [fmul, Bool.xor_comm]
  | fin n u => cases b <;> simp only [fmul, Bool.xor_comm, Nat.mul_comm]

theorem cmul_comm (a b : Cplx) : cmul a b = cmul b a := by
  rw [cmul, cmul, fmul_comm a.re b.re, fmul_comm a.im b.im, fmul_comm a.re b.im, fmul_comm a.im b.re,
    fadd_comm (fmul b.im a.re)]

/-! ## cos and sin at one precision (R69) -/

/-- The function `TrigBox.mid` encloses: `false` is cos, `true` is sin. -/
noncomputable def trigReal (sine : Bool) (θ : ℝ) : ℝ := if sine then Real.sin θ else Real.cos θ

/-- The enclosure with `guard` bits settles the value: its two ends round alike. -/
def SettledAt (sine : Bool) (units guard : Nat) : Prop :=
  roundAt (trigPrecision guard units) ((trigEnclose guard units).mid sine - (trigEnclose guard units).e) =
    roundAt (trigPrecision guard units) ((trigEnclose guard units).mid sine + (trigEnclose guard units).e)

theorem trigSettled_iff {sine : Bool} {units : Nat} :
    TrigSettled sine units ↔ ∃ g ∈ Config.trigGuards, SettledAt sine units g := Iff.rfl

theorem abs_trigReal_le_one (sine : Bool) (θ : ℝ) : |trigReal sine θ| ≤ 1 := by
  cases sine
  · exact Real.abs_cos_le_one θ
  · exact Real.abs_sin_le_one θ

theorem TrigBox.Holds.mid {p : ℕ} {b : TrigBox} {θ : ℝ} (h : b.Holds p θ) (sine : Bool) :
    |trigReal sine θ * 2 ^ p - b.mid sine| ≤ b.e := by
  obtain ⟨hcos, hsin⟩ := h
  cases sine
  · exact hcos
  · exact hsin

theorem le_trigPrecision (guard units : Nat) : 1074 ≤ trigPrecision guard units := by
  rw [trigPrecision]
  omega

/-- Both ends of an enclosure round alike, and the exact value lies between them. -/
theorem roundsTo_of_settledAt {sine : Bool} {units guard : Nat} (hu : units ≠ 0) (h : SettledAt sine units guard) :
    RoundsTo (trigReal sine (units / oneUnits))
      (roundAt (trigPrecision guard units) ((trigEnclose guard units).mid sine - (trigEnclose guard units).e)) := by
  have hmid := abs_le.mp ((trigEnclose_holds guard units hu).mid sine)
  rw [oneUnits_real]
  refine between_rounds (le_trigPrecision guard units) (abs_trigReal_le_one sine _) ?_ ?_ h
  · push_cast
    linarith
  · push_cast
    linarith

/-! ## The guards in turn -/

theorem trigRound_of_settledAt {sine : Bool} {units guard : Nat} (h : SettledAt sine units guard) (gs : List Nat) :
    trigRound sine units (guard :: gs) =
      roundAt (trigPrecision guard units) ((trigEnclose guard units).mid sine - (trigEnclose guard units).e) := by
  rw [trigRound.eq_def]
  exact if_pos h

theorem trigRound_of_not_settledAt {sine : Bool} {units guard : Nat} (h : ¬ SettledAt sine units guard) (g : Nat)
    (gs : List Nat) : trigRound sine units (guard :: g :: gs) = trigRound sine units (g :: gs) := by
  rw [trigRound]
  exact if_neg h

/-- The first guard that settles the value gives it. -/
theorem trigRound_roundsTo {sine : Bool} {units : Nat} (hu : units ≠ 0) {gs : List Nat}
    (h : ∃ g ∈ gs, SettledAt sine units g) :
    RoundsTo (trigReal sine (units / oneUnits)) (trigRound sine units gs) := by
  induction gs with
  | nil => simp at h
  | cons guard gs ih =>
    by_cases hguard : SettledAt sine units guard
    · rw [trigRound_of_settledAt hguard]
      exact roundsTo_of_settledAt hu hguard
    · have hlater : ∃ g ∈ gs, SettledAt sine units g := by simpa [hguard] using h
      cases gs with
      | nil => simp at hlater
      | cons g gs =>
        rw [trigRound_of_not_settledAt hguard]
        exact ih hlater

/-! ## The unit root (R69) -/

/-- cos is even. -/
theorem cosRN_roundsTo (n : Bool) {u : Nat} (hu : u ≠ 0) (h : TrigSettled false u) :
    RoundsTo (Real.cos (fpReal (.fin n u))) (cosRN u) := by
  have hcos : Real.cos (fpReal (.fin n u)) = trigReal false (u / oneUnits) := by
    cases n <;> simp [fpReal_fin, sgn, trigReal]
  rw [hcos, cosRN, if_neg hu]
  exact trigRound_roundsTo hu h

/-- sin is odd. -/
theorem sinRN_roundsTo (n : Bool) {u : Nat} (hu : u ≠ 0) (h : TrigSettled true u) :
    RoundsTo (Real.sin (fpReal (.fin n u))) (sinRN n u) := by
  have hpos := trigRound_roundsTo hu h
  rw [sinRN, if_neg hu]
  cases n with
  | false => simpa [fpReal_fin, sgn, trigReal] using hpos
  | true => simpa [fpReal_fin, sgn, trigReal] using hpos.neg

theorem unitRoot_of_special {x : Fp} (h : fmul piFp x = .nan ∨ ∃ n, fmul piFp x = .inf n) :
    unitRoot x = ⟨.nan, .nan⟩ := by
  rcases h with hnan | ⟨n, hinf⟩
  · rw [unitRoot, hnan]
  · rw [unitRoot, hinf]

theorem unitRoot_of_fin {x : Fp} {n : Bool} {u : Nat} (h : fmul piFp x = .fin n u) :
    unitRoot x = ⟨cosRN u, sinRN n u⟩ := by
  rw [unitRoot, h]

end Sys2Proof.Machine
end

section
/-! CERTIFICATES. The statements of 40_complex_arith.md. -/

namespace Sys2Proof.Machine

/-- Settles O11: a rounded sum is a binary64 value, so RES holds it exactly. -/
theorem caddResult : Obligations.CaddResult := fun s =>
  exec_writeRes_result (exec_cadd s) (fadd_representable ..) (fadd_representable ..)

/-- Settles O12: a rounded difference is a binary64 value, so RES holds it exactly. -/
theorem csubResult : Obligations.CsubResult := fun s =>
  exec_writeRes_result (exec_csub s) (fsub_representable ..) (fsub_representable ..)

/-- Settles O13: the last operation of each part is a rounded one, so RES holds it exactly. -/
theorem cmulResult : Obligations.CmulResult := fun s =>
  exec_writeRes_result (exec_cmul s) (fsub_representable ..) (fadd_representable ..)

/-- Settles O14: a rounded root is a binary64 value, and the pattern of +0.0 is all zeros, whichever NaN is drawn. -/
theorem cmagResult : Obligations.CmagResult := fun s =>
  ⟨_, exec_cmag s, fp64_bits64 s.draws (fsqrt_representable _), bits64_fpZero (s.draws + 1)⟩

/-- Settles O15: both parts of a unit root are binary64 values, so RES holds them exactly. -/
theorem urootResult : Obligations.UrootResult := fun s =>
  exec_writeRes_result (exec_uroot s) (unitRoot_representable _).1 (unitRoot_representable _).2

/-- Settles O35: the product is cmul's own equation; it commutes as `fmul` and `fadd` do. -/
theorem cmulIsTheCommutativeCrossTermProduct : Obligations.CmulIsTheCommutativeCrossTermProduct := fun a b =>
  ⟨rfl, cmul_comm a b⟩

/-- Settles O37: by the cases of the product t; the exact cos and sin of a settled t lie between two ends that round
alike. -/
theorem unitRootIsCorrectlyRounded : Obligations.UnitRootIsCorrectlyRounded := by
  refine fun x => ⟨unitRoot_of_special, fun n h => unitRoot_of_fin h, fun n u h hu => ?_⟩
  rw [unitRoot_of_fin h]
  exact ⟨cosRN_roundsTo n hu, sinRN_roundsTo n hu⟩

end Sys2Proof.Machine
end

section
/-! SUPPORT. The bit reversal bit by bit (41_bitrev.md R76 to R79), and the commands that leave the memory alone. -/

namespace Sys2Proof.Machine

/-! ## The reversed bits -/

theorem rev6_testBit : ∀ k < 64, ∀ m < 6, (rev6 k).testBit m = k.testBit (5 - m) := by decide

theorem group6_lt (i lo : Nat) : group6 i lo < 64 := Nat.mod_lt _ (by norm_num)

theorem group6_testBit (i lo m : Nat) : (group6 i lo).testBit m = (decide (m < 6) && i.testBit (lo + m)) := by
  rw [group6, show 64 = 2 ^ 6 from rfl, Nat.testBit_mod_two_pow, Nat.testBit_div_two_pow, Nat.add_comm]

/-- The lookup of the group at `lo` fills the six bits at `sh`, the group's mirror image in 24 bits, and no other. -/
theorem lookup_testBit (i j : Nat) {lo sh : Nat} (hmirror : lo + sh = 18) :
    (rev6 (group6 i lo) <<< sh).testBit j = (decide (sh ≤ j ∧ j < sh + 6) && i.testBit (23 - j)) := by
  rw [Nat.testBit_shiftLeft]
  by_cases hlow : sh ≤ j
  · by_cases hhigh : j < sh + 6
    · have hbit : lo + (5 - (j - sh)) = 23 - j := by omega
      rw [rev6_testBit _ (group6_lt i lo) _ (by omega), group6_testBit, hbit]
      simp [hlow, hhigh, show 5 - (j - sh) < 6 by omega]
    · have hout : (rev6 (group6 i lo)).testBit (j - sh) = false :=
        Nat.testBit_lt_two_pow ((rev6_lt _).trans_le (Nat.pow_le_pow_right (by norm_num) (by omega)))
      simp [hout, hhigh]
  · simp [hlow]

/-- The mirror images of the four groups cover the 24 bits. -/
theorem rev24_testBit (i j : Nat) : (rev24 i).testBit j = (decide (j < 24) && i.testBit (23 - j)) := by
  have hcover : decide (j < 24) = (decide (18 ≤ j ∧ j < 24) || decide (12 ≤ j ∧ j < 18) ||
      decide (6 ≤ j ∧ j < 12) || decide (0 ≤ j ∧ j < 6)) := by
    simp only [← Bool.decide_or, decide_eq_decide]
    omega
  have hlast := lookup_testBit i j (lo := 18) (sh := 0) rfl
  rw [Nat.shiftLeft_zero] at hlast
  rw [hcover, rev24, Nat.testBit_or, Nat.testBit_or, Nat.testBit_or, hlast, lookup_testBit i j rfl,
    lookup_testBit i j rfl, lookup_testBit i j rfl, ← Bool.and_or_distrib_right, ← Bool.and_or_distrib_right,
    ← Bool.and_or_distrib_right]

theorem bitrev_testBit (i : Nat) {b : Nat} (hb : b ≤ 24) (j : Nat) :
    (bitrev i b).testBit j = (decide (j < b) && i.testBit (b - 1 - j)) := by
  rw [bitrev, Nat.testBit_shiftRight, rev24_testBit, Nat.testBit_mod_two_pow]
  by_cases hj : j < b
  · have hbit : 23 - (24 - b + j) = b - 1 - j := by omega
    have hin : b - 1 - j < 24 := by omega
    have hrange : 24 - b + j < 24 := by omega
    simp [hj, hbit, hin, hrange]
  · simp [hj, show ¬ 24 - b + j < 24 by omega]

theorem bitrev_testBit_mirror (i : Nat) {b m : Nat} (hb : b ≤ 24) (hm : m < b) :
    (bitrev i b).testBit (b - 1 - m) = i.testBit m := by
  have hmirror : b - 1 - (b - 1 - m) = m := by omega
  simp [bitrev_testBit i hb, hmirror, show b - 1 - m < b by omega]

/-- The bit reversal of `b` bits is its own inverse below 2^b (41_bitrev.md R79). -/
theorem bitrev_bitrev {i b : Nat} (hb : b ≤ 24) (hi : i < 2 ^ b) : bitrev (bitrev i b) b = i := by
  refine Nat.eq_of_testBit_eq fun j => ?_
  rw [bitrev_testBit _ hb]
  by_cases hj : j < b
  · simp [hj, bitrev_testBit_mirror i hb hj]
  · simp [hj, Nat.testBit_lt_two_pow (hi.trans_le (Nat.pow_le_pow_right (by norm_num) (Nat.not_lt.mp hj)))]

/-! ## The commands that run no loop -/

theorem usesLen_of_result : ∀ i ∈ [Instr.cadd, .csub, .cmul, .cmag, .uroot], i.usesLen = false := by decide

theorem exec_sameMemory {i : Instr} {s t : State} (h : exec i s = .next t) (hi : i.usesLen = false) :
    SameMemory s t := by
  obtain ⟨-, -, hwrites⟩ := exec_writes h
  have hmem : t.mem = s.mem := by
    by_contra hne
    exact absurd (hwrites hne) (by simp [hi])
  exact ⟨hmem, byte_congr hmem (exec_completed h).epoch⟩

theorem exec_bitrev (s : State) : exec .bitrev s = .next (State.complete { s with
    regs := { s.regs with ridx := BitVec.ofNat 32 (bitrev s.regs.idx.toNat s.regs.bits.toNat) } }) := rfl

theorem bitrev_toNat_word (i : Nat) {b : Nat} (hb : b ≤ 24) : (BitVec.ofNat 32 (bitrev i b)).toNat = bitrev i b := by
  rw [BitVec.toNat_ofNat, Nat.mod_eq_of_lt]
  exact (bitrev_lt i hb).trans_le (Nat.pow_le_pow_right (by norm_num) (by omega))

end Sys2Proof.Machine
end

section
/-! CERTIFICATES. The statements of 41_bitrev.md. -/

namespace Sys2Proof.Machine

/-- Settles O16: by what a command can do; only a loop writes the memory. -/
theorem registerCommandsFrame : Obligations.RegisterCommandsFrame := by
  intro i s t h
  have hcompleted := exec_completed h
  cases exec_cases h with
  | nop =>
    refine ⟨fun hi => absurd hi (by decide), nofun, fun _ => ?_⟩
    exact ⟨hcompleted, rfl, rfl, rfl, rfl, rfl, exec_sameMemory h rfl⟩
  | bitrev v =>
    refine ⟨fun hi => absurd hi (by decide), fun _ => ?_, nofun⟩
    exact ⟨hcompleted, rfl, rfl, rfl, rfl, exec_sameMemory h rfl⟩
  | result z hi =>
    refine ⟨fun _ => ⟨hcompleted, rfl, rfl, exec_sameMemory h (usesLen_of_result i hi)⟩, ?_, ?_⟩
    · rintro rfl; exact absurd hi (by decide)
    · rintro rfl; exact absurd hi (by decide)
  | loops hi hf =>
    refine ⟨fun hmem => ?_, ?_, ?_⟩
    · exact absurd hi (by simp [usesLen_of_result i hmem])
    · rintro rfl; cases hi
    · rintro rfl; cases hi

/-- Settles O18: the ROM by its 64 entries, the four lookups by the six bits each of them fills. -/
theorem romReversesSixBits : Obligations.RomReversesSixBits := by
  refine ⟨rfl, fun k hk => ⟨rev6_lt k, rev6_testBit k hk⟩, fun i => ⟨rev24_lt i, fun m hm => ?_⟩⟩
  have hmirror : 23 - (23 - m) = m := by omega
  simp [rev24_testBit, hmirror, show 23 - m < 24 by omega]

/-- Settles O19: the shift drops the bits of the 24-bit reversal that come from index bits at b and above. -/
theorem bitrevReversesTheLowBits : Obligations.BitrevReversesTheLowBits := fun i _ hb =>
  ⟨bitrev_lt i hb, fun _ hm => bitrev_testBit_mirror i hb hm⟩

/-- Settles O20: a map of [0, 2^b) into itself that is its own inverse is a bijection. -/
theorem bitrevIsAnInvolutiveBijection : Obligations.BitrevIsAnInvolutiveBijection := by
  intro b hb
  have hinv : Set.LeftInvOn (fun i => bitrev i b) (fun i => bitrev i b) (Set.Iio (2 ^ b)) := fun _ hi =>
    bitrev_bitrev hb hi
  have hmaps : Set.MapsTo (fun i => bitrev i b) (Set.Iio (2 ^ b)) (Set.Iio (2 ^ b)) := fun i _ => bitrev_lt i hb
  exact ⟨fun _ hi => hinv hi, Set.InvOn.bijOn ⟨hinv, hinv⟩ hmaps hmaps⟩

/-- Settles O21: the result fits in 24 bits, so RIDX holds it exactly. -/
theorem bitrevResult : Obligations.BitrevResult := by
  intro s hbits
  have hridx := bitrev_toNat_word s.regs.idx.toNat hbits
  refine ⟨_, exec_bitrev s, hridx, fun m hm => ?_⟩
  calc (BitVec.ofNat 32 (bitrev s.regs.idx.toNat s.regs.bits.toNat)).getLsbD (s.regs.bits.toNat - 1 - m)
      = (bitrev s.regs.idx.toNat s.regs.bits.toNat).testBit (s.regs.bits.toNat - 1 - m) := by
        rw [← BitVec.testBit_toNat, hridx]
    _ = s.regs.idx.toNat.testBit m := bitrev_testBit_mirror _ hbits hm
    _ = s.regs.idx.getLsbD m := BitVec.testBit_toNat _

end Sys2Proof.Machine
end

section
/-! SUPPORT. The scale of 42_setup.md R81: a length four times as great has exactly twice the root and half the
scale. -/

namespace Sys2Proof.Machine

/-! ## Rounding commutes with powers of two -/

theorem log2_mul_two_pow {u : Nat} (hu : u ≠ 0) (k : Nat) : (u * 2 ^ k).log2 = u.log2 + k := by
  obtain ⟨hlo, hhi⟩ := log2_bounds hu
  apply log2_eq_of_bounds
  · rw [pow_add]
    exact Nat.mul_le_mul_right _ hlo
  · rw [Nat.add_right_comm, pow_add]
    exact Nat.mul_lt_mul_of_pos_right hhi (Nat.two_pow_pos k)

theorem rneDiv_mul_right (num den : Nat) {c : Nat} (hc : 0 < c) : rneDiv (num * c) (den * c) = rneDiv num den := by
  have hmod : 2 * (num % den * c) = 2 * (num % den) * c := (mul_assoc ..).symm
  simp only [rneDiv, Nat.mul_mod_mul_right, Nat.mul_div_mul_right _ _ hc, hmod, Nat.mul_lt_mul_right hc]

theorem roundRatio_mul_right (prec num den : Nat) {c : Nat} (hc : 0 < c) :
    roundRatio prec (num * c) (den * c) = roundRatio prec num den := by
  rw [roundRatio, Nat.mul_div_mul_right _ _ hc, mul_right_comm, rneDiv_mul_right _ _ hc, ← roundRatio]

/-- A ratio of at least `prec` bits keeps its significant bits when it is multiplied by a power of two. -/
theorem roundRatio_mul_two_pow {prec num den : Nat} (hp : 0 < prec) (h : 2 ^ (prec - 1) ≤ num / den) (k : Nat) :
    roundRatio prec (num * 2 ^ k) den = roundRatio prec num den * 2 ^ k := by
  have hq : num / den ≠ 0 := by have := Nat.two_pow_pos (prec - 1); omega
  have hden : 0 < den := Nat.pos_of_ne_zero fun h0 => hq (by rw [h0, Nat.div_zero])
  have hlog : (num * 2 ^ k / den).log2 = (num / den).log2 + k := by
    obtain ⟨hlo, hhi⟩ := log2_bounds hq
    rw [Nat.le_div_iff_mul_le hden] at hlo
    rw [Nat.div_lt_iff_lt_mul hden] at hhi
    apply log2_eq_of_bounds
    · rw [Nat.le_div_iff_mul_le hden, pow_add, mul_right_comm]
      exact Nat.mul_le_mul_right _ hlo
    · rw [Nat.div_lt_iff_lt_mul hden, Nat.add_right_comm, pow_add, mul_right_comm]
      exact Nat.mul_lt_mul_of_pos_right hhi (Nat.two_pow_pos k)
  have hdrop : dropBits prec (num * 2 ^ k / den) = dropBits prec (num / den) + k := by
    have := (Nat.le_log2 hq).mpr h
    unfold dropBits
    omega
  rw [roundRatio, hdrop, pow_add, ← mul_assoc, ← mul_assoc, rneDiv_mul_right _ _ (Nat.two_pow_pos k),
    ← roundRatio]

/-- A ratio that rounds to 2^(j+1) or above is at least 2^j. -/
theorem two_pow_le_div {prec num den j : Nat} (hp : 2 ≤ prec) (hden : 0 < den)
    (h : 2 ^ (j + 1) ≤ roundRatio prec num den) : 2 ^ j ≤ num / den := by
  have hreal := isRounding_ge (by omega) (roundRatio_isRounding hp num hden) h
  rw [le_div_iff₀ (by exact_mod_cast hden)] at hreal
  exact (Nat.le_div_iff_mul_le hden).mpr (by exact_mod_cast hreal)

theorem ofRatio_eq_fin_iff {neg : Bool} {num den u : Nat} :
    ofRatio neg num den = .fin neg u ↔ roundRatio 53 num den = u ∧ u < overflowUnits64 := by
  unfold ofRatio
  split_ifs with h
  · simp only [Fp.fin.injEq, true_and]
    exact ⟨fun hu => ⟨hu, hu ▸ h⟩, And.left⟩
  · simp only [false_iff]
    rintro ⟨rfl, hu⟩
    exact h hu

/-! ## Roots and reciprocals -/

theorem sqrtSticky_mul_four_pow {x : Nat} (hx : 2 ^ 128 ≤ x) (k : Nat) :
    sqrtSticky (x * 4 ^ k) = sqrtSticky x * 2 ^ k := by
  have hx0 : x ≠ 0 := by omega
  have hlog := (Nat.le_log2 hx0).mpr hx
  have hdrop : sqrtDrop (x * 4 ^ k) = sqrtDrop x + k := by
    rw [sqrtDrop, show 4 = 2 ^ 2 from rfl, ← pow_mul, log2_mul_two_pow hx0, sqrtDrop]
    omega
  have h4 : 0 < 4 ^ k := by positivity
  simp only [sqrtSticky, hdrop, pow_add, Nat.mul_div_mul_right _ _ h4, ← mul_assoc, Nat.mul_left_inj h4.ne']

/-- Four to the k times the operand, two to the k times the root. -/
theorem fsqrt_mul_four_pow {u r k : Nat} (hu : 2 ^ 128 ≤ u) (hroot : fsqrt (.fin false u) = .fin false r)
    (hlo : 2 ^ 53 ≤ r) (hhi : r * 2 ^ k < overflowUnits64) :
    fsqrt (.fin false (u * 4 ^ k)) = .fin false (r * 2 ^ k) := by
  have hu0 : u ≠ 0 := by omega
  have hx : 2 ^ 128 ≤ u * oneUnits := hu.trans (Nat.le_mul_of_pos_right u oneUnits_pos)
  rw [fsqrt, if_neg hu0, if_neg (by simp), ofRatio_eq_fin_iff] at hroot
  rw [fsqrt, if_neg (by positivity), if_neg (by simp), ofRatio_eq_fin_iff, mul_right_comm, sqrtSticky_mul_four_pow hx,
    roundRatio_mul_two_pow (by norm_num) (two_pow_le_div (by norm_num) (by norm_num) (hroot.1 ▸ hlo)), hroot.1]
  exact ⟨rfl, hhi⟩

/-- Two to the k times the divisor, the quotient divided by two to the k. -/
theorem fdiv_mul_two_pow {m r q k : Nat} (hr : r ≠ 0) (hquot : fdiv (.fin false m) (.fin false r) = .fin false q)
    (hlo : 2 ^ (53 + k) ≤ q) :
    ∃ q', fdiv (.fin false m) (.fin false (r * 2 ^ k)) = .fin false q' ∧ q' * 2 ^ k = q := by
  rw [fdiv, if_neg hr, Bool.xor_false, ofRatio_eq_fin_iff] at hquot
  obtain ⟨hq, hhi⟩ := hquot
  have hpos := Nat.two_pow_pos k
  have hdiv : 2 ^ 52 ≤ m * oneUnits / (r * 2 ^ k) := by
    rw [show 53 + k = 52 + k + 1 by omega, ← hq] at hlo
    rw [← Nat.div_div_eq_div_mul, Nat.le_div_iff_mul_le hpos, ← pow_add]
    exact two_pow_le_div (by norm_num) (Nat.pos_of_ne_zero hr) hlo
  have hscaled : roundRatio 53 (m * oneUnits) (r * 2 ^ k) * 2 ^ k = q := by
    rw [← roundRatio_mul_two_pow (by norm_num) hdiv, roundRatio_mul_right _ _ _ hpos, hq]
  refine ⟨_, ?_, hscaled⟩
  rw [fdiv, if_neg (by positivity), Bool.xor_false, ofRatio_eq_fin_iff]
  exact ⟨rfl, (hscaled ▸ Nat.le_mul_of_pos_right _ hpos).trans_lt hhi⟩

/-! ## The pattern of a value and of the value divided by a power of two -/

theorem magnitudeBits_mul_two_pow {frac u : Nat} (hu : 2 ^ frac ≤ u) (k : Nat) :
    magnitudeBits frac (u * 2 ^ k) = magnitudeBits frac u + k * 2 ^ frac := by
  have hu0 : u ≠ 0 := by have := Nat.two_pow_pos frac; omega
  have hlog := (Nat.le_log2 hu0).mpr hu
  rw [magnitudeBits, log2_mul_two_pow hu0, Nat.sub_add_comm hlog, pow_add,
    Nat.mul_div_mul_right _ _ (Nat.two_pow_pos k), add_mul, magnitudeBits]
  omega

theorem bits64_div_two_pow (draw : Nat) {u k : Nat} (hlo : 2 ^ 52 ≤ u)
    (hrep : representable (.fin false (u * 2 ^ k)) = true) :
    bits64 draw (.fin false u) = bits64 draw (.fin false (u * 2 ^ k)) - (BitVec.ofNat 64 k <<< 52) := by
  simp only [representable, Bool.and_eq_true, decide_eq_true_eq] at hrep
  obtain ⟨hhi, -⟩ := hrep
  unfold overflowUnits64 at hhi
  have hmag := magnitudeBits_mul_two_pow hlo k
  have hlt := magnitudeBits_lt (frac := 52) (e := 2046) hhi (by norm_num)
  rw [BitVec.eq_sub_iff_add_eq]
  apply BitVec.eq_of_toNat_eq
  rw [BitVec.toNat_add, bits64, bits64, hmag, toNat_sign_append _ (by omega), toNat_sign_append _ (by omega),
    BitVec.toNat_shiftLeft, BitVec.toNat_ofNat, Nat.shiftLeft_eq, Bool.toNat_false]
  omega

/-! ## The scale -/

theorem fitsIn_mul_two_pow {prec n : Nat} (hn : n < 2 ^ prec) (k : Nat) : fitsIn prec (n * 2 ^ k) := by
  rcases Nat.eq_zero_or_pos n with rfl | hpos
  · simp [fitsIn]
  · have hdrop : dropBits prec (n * 2 ^ k) ≤ k := by
      have := (Nat.log2_lt hpos.ne').mpr hn
      rw [dropBits, log2_mul_two_pow hpos.ne']
      omega
    exact Nat.mod_eq_zero_of_dvd ((pow_dvd_pow 2 hdrop).mul_left n)

theorem oneUnits_eq : oneUnits = 2 ^ 1074 := by unfold oneUnits; rfl

theorem mul_oneUnits_lt {u e : Nat} (hu : u < 2 ^ e) (he : e ≤ 1024) : u * oneUnits < overflowUnits64 := by
  unfold oneUnits overflowUnits64
  calc u * 2 ^ 1074 < 2 ^ e * 2 ^ 1074 := Nat.mul_lt_mul_of_pos_right hu (Nat.two_pow_pos _)
    _ = 2 ^ (e + 1074) := (pow_add ..).symm
    _ ≤ 2 ^ 2098 := Nat.pow_le_pow_right two_pos (by omega)

/-- A length up to 2^24 is a binary64 value. -/
theorem fpOfNat_exact {n : Nat} (hn : n ≤ 2 ^ 24) : fpOfNat n = .fin false (n * oneUnits) := by
  have hfits : fitsIn 53 (n * oneUnits) := by
    rw [oneUnits_eq]
    exact fitsIn_mul_two_pow (by omega) 1074
  have hround := roundRatio_exact one_pos hfits
  rw [mul_one] at hround
  exact ofRatio_eq_fin_iff.mpr ⟨hround, mul_oneUnits_lt (e := 25) (by omega) (by norm_num)⟩

section
-- `r` and `q` are the root and the scale of the length `n`, in units.
variable {n k r q : Nat} (hn : 0 < n) (hlen : n * 4 ^ k ≤ 2 ^ 24) (hroot : fsqrt (fpOfNat n) = .fin false r)
  (hr : 2 ^ 53 ≤ r ∧ r < 2 ^ 1100) (hquot : fdiv fpOne (.fin false r) = .fin false q) (hq : 2 ^ 65 ≤ q)
include hn hlen hroot hr hquot hq

/-- For a length 4^k times as great the scale is 2^k times smaller. -/
theorem scaleOf_mul_four_pow : ∃ q', scaleOf (n * 4 ^ k) = .fin false q' ∧ q' * 2 ^ k = q ∧ 2 ^ 53 ≤ q' := by
  have hk : k ≤ 12 := by
    have h4 : 4 ^ k ≤ 4 ^ 12 := (Nat.le_mul_of_pos_left _ hn).trans hlen
    exact (Nat.pow_le_pow_iff_right (by norm_num)).mp h4
  have hu : 2 ^ 128 ≤ n * oneUnits := by
    refine le_trans ?_ (Nat.le_mul_of_pos_left oneUnits hn)
    rw [oneUnits_eq]
    exact Nat.pow_le_pow_right two_pos (by norm_num)
  have hrlt : r * 2 ^ k < overflowUnits64 := by
    unfold overflowUnits64
    calc r * 2 ^ k < 2 ^ 1100 * 2 ^ k := Nat.mul_lt_mul_of_pos_right hr.2 (Nat.two_pow_pos k)
      _ = 2 ^ (1100 + k) := (pow_add ..).symm
      _ ≤ 2 ^ 2098 := Nat.pow_le_pow_right two_pos (by omega)
  have hqlo : 2 ^ (53 + k) ≤ q := (Nat.pow_le_pow_right two_pos (by omega)).trans hq
  rw [fpOfNat_exact ((Nat.le_mul_of_pos_right n (by positivity)).trans hlen)] at hroot
  obtain ⟨q', hscale, hq'⟩ := fdiv_mul_two_pow (by omega) hquot hqlo
  refine ⟨q', ?_, hq', ?_⟩
  · rw [scaleOf, fpOfNat_exact hlen, mul_right_comm, fsqrt_mul_four_pow hu hroot hr.1 hrlt]
    exact hscale
  · rw [← hq', pow_add] at hqlo
    exact Nat.le_of_mul_le_mul_right hqlo (Nat.two_pow_pos k)

/-- Its exponent field is k less. -/
theorem bits64_scaleOf_mul_four_pow (draw : Nat) :
    bits64 draw (scaleOf (n * 4 ^ k)) = bits64 draw (.fin false q) - (BitVec.ofNat 64 k <<< 52) := by
  obtain ⟨q', hscale, rfl, hlo⟩ := scaleOf_mul_four_pow hn hlen hroot hr hquot hq
  rw [hscale]
  exact bits64_div_two_pow draw (by omega) (hquot ▸ fdiv_representable _ _)

end

end Sys2Proof.Machine
end

section
/-! SUPPORT. The commands on the buffers: what Setup and the butterfly of a valid length leave alone (42_setup.md R83,
43_butterfly.md R90), and Setup of length 1 (42_setup.md R84). -/

namespace Sys2Proof.Machine

/-! ## Setup of a valid length -/

theorem exec_setup (p : Prec) (s : State) : exec (.setup p) s = .next (setup s.lenN p s).complete := rfl

theorem setup_spec_of_validLen {s : State} (hv : validLen s.inst s.regs.len = true) (p : Prec) :
    LoopFrame s.lenN s (setup s.lenN p s) ∧ ∀ l < s.lenN, (setup s.lenN p s).ldPair .outRe .outIm l p =
      setupValue p s.lenN (fun i => s.ldPair .inRe .inIm i p) l := by
  obtain ⟨k, hk, hn, -⟩ := lenN_of_validLen hv
  exact setup_spec p s k _ hk hn (fun l hl => bitrev_bitrev hk (hn ▸ hl)) (fun l => hn ▸ bitrev_lt l hk)

theorem setup_outHighZero_of_validLen {s : State} (hv : validLen s.inst s.regs.len = true) :
    OutHighHalvesZero s.lenN (setup s.lenN .f32 s) := by
  obtain ⟨k, hk, hn, -⟩ := lenN_of_validLen hv
  exact setup_outHighZero s k _ hk hn (fun l hl => bitrev_bitrev hk (hn ▸ hl)) (fun l => hn ▸ bitrev_lt l hk)

/-! ## Setup of length 1 -/

/-- The product of a binary64 value and 1.0 is exact. -/
theorem fmul_fpOne {x : Fp} (h : representable x = true) : fmul x fpOne = x := by
  cases x with
  | nan => rfl
  | inf n => simp [fpOne, fmul, oneUnits_pos.ne']
  | fin n u =>
    simp only [representable, Bool.and_eq_true, decide_eq_true_eq, beq_iff_eq] at h
    rw [fpOne, fmul, ofRatio, roundRatio_exact oneUnits_pos h.2, if_pos h.1, Bool.xor_false]

theorem ld_representable (s : State) (b : Buf) (k : Nat) (p : Prec) : representable (s.ld b k p) = true := by
  cases p with
  | f32 => exact fp32_representable _
  | f64 => exact fp64_representable _

theorem scaleOf_one : scaleOf 1 = fpOne := by decide +kernel

/-- Setup of length 1 stores each part of IN[0] in its OUT[0]. -/
theorem setup_one_slot {a b : Buf} (hab : (a, b) = (Buf.inRe, Buf.outRe) ∨ (a, b) = (Buf.inIm, Buf.outIm)) (p : Prec)
    (s : State) : ∃ draw, (setup 1 p s).slot b 0 = storeBits p draw (s.ld a 0 p) := by
  have hz : setup 1 p s = State.stPair { s with hidden := { s.hidden with scale := scaleOf 1 } } .outRe .outIm 0 p
      ⟨fmul (s.ld .inRe 0 p) (scaleOf 1), fmul (s.ld .inIm 0 p) (scaleOf 1)⟩ := by
    rw [State.stPair, setup, List.range_one, List.foldl_cons, List.foldl_nil, setupPoint, st_hidden,
      ld_st_other _ _ _ _ (by decide) (by norm_num) (.inl (by decide))]
    rfl
  rw [hz, scaleOf_one, fmul_fpOne (ld_representable ..), fmul_fpOne (ld_representable ..), State.stPair]
  rcases hab with h | h <;> cases h
  · rw [st_slot_other _ _ _ (by norm_num) (by norm_num) (.inl (by decide)), st_slot_same]
    exact ⟨_, rfl⟩
  · rw [st_slot_same]
    exact ⟨_, rfl⟩

/-! ## What a command on the buffers leaves alone -/

/-- A loop keeps an internal register, or all of them, that each of its rounds keeps. -/
theorem hidden_foldl {α β : Type} (field : Hidden → β) {f : State → α → State}
    (h : ∀ s x, field (f s x).hidden = field s.hidden) (l : List α) (s : State) :
    field (l.foldl f s).hidden = field s.hidden :=
  foldl_inv (P := fun t => field t.hidden = field s.hidden) l (fun t ht x _ => (h t x).trans ht) s rfl

theorem setup_hidden (n : Nat) (p : Prec) (s : State) :
    (setup n p s).hidden = { s.hidden with scale := scaleOf n } := by
  have hpoint (t : State) (i : Nat) : (setupPoint p (log2N n) t i).hidden = t.hidden := by
    rw [setupPoint, st_hidden, st_hidden]
  rw [setup]
  exact hidden_foldl id hpoint _ _

theorem butterfly_scale (a b : Buf) (n : Nat) (p : Prec) (s : State) :
    (butterfly a b n p s).hidden.scale = s.hidden.scale := by
  have hpoint (t : State) (j : Nat) : (bflyPoint a b p t j).hidden.scale = t.hidden.scale := rfl
  have hblock (t : State) (i : Nat) : (bflyBlock a b p t i).hidden.scale = t.hidden.scale := by
    rw [bflyBlock]
    exact hidden_foldl Hidden.scale hpoint _ _
  have hstage (t : State) (stride : Nat) : (bflyStage a b n p t stride).hidden.scale = t.hidden.scale := by
    rw [bflyStage]
    exact hidden_foldl Hidden.scale hblock _ _
  rw [butterfly]
  exact hidden_foldl Hidden.scale hstage _ _

/-- A slot outside OUT_RE and OUT_IM shares no byte with an OUT slot. -/
theorem OnlyOutBelow.slot_eq {n : Nat} {s t : State} (h : OnlyOutBelow n s t) (hn : n ≤ 2 ^ 24) {c : Buf} {l : Nat}
    (hl : l < 2 ^ 24) (hc : c ≠ .outRe ∧ c ≠ .outIm) : t.slot c l = s.slot c l := by
  refine bytes8_congr fun j hj => h _ fun k hk b hb => ?_
  have hbc : b ≠ c := by
    rcases hb with rfl | rfl
    · exact hc.1.symm
    · exact hc.2.symm
  have := slotAddr_apart (hk.trans_le hn) hl (.inl hbc)
  omega

/-- The transforms: Setup, then the butterfly. -/
theorem transform_loopFrame {s : State} (hv : validLen s.inst s.regs.len = true) {a b : Buf} (hab : OutPair a b)
    (p : Prec) : LoopFrame s.lenN s (butterfly a b s.lenN p (setup s.lenN p s)) := by
  obtain ⟨k, hk, hn, -⟩ := lenN_of_validLen hv
  exact (setup_spec_of_validLen hv p).1.trans (butterfly_spec a b p _ k _ hab hk hn).1

/-- A command on the buffers is loops over OUT slots below the length, then completion. -/
theorem exec_loopFrame {i : Instr} {s t : State} (hi : i.usesLen = true) (hv : validLen s.inst s.regs.len = true)
    (h : exec i s = .next t) : ∃ u, t = u.complete ∧ LoopFrame s.lenN s u := by
  cases i with
  | fwd p => cases h; exact ⟨_, rfl, transform_loopFrame hv (.inl ⟨rfl, rfl⟩) p⟩
  | inv p => cases h; exact ⟨_, rfl, transform_loopFrame hv (.inr ⟨rfl, rfl⟩) p⟩
  | setup p => cases h; exact ⟨_, rfl, (setup_spec_of_validLen hv p).1⟩
  | bfly p r =>
    cases h
    obtain ⟨k, hk, hn, -⟩ := lenN_of_validLen hv
    exact ⟨_, rfl, (butterfly_spec _ _ p s k _ (rolePair r) hk hn).1⟩
  | nop | bitrev | cadd | csub | cmul | cmag | uroot => cases hi

end Sys2Proof.Machine
end

section
/-! CERTIFICATES. The statements of 42_setup.md. -/

namespace Sys2Proof.Machine

/-- Settles O22: a length of 25 bits fits in 53; for 4^k times the length the scale's exponent is k less, and the roots
and scales of 1 and 2 are evaluated. -/
theorem scaleOfPowersOfTwo : Obligations.ScaleOfPowersOfTwo := by
  refine ⟨fun n hn => ⟨fpOfNat_exact hn, rfl⟩, fun k hk => ?_, fun k hk => ?_⟩
  · have hlen : 1 * 4 ^ k ≤ 2 ^ 24 := by
      rw [one_mul]
      exact Nat.pow_le_pow_right (n := 4) (by norm_num) hk
    have hroot : fsqrt (fpOfNat 1) = fpOne := by decide +kernel
    have hquot : fdiv fpOne fpOne = fpOne := by decide +kernel
    have hbits : bits64 0 (.fin false oneUnits) = 0x3FF0000000000000#64 := by decide +kernel
    rw [← one_mul (4 ^ k), bits64_scaleOf_mul_four_pow one_pos hlen hroot (by decide +kernel) hquot
      (by decide +kernel), hbits]
  · have hlen : 2 * 4 ^ k ≤ 2 ^ 24 := by
      have := Nat.pow_le_pow_right (n := 4) (by norm_num) hk
      omega
    have hroot : fsqrt (fpOfNat 2) = .fin false (0x16A09E667F3BCD * 2 ^ 1022) := by decide +kernel
    have hquot : fdiv fpOne (.fin false (0x16A09E667F3BCD * 2 ^ 1022)) =
      .fin false (0x16A09E667F3BCC * 2 ^ 1021) := by decide +kernel
    have hbits : bits64 0 (.fin false (0x16A09E667F3BCC * 2 ^ 1021)) = 0x3FE6A09E667F3BCC#64 := by decide +kernel
    rw [bits64_scaleOf_mul_four_pow two_pos hlen hroot (by decide +kernel) hquot (by decide +kernel), hbits]

/-- Settles O23: by what Setup leaves in the OUT slots; completion leaves the memory. -/
theorem setupPermutesAndScales : Obligations.SetupPermutesAndScales := by
  intro p s hv
  refine ⟨_, exec_setup p s, fun k hk => ?_, ?_⟩
  · rw [complete_ldPair]
    exact (setup_spec_of_validLen hv p).2 k hk
  · rintro rfl
    exact complete_outHighHalvesZero (setup_outHighZero_of_validLen hv)

/-- Settles O24: the scale is 1.0, and a storage format gives back the pattern of a value it holds. -/
theorem setupOfLengthOneIsTheIdentity : Obligations.SetupOfLengthOneIsTheIdentity := by
  intro s hlen
  have hn : s.lenN = 1 := by rw [State.lenN, hlen]; rfl
  refine ⟨⟨_, exec_setup .f64 s, fun a b hab => ?_⟩, _, exec_setup .f32 s, fun a b hab => ?_⟩
  · obtain ⟨draw, hslot⟩ := setup_one_slot hab .f64 s
    rw [complete_slot, hn, hslot]
    exact ⟨fun hx => bits64_fp64 draw hx, fun hx => (fp64_bits64 draw (fp64_representable _)).trans hx⟩
  · obtain ⟨draw, hslot⟩ := setup_one_slot hab .f32 s
    rw [complete_slot, hn, hslot]
    refine ⟨storeBits_f32_high draw _, ?_⟩
    rw [storeBits, extract_setWidth, State.ld, rn32_fp32to64]
    refine ⟨fun hx => bits32_fp32to64 draw hx, fun hx => ?_⟩
    rw [hx]
    exact fp32to64_quietNan32 _

/-- Settles O29: the loops store to OUT slots below the length and to the internal registers only, and completion
changes STATUS and the pending command only. -/
theorem bufferCommandsFrame : Obligations.BufferCommandsFrame := by
  intro i s t hi hv h
  have hcompleted := exec_completed h
  obtain ⟨k, hk, hn, hslots⟩ := lenN_of_validLen hv
  obtain ⟨u, rfl, hf⟩ := exec_loopFrame hi hv h
  have hout : OnlyOutBelow s.lenN s u.complete := fun x hx => (complete_byte u x).trans (hf.mem x hx)
  have hin {c : Buf} (hc : c ≠ .outRe ∧ c ≠ .outIm) {l : Nat} (hl : l < s.inst.slots) :
      u.complete.slot c l = s.slot c l :=
    hout.slot_eq (hslots.trans (slots_le _)) (hl.trans_le (slots_le _)) hc
  refine ⟨hcompleted, by simp [hf.regs], by simp [hf.regs], by simp [hf.regs], hout, fun l hl =>
    ⟨hin (by decide) hl, hin (by decide) hl⟩, ?_, ?_⟩
  · rintro p rfl
    rw [← Host.Outcome.next.inj h, complete_hidden, setup_hidden]
  · rintro p r rfl
    rw [← Host.Outcome.next.inj h, complete_hidden, butterfly_scale]

end Sys2Proof.Machine
end

section
/-! SUPPORT. The butterfly of a valid length (43_butterfly.md R87, R90), and quotients and products by powers of two
that need no rounding. -/

namespace Sys2Proof.Machine

/-! ## The butterfly of a valid length -/

theorem exec_bfly (p : Prec) (r : Role) (s : State) :
    exec (.bfly p r) s = .next (butterfly (roleA r) (roleB r) s.lenN p s).complete := rfl

theorem butterfly_ldPair_of_validLen {s : State} (hv : validLen s.inst s.regs.len = true) {a b : Buf}
    (hab : OutPair a b) (p : Prec) {l : Nat} (hl : l < s.lenN) :
    (butterfly a b s.lenN p s).ldPair a b l p = butterflyValue p s.lenN (fun i => s.ldPair a b i p) l := by
  obtain ⟨k, hk, hn, -⟩ := lenN_of_validLen hv
  exact (butterfly_spec a b p s k _ hab hk hn).2 l hl

theorem butterfly_outHighZero_of_validLen {s : State} (hv : validLen s.inst s.regs.len = true) {a b : Buf}
    (hab : OutPair a b) (hstage : 1 < s.lenN) : OutHighHalvesZero s.lenN (butterfly a b s.lenN .f32 s) := by
  obtain ⟨k, hk, hn, -⟩ := lenN_of_validLen hv
  exact butterfly_outHighZero hab s k _ hk hn (.inl hstage)

theorem strides_one : strides 1 = [] := by rw [strides, ← pow_zero 2, log2N_pow, List.range_zero, List.map_nil]

/-- With length 1 the loop over the stages ends at once. -/
theorem butterfly_one (a b : Buf) (p : Prec) (s : State) :
    butterfly a b 1 p s = { s with hidden := { s.hidden with stride := 1 } } := by
  rw [butterfly, strides_one, List.foldl_nil]

/-! ## Division by powers of two -/

/-- A ratio that is a binary64 value needs no rounding. -/
theorem ofRatio_exact (neg : Bool) {v den : Nat} (hden : 0 < den) (hfits : fitsIn 53 v) (hv : v < overflowUnits64) :
    ofRatio neg (v * den) den = .fin neg v :=
  ofRatio_eq_fin_iff.mpr ⟨roundRatio_exact hden hfits, hv⟩

section
-- `m * 2 ^ e` is a magnitude in units whose significand `m` has at most 53 bits, and 2^-k times it is one, too.
variable (n : Bool) {m e k : Nat} (hm : m < 2 ^ 53) (hke : k ≤ e)
include hke

theorem mul_two_pow_eq : m * 2 ^ e = m * 2 ^ (e - k) * 2 ^ k := by
  rw [mul_assoc, ← pow_add, Nat.sub_add_cancel hke]

theorem fpReal_div_two_pow : fpReal (.fin n (m * 2 ^ (e - k))) = fpReal (.fin n (m * 2 ^ e)) / 2 ^ k := by
  rw [fpReal_fin, fpReal_fin, mul_two_pow_eq hke]
  push_cast
  field_simp

include hm

/-- Divided by 2^k it still fits in 53 bits and is below 2^1024, so that a ratio equal to it is not rounded. -/
theorem ofRatio_div_two_pow (he : e ≤ 2045) {den : Nat} (hden : 0 < den) :
    ofRatio n (m * 2 ^ (e - k) * den) den = .fin n (m * 2 ^ (e - k)) := by
  refine ofRatio_exact n hden (fitsIn_mul_two_pow hm _) ?_
  unfold overflowUnits64
  calc m * 2 ^ (e - k) < 2 ^ 53 * 2 ^ (e - k) := Nat.mul_lt_mul_of_pos_right hm (Nat.two_pow_pos _)
    _ = 2 ^ (53 + (e - k)) := (pow_add ..).symm
    _ ≤ 2 ^ 2098 := Nat.pow_le_pow_right two_pos (by omega)

/-- The quotient by 2^k is exact. -/
theorem fdiv_two_pow (he : e ≤ 2045) (hk : k ≤ 24) :
    fdiv (.fin n (m * 2 ^ e)) (fpOfNat (2 ^ k)) = .fin n (m * 2 ^ (e - k)) := by
  have hden : 0 < 2 ^ k * oneUnits := Nat.mul_pos (Nat.two_pow_pos k) oneUnits_pos
  rw [fpOfNat_exact (Nat.pow_le_pow_right two_pos hk), fdiv, if_neg hden.ne', Bool.xor_false, mul_two_pow_eq hke,
    mul_assoc, ofRatio_div_two_pow n hm hke he hden]

/-- The product by plus or minus 2^-k is exact. -/
theorem fmul_two_pow_inv (neg : Bool) (he : e ≤ 2045) (hk : k ≤ 1074) :
    fmul (.fin n (m * 2 ^ e)) (.fin neg (2 ^ (1074 - k))) = .fin (n ^^ neg) (m * 2 ^ (e - k)) := by
  have hone : 2 ^ k * 2 ^ (1074 - k) = oneUnits := by rw [oneUnits_eq, ← pow_add, Nat.add_sub_cancel' hk]
  rw [fmul, mul_two_pow_eq hke, mul_assoc, hone, ofRatio_div_two_pow _ hm hke he oneUnits_pos]

end

/-! ## The twiddle's argument -/

theorem fpReal_fneg_fpOne : fpReal (fneg fpOne) = -1 := by
  rw [fpOne, fneg_real, fpReal_fin, div_self oneUnits_posR.ne', mul_one, sgn, if_neg Bool.false_ne_true]

theorem fneg_fpOne_eq : fneg fpOne = .fin true (1 * 2 ^ 1074) := by
  rw [fpOne, fneg, oneUnits_eq, one_mul, Bool.not_false]

theorem fdiv_neg_one_two_pow {k : Nat} (hk : k ≤ 24) :
    fdiv (fneg fpOne) (fpOfNat (2 ^ k)) = .fin true (1 * 2 ^ (1074 - k)) := by
  rw [fneg_fpOne_eq, fdiv_two_pow true (by norm_num) (by omega) (by norm_num) hk]

/-- π64 as a significand of 53 bits times a power of two (00_scope.md R11). -/
theorem piFp_eq : piFp = .fin false (0x1921FB54442D18 * 2 ^ 1023) := by decide +kernel

end Sys2Proof.Machine
end

section
/-! CERTIFICATES. The statements of 43_butterfly.md. -/

namespace Sys2Proof.Machine

/-- Settles O25: by what the stages leave in the pair of OUT buffers that the role names; completion leaves the
memory. -/
theorem bflyComputesTheStages : Obligations.BflyComputesTheStages := by
  intro p r s hv
  refine ⟨_, exec_bfly p r s, fun k hk => ⟨?_, ?_⟩, ?_⟩
  · rintro rfl
    rw [complete_ldPair]
    exact butterfly_ldPair_of_validLen hv (rolePair .straight) p hk
  · rintro rfl
    rw [complete_ldPair]
    exact butterfly_ldPair_of_validLen hv (rolePair .swap) p hk
  · rintro rfl hstage
    exact complete_outHighHalvesZero (butterfly_outHighZero_of_validLen hv (rolePair r) hstage)

/-- Settles O26: -1.0 and π64 keep their significands when they are divided by the stride, a power of two. -/
theorem twiddleArgumentsAreExact : Obligations.TwiddleArgumentsAreExact := by
  intro k hk
  rw [fdiv_neg_one_two_pow (by omega)]
  constructor
  · rw [fpReal_div_two_pow true (by omega), ← fneg_fpOne_eq, fpReal_fneg_fpOne]
  · rw [one_mul, piFp_eq, fmul_two_pow_inv false (by norm_num) (by omega) true (by norm_num) (by omega),
      fpReal_div_two_pow _ (by omega), ← fneg_real, fneg, Bool.false_xor, Bool.not_false]

/-- Settles O30: no stage is run, and completion leaves the memory and the internal registers. -/
theorem bflyOfLengthOneTouchesNothing : Obligations.BflyOfLengthOneTouchesNothing := by
  intro p r s hlen
  have hn : s.lenN = 1 := by rw [State.lenN, hlen]; rfl
  refine ⟨_, exec_bfly p r s, ?_⟩
  rw [hn, butterfly_one]
  exact ⟨⟨complete_mem _, complete_byte _⟩, complete_hidden _, complete_draws _⟩

end Sys2Proof.Machine
end

section
/-! SUPPORT. The transforms of a valid length as Setup and the butterfly (44_transform.md R93, R94): what the butterfly
computes from Setup's output, which input values that depends on (R98), and the butterfly of a completed state. -/

namespace Sys2Proof.Machine

/-! ## The transforms as Setup and the butterfly -/

theorem exec_fwd_eq (p : Prec) (s : State) :
    exec (.fwd p) s = .next (butterfly .outRe .outIm s.lenN p (setup s.lenN p s)).complete := rfl

theorem exec_inv_eq (p : Prec) (s : State) :
    exec (.inv p) s = .next (butterfly .outIm .outRe s.lenN p (setup s.lenN p s)).complete := rfl

theorem ldPair_exchange (s : State) (a b : Buf) (k : Nat) (p : Prec) :
    s.ldPair b a k p = ⟨(s.ldPair a b k p).im, (s.ldPair a b k p).re⟩ := rfl

/-- The transform's results are the stages' values from what Setup left below the length. -/
theorem transform_ldPair {s : State} (hv : validLen s.inst s.regs.len = true) {a b : Buf} (hab : OutPair a b)
    (p : Prec) {x : Nat → Cplx} (hx : ∀ i < s.lenN, (setup s.lenN p s).ldPair a b i p = x i) {l : Nat}
    (hl : l < s.lenN) :
    (butterfly a b s.lenN p (setup s.lenN p s)).ldPair a b l p = butterflyValue p s.lenN x l := by
  obtain ⟨k, hk, hn, -⟩ := lenN_of_validLen hv
  rw [(butterfly_spec a b p _ k _ hab hk hn).2 l hl]
  rw [hn] at hx hl ⊢
  exact butterflyValue_congr p k hx l hl

/-- Setup leaves the upper halves 0, and the stages, if there are any, keep them so. -/
theorem transform_outHighZero {s : State} (hv : validLen s.inst s.regs.len = true) {a b : Buf} (hab : OutPair a b) :
    OutHighHalvesZero s.lenN (butterfly a b s.lenN .f32 (setup s.lenN .f32 s)) := by
  obtain ⟨k, hk, hn, -⟩ := lenN_of_validLen hv
  exact butterfly_outHighZero hab _ k _ hk hn (.inr (setup_outHighZero_of_validLen hv))

/-! ## The input values the transforms depend on (R98) -/

/-- Setup looks at the input below its length only. -/
theorem setupValue_congr (p : Prec) {k : Nat} (hk : k ≤ 24) {x y : Nat → Cplx} (h : ∀ i < 2 ^ k, x i = y i) :
    setupValue p (2 ^ k) x = setupValue p (2 ^ k) y := by
  funext l
  rw [setupValue, setupValue, log2N_pow, h _ (bitrev_lt l hk)]

section

variable {s s' : State} (hv : validLen s.inst s.regs.len = true) (hv' : validLen s'.inst s'.regs.len = true)
  (hlen : s.lenN = s'.lenN) {p : Prec} (hin : ∀ i < s.lenN, s.ldPair .inRe .inIm i p = s'.ldPair .inRe .inIm i p)
include hv hv' hlen hin

/-- Setup leaves the same output for the same input. -/
theorem setup_ldPair_congr {a b : Buf} (hab : OutPair a b) :
    ∀ i < s.lenN, (setup s.lenN p s).ldPair a b i p = (setup s'.lenN p s').ldPair a b i p := by
  intro i hi
  have hvalue : setupValue p s.lenN (fun j => s.ldPair .inRe .inIm j p) =
      setupValue p s'.lenN (fun j => s'.ldPair .inRe .inIm j p) := by
    obtain ⟨k, hk, hn, -⟩ := lenN_of_validLen hv
    rw [← hlen, hn]
    exact setupValue_congr p hk (hn ▸ hin)
  have hpair : (setup s.lenN p s).ldPair .outRe .outIm i p = (setup s'.lenN p s').ldPair .outRe .outIm i p := by
    rw [(setup_spec_of_validLen hv p).2 i hi, (setup_spec_of_validLen hv' p).2 i (hlen ▸ hi), hvalue]
  rcases hab with ⟨rfl, rfl⟩ | ⟨rfl, rfl⟩
  · exact hpair
  · rw [ldPair_exchange, hpair, ← ldPair_exchange]

/-- The transforms leave the same output for the same input. -/
theorem transform_ldPair_congr {a b : Buf} (hab : OutPair a b) {l : Nat} (hl : l < s.lenN) :
    (butterfly a b s.lenN p (setup s.lenN p s)).ldPair a b l p =
      (butterfly a b s'.lenN p (setup s'.lenN p s')).ldPair a b l p := by
  rw [transform_ldPair hv hab p (setup_ldPair_congr hv hv' hlen hin hab) hl,
    transform_ldPair hv' hab p (fun _ _ => rfl) (hlen ▸ hl), hlen]

end

/-! ## The butterfly of a completed state -/

/-- Completion a second time changes nothing. -/
theorem complete_complete (s : State) : s.complete.complete = s.complete := by
  have hstatus : s.complete.complete.regs.status = s.complete.regs.status := by
    refine BitVec.eq_of_getLsbD_eq fun i _ => ?_
    rw [complete_status_bit, complete_status_bit]
    split_ifs <;> rfl
  exact congrArg (fun v => { s.complete with regs := { s.complete.regs with status := v } }) hstatus

/-- The butterfly leaves the registers and the pending command, which are all that completion changes. -/
theorem butterfly_complete (a b : Buf) (n : Nat) (p : Prec) (s : State) :
    butterfly a b n p s.complete = (butterfly a b n p s).complete := by
  rw [State.complete, butterfly_with, State.complete, (butterfly_regs a b n p s).regs]

/-- BFLY after SETUP runs the butterfly on what Setup left. -/
theorem exec_bfly_setup (p : Prec) (r : Role) (s : State) : exec (.bfly p r) (setup s.lenN p s).complete =
    .next (butterfly (roleA r) (roleB r) s.lenN p (setup s.lenN p s)).complete := by
  have hlen : (setup s.lenN p s).complete.lenN = s.lenN := by
    rw [State.lenN, complete_regs, setStatus_len, clearStatus_len, (setup_regs _ p s).regs, ← State.lenN]
  rw [exec_bfly, hlen, butterfly_complete, complete_complete]

end Sys2Proof.Machine
end

section
/-! CERTIFICATES. The statements of 44_transform.md. -/

namespace Sys2Proof.Machine

/-- Settles O27: by what the stages compute from Setup's output, whose parts INV takes in exchanged roles; completion
leaves the memory. -/
theorem transformsComputeButterflyOfSetup : Obligations.TransformsComputeButterflyOfSetup := by
  intro p s hv
  have hsetup := (setup_spec_of_validLen hv p).2
  refine ⟨⟨_, exec_fwd_eq p s, fun k hk => ?_, ?_⟩, _, exec_inv_eq p s, fun k hk => ?_, ?_⟩
  · rw [complete_ldPair]
    exact transform_ldPair hv (rolePair .straight) p hsetup hk
  · rintro rfl
    exact complete_outHighHalvesZero (transform_outHighZero hv (rolePair .straight))
  · rw [complete_ldPair]
    refine transform_ldPair hv (rolePair .swap) p (fun i hi => ?_) hk
    rw [roleA, roleB, ldPair_exchange, hsetup i hi]
  · rintro rfl
    exact complete_outHighHalvesZero (transform_outHighZero hv (rolePair .swap))

/-- Settles O28: the butterfly does not touch what SETUP's completion changes, and BFLY's completion after it changes
nothing more. -/
theorem transformsAreSetupThenBfly : Obligations.TransformsAreSetupThenBfly := by
  intro p s u h
  obtain rfl := Host.Outcome.next.inj ((exec_setup p s).symm.trans h)
  rw [exec_bfly_setup, exec_bfly_setup]
  exact ⟨exec_fwd_eq p s, exec_inv_eq p s⟩

/-- Settles O31: Setup's output depends on the input below the length only, and the stages on that output; INV's pair
is FWD's with the parts exchanged. -/
theorem transformsDependOnTheInputOnly : Obligations.TransformsDependOnTheInputOnly := by
  intro i p s s' t t' hi hv hv' hlen hin h h' k hk
  have hpair : ∀ j < s.lenN, s.ldPair .inRe .inIm j p = s'.ldPair .inRe .inIm j p := fun j hj =>
    congrArg₂ Cplx.mk (hin j hj).1 (hin j hj).2
  have hout {a b : Buf} (hab : OutPair a b) :=
    Cplx.mk.inj (transform_ldPair_congr hv hv' (congrArg BitVec.toNat hlen) hpair hab hk)
  rcases hi with rfl | rfl
  · cases h
    cases h'
    simp only [complete_ld]
    exact hout (rolePair .straight)
  · cases h
    cases h'
    simp only [complete_ld]
    exact (hout (rolePair .swap)).symm

end Sys2Proof.Machine
end

section
/-! SUPPORT. Control commands (45_control.md): the named STATUS bits of a completed command, and NOP's meaning. -/

namespace Sys2Proof.Machine

theorem Completed.done {s t : State} (hc : Completed s t) : t.regs.done = true := by
  rw [Regs.done, hc.status]
  rfl

theorem Completed.err {s t : State} (hc : Completed s t) : t.regs.err = s.regs.err := by
  rw [Regs.err, hc.status]
  rfl

theorem Completed.errOvf {s t : State} (hc : Completed s t) : t.regs.errOvf = s.regs.errOvf := by
  rw [Regs.errOvf, hc.status]
  rfl

theorem exec_nop (s : State) : exec .nop s = .next s.complete := rfl

/-- Completion changes the pending command and STATUS only. -/
theorem complete_eq_with_status (s : State) :
    s.complete = { s with pending := none, regs := { s.regs with status := s.complete.regs.status } } := rfl

end Sys2Proof.Machine
end

section
/-! CERTIFICATES. The statement of 45_control.md. -/

namespace Sys2Proof.Machine

/-- Settles O17: NOP is completion alone, which clears BUSY, sets DONE and keeps the two error bits. -/
theorem nopOnlyCompletes : Obligations.NopOnlyCompletes := by
  intro s
  have hc : Completed s s.complete := exec_completed (exec_nop s)
  exact ⟨s.complete, exec_nop s, complete_eq_with_status s, hc.busy, hc.done, hc.err, hc.errOvf⟩

end Sys2Proof.Machine
end

section
/-! SUPPORT. What an issue leaves (60_exceptions.md R102, R103, R111): a rejection or an acceptance, by the word and the
operand registers alone. -/

namespace Sys2Proof.Machine

theorem Rejected.done {s t : State} {c : Word} {e : Err} (h : Rejected s t c e) : t.regs.done = true := by
  rw [Regs.done, h.recorded.status]
  rfl

theorem Rejected.err {s t : State} {c : Word} {e : Err} (h : Rejected s t c e) : t.regs.err = true := by
  rw [Regs.err, h.recorded.status]
  rfl

theorem Accepted.busy {s t : State} {c : Word} {i : Instr} (h : Accepted s t c i) : t.regs.busy = true := by
  rw [Regs.busy, h.status]
  rfl

theorem Accepted.done {s t : State} {c : Word} {i : Instr} (h : Accepted s t c i) : t.regs.done = false := by
  rw [Regs.done, h.status]
  rfl

theorem Accepted.err {s t : State} {c : Word} {i : Instr} (h : Accepted s t c i) : t.regs.err = s.regs.err := by
  rw [Regs.err, h.status]
  rfl

theorem Accepted.pending {s t : State} {c : Word} {i : Instr} (h : Accepted s t c i) : t.pending = some i := by
  rw [h.frame]

theorem issue_of_operandError_some {s : State} {c : Word} {i : Instr} {e : Err} (h : decode c = .ok i)
    (ho : operandError s i = some e) : Rejected s (s.issue c) c e := by
  have ho' : operandError { s with regs := { s.regs with cmd := c } } i = some e :=
    (operandError_congr rfl rfl rfl i).trans ho
  simp only [State.issue, h, ho']
  exact reject_spec s c e

theorem issue_accepted {s : State} {c : Word} {i : Instr} (h : decode c = .ok i) (ho : operandError s i = none) :
    Accepted s (s.issue c) c i := by
  rw [issue_of_operandError_none h ho]
  exact accept_spec s c i

/-- Everything an issue can leave. -/
theorem issue_rejected_or_accepted (s : State) (c : Word) :
    (∃ e, Rejected s (s.issue c) c e) ∨
      ∃ i, decode c = .ok i ∧ operandError s i = none ∧ Accepted s (s.issue c) c i := by
  cases hd : decode c with
  | error e =>
    cases e with
    | illegalOp => exact .inl ⟨_, issue_illegalOp s hd⟩
    | rsvdField => exact .inl ⟨_, issue_rsvdField s hd⟩
  | ok i =>
    cases ho : operandError s i with
    | some e => exact .inl ⟨e, issue_of_operandError_some hd ho⟩
    | none => exact .inr ⟨i, rfl, ho, issue_accepted hd ho⟩

/-- Acceptance asks for a word that decodes and for valid operand registers, and for nothing else. -/
theorem issue_accepted_iff {s : State} {c : Word} {i : Instr} :
    Accepted s (s.issue c) c i ↔ decode c = .ok i ∧ operandError s i = none := by
  refine ⟨fun h => ?_, fun ⟨hd, ho⟩ => issue_accepted hd ho⟩
  rcases issue_rejected_or_accepted s c with ⟨e, hrej⟩ | ⟨j, hd, ho, hacc⟩
  · exact absurd (hrej.done.symm.trans h.done) (by decide)
  · obtain rfl : j = i := Option.some.inj (hacc.pending.symm.trans h.pending)
    exact ⟨hd, ho⟩

theorem operandError_invalidLen {s : State} {i : Instr} (hi : i.usesLen = true)
    (hv : validLen s.inst s.regs.len = false) : operandError s i = some .invalidLen := by
  rw [operandError, hi, hv]
  rfl

theorem operandError_invalidBits {s : State} (h : 24 < s.regs.bits.toNat) :
    operandError s .bitrev = some .invalidBits := by
  have hbits : 24#32 < s.regs.bits := h
  simp [operandError, Instr.usesLen, hbits]

theorem validLen_eq_false {p : Params} {n : Word}
    (h : n.toNat = 0 ∨ (∀ k, n.toNat ≠ 2 ^ k) ∨ 2 ^ (p.nmaxLog2 : Nat) < n.toNat) : validLen p n = false := by
  rw [Bool.eq_false_iff]
  intro hv
  obtain ⟨k, hk, hn⟩ := validLen_iff.mp hv
  rcases h with h0 | hpow | hgt
  · exact (Nat.two_pow_pos k).ne' (hn.symm.trans h0)
  · exact hpow k hn
  · exact hgt.not_ge (hn.trans_le (Nat.pow_le_pow_right two_pos hk))

end Sys2Proof.Machine
end

section
/-! SUPPORT. What clears ERR and DONE (60_exceptions.md R109): what a host write, an input and a step leave of them. -/

namespace Sys2Proof.Machine

theorem record_frame (r : Regs) (e : Err) (a : Word) :
    r.record e a = { r with
      status := (r.record e a).status, errcode := (r.record e a).errcode, erraddr := (r.record e a).erraddr } :=
  (record_statusOnly r e a).eq.trans (by rw [record_ctrl])

theorem done_record (r : Regs) (e : Err) (a : Word) : (r.record e a).done = r.done := by
  rw [Regs.done, record_status_bit]
  rfl

theorem done_writeStatus (r : Regs) (v : Word) : (r.writeStatus v).done = (r.done && !v.getLsbD 1) := by
  rw [Regs.done, writeStatus_bit]
  simp [Regs.done]

theorem OperandsOnly.status {r r' : Regs} (h : OperandsOnly r r') : r'.status = r.status := by rw [h.eq]

/-- A bit that was 1 and that the host's write of `data` clears was written as 1. -/
theorem written_one_of_cleared {b : Bool} {data : DWord} {k : Nat} (hk : k < 32) (hb : b = true)
    (h : (b && !(data.extractLsb' 0 32).getLsbD k) = false) : data.getLsbD k = true := by
  simpa [hb, hk] using h

/-- A write that clears ERR is one of 1 to bit 2 of STATUS. -/
theorem WriteCase.err_cleared {s t : State} {off : Word} {data : DWord} (hw : WriteCase s off data t)
    (hs : s.regs.err = true) (ht : t.regs.err = false) : off = 0x010#32 ∧ data.getLsbD 2 = true := by
  have kept (h : t.regs.err = s.regs.err) : off = 0x010#32 ∧ data.getLsbD 2 = true := by
    rw [h, hs] at ht
    cases ht
  cases hw with
  | error e => exact kept ((err_record ..).trans hs.symm)
  | ignored => exact kept rfl
  | ctrl => exact kept rfl
  | status ho => exact ⟨ho, written_one_of_cleared (by decide) hs ((err_writeStatus ..).symm.trans ht)⟩
  | issue =>
    rcases issue_rejected_or_accepted s (data.extractLsb' 0 32) with ⟨e, hrej⟩ | ⟨i, -, -, hacc⟩
    · exact kept (hrej.err.trans hs.symm)
    · exact kept hacc.err
  | operand _ r hr => exact kept (congrArg (BitVec.getLsbD · 2) hr.status)
  | slot => exact kept rfl

/-- A write that clears DONE is one of 1 to bit 1 of STATUS, or of a command that is accepted to CMD. -/
theorem WriteCase.done_cleared {s t : State} {off : Word} {data : DWord} (hw : WriteCase s off data t)
    (hs : s.regs.done = true) (ht : t.regs.done = false) :
    off = 0x010#32 ∧ data.getLsbD 1 = true ∨ off = 0x028#32 ∧ s.regs.busy = false ∧ t.regs.busy = true := by
  have kept {P : Prop} (h : t.regs.done = s.regs.done) : P := by
    rw [h, hs] at ht
    cases ht
  cases hw with
  | error e => exact kept (done_record ..)
  | ignored => exact kept rfl
  | ctrl => exact kept rfl
  | status ho =>
    exact .inl ⟨ho, written_one_of_cleared (by decide) hs ((done_writeStatus ..).symm.trans ht)⟩
  | issue ho hidle =>
    rcases issue_rejected_or_accepted s (data.extractLsb' 0 32) with ⟨e, hrej⟩ | ⟨i, -, -, hacc⟩
    · exact kept (hrej.done.trans hs.symm)
    · exact .inr ⟨ho, hidle, hacc.busy⟩
  | operand _ r hr => exact kept (congrArg (BitVec.getLsbD · 1) hr.status)
  | slot => exact kept rfl

/-- A read leaves DONE, and ERR where it is 1. -/
theorem hostRead_done_err (s : State) (off : Word) (bytes : Nat) :
    (s.hostRead off bytes).regs.done = s.regs.done ∧
      (s.regs.err = true → (s.hostRead off bytes).regs.err = true) := by
  rcases hostRead_cases s off bytes with ⟨e, heq⟩ | ⟨d, heq⟩ <;> rw [heq]
  · exact ⟨done_record .., fun _ => err_record ..⟩
  · exact ⟨rfl, id⟩

/-- ERR or DONE is 1 before and 0 after. -/
def Clears (r r' : Regs) : Prop := r.err = true ∧ r'.err = false ∨ r.done = true ∧ r'.done = false

theorem not_clears {r r' : Regs} (hdone : r'.done = r.done) (herr : r.err = true → r'.err = true) : ¬ Clears r r' := by
  rintro (⟨hs, ht⟩ | ⟨hs, ht⟩)
  · exact Bool.eq_false_iff.mp ht (herr hs)
  · exact Bool.eq_false_iff.mp ht (hdone.trans hs)

/-- An input that clears ERR or DONE is the assertion of reset or a host write. -/
theorem input_clears {s : State} {x : Input} (h : Clears s.regs (s.input x).regs) :
    x = .reset true ∨ ∃ addr bytes data off, x = .write addr bytes data ∧ s.inst.localOffset addr = some off ∧
      WriteCase s off data (s.input x) := by
  rcases input_cases s x with heq | ⟨off, bytes, heq⟩ | ⟨addr, off, bytes, data, hx, ho, heq⟩ | ⟨a, rfl, heq⟩
  · exact absurd (heq ▸ h) (not_clears rfl id)
  · obtain ⟨hdone, herr⟩ := hostRead_done_err s off bytes
    exact absurd (heq ▸ h) (not_clears hdone herr)
  · exact .inr ⟨addr, bytes, data, off, hx, ho, heq ▸ hostWrite_cases s off bytes data⟩
  · cases a with
    | false => exact absurd h (not_clears rfl id)
    | true => exact .inl rfl

/-- A step that clears ERR or DONE is the host's and takes an input. -/
theorem step_clears {s t : State} (hstep : step s = .next t) (h : Clears s.regs t.regs) :
    s.world.inputs.head? = some (.reset true) ∨ ∃ addr bytes data off,
      s.world.inputs.head? = some (.write addr bytes data) ∧ s.inst.localOffset addr = some off ∧
        ∃ w, WriteCase { s with world := w } off data t := by
  rcases step_cases hstep with ⟨-, i, -, hexec⟩ | ⟨-, -, rfl⟩ | ⟨-, x, xs, hinputs, rfl⟩
  · have hc := exec_completed hexec
    rcases h with ⟨hs, ht⟩ | ⟨-, ht⟩
    · exact absurd (hc.err.trans hs) (Bool.eq_false_iff.mp ht)
    · exact absurd hc.done (Bool.eq_false_iff.mp ht)
  · exact absurd h (not_clears rfl id)
  · have hinput := input_clears
      (s := { s with world := { s.world with inputs := xs, delay := s.world.delay - 1 } }) h
    rw [hinputs]
    rcases hinput with rfl | ⟨addr, bytes, data, off, rfl, ho, hw⟩
    · exact .inl rfl
    · exact .inr ⟨addr, bytes, data, off, rfl, ho, _, hw⟩

end Sys2Proof.Machine
end

section
/-! SUPPORT. A running command (60_exceptions.md R108, 70_reset_and_hazards.md R126): the engine's step, the inputs that
come before it, and the completion they lead to. -/

namespace Sys2Proof.Machine

theorem step_of_engineReady {s : State} {i : Instr} (hready : engineReady s = true) (hpending : s.pending = some i) :
    step s = exec i s := by
  rw [step, if_pos hready, engineTurn, hpending]

section
variable {s : State} {nbits w : Nat} {i : Instr} (hd : decodeTableWord nbits w = some i)
include hd

theorem withFetchWord_pending : (s.withFetchWord nbits w).pending = some i := by
  simp only [State.withFetchWord, hd]

theorem withFetchWord_engineReady : engineReady (s.withFetchWord nbits w) = true := by
  have hbusy : (s.withFetchWord nbits w).regs.busy = true := by
    simp only [State.withFetchWord, hd]
    exact busy_accept s i
  rw [engineReady, hbusy]
  simp only [State.withFetchWord, hd]
  rfl

end

/-- `t` is `s` after an input that leaves the running command alone. -/
structure StillRunning (s t : State) : Prop where
  busy : t.regs.busy = true
  inReset : t.world.inReset = s.world.inReset
  inputs : t.world.inputs = s.world.inputs
  delay : t.world.delay = s.world.delay

theorem AnsweredOnly.stillRunning {s t : State} (h : AnsweredOnly s t) (hb : s.regs.busy = true) :
    StillRunning s t := by
  obtain ⟨r, d, e, hr, rfl⟩ := h
  exact ⟨hr.busy.trans hb, rfl, rfl, rfl⟩

/-- With BUSY = 1 and reset released, only the assertion of reset ends the running command (70_reset_and_hazards.md
R120, R122). -/
theorem input_stillRunning {s : State} {x : Input} (hb : s.regs.busy = true) (hreset : s.world.inReset = false)
    (hx : x ≠ .reset true) : StillRunning s (s.input x) := by
  rcases input_cases s x with heq | ⟨off, bytes, heq⟩ | ⟨addr, off, bytes, data, -, -, heq⟩ | ⟨a, rfl, heq⟩ <;>
    rw [heq]
  · exact ⟨hb, rfl, rfl, rfl⟩
  · exact (hostRead_answeredOnly s off bytes).stillRunning hb
  · exact ((hostWrite_cases s off bytes data).answeredOnly hb).stillRunning hb
  · cases a with
    | false => exact ⟨hb, hreset.symm, rfl, rfl⟩
    | true => exact absurd rfl hx

/-- A running command that has not its turn yet waits for an input. -/
theorem waits_for_input {s : State} (hb : s.regs.busy = true) (hreset : s.world.inReset = false)
    (h : engineReady s = false) : ∃ n x xs, s.world.delay = n + 1 ∧ s.world.inputs = x :: xs := by
  rw [engineReady, hb, hreset] at h
  cases hdelay : s.world.delay with
  | zero => simp [hdelay] at h
  | succ n =>
    cases hinputs : s.world.inputs with
    | nil => simp [hinputs] at h
    | cons x xs => exact ⟨n, x, xs, rfl, rfl⟩

/-- The engine's step completes the running command. -/
theorem step_completed {s : State} (h : PendingInv s) (hready : engineReady s = true) :
    ∃ t, step s = .next t ∧ Completed s t := by
  obtain ⟨i, hpending⟩ := Option.isSome_iff_exists.mp (h.busyPending ▸ busy_of_engineReady hready)
  obtain ⟨t, hexec⟩ := exec_next i s
  exact ⟨t, (step_of_engineReady hready hpending).trans hexec, exec_completed hexec⟩

/-- Each input before the completion counts the delay down by one; then the engine has its turn. -/
theorem running_command_completes {s : State} (h : s.Inv) (hb : s.regs.busy = true) (hreset : s.world.inReset = false)
    (hx : ∀ x ∈ s.world.inputs.take s.world.delay, x ≠ .reset true) :
    ∃ k t, k ≤ s.world.delay + 1 ∧ core.run k s = .next t ∧
      t.regs.busy = false ∧ t.regs.done = true ∧ t.pending = none := by
  induction hd : s.world.delay using Nat.strong_induction_on generalizing s with
  | _ d ih =>
    cases hready : engineReady s with
    | true =>
      obtain ⟨t, hstep, hc⟩ := step_completed (inv_iff.mp h).2.2 hready
      exact ⟨1, t, by omega, run_succ core hstep, hc.busy, hc.done, hc.pending⟩
    | false =>
      obtain ⟨n, x, xs, hdelay, hinputs⟩ := waits_for_input hb hreset hready
      rw [hdelay, hinputs, List.take_succ_cons, List.forall_mem_cons] at hx
      obtain ⟨hx, hxs⟩ := hx
      have hstep := (step_of_not_engineReady hready).trans (congrArg _ (hostTurn_cons hinputs))
      have hrun := input_stillRunning
        (s := { s with world := { s.world with inputs := xs, delay := s.world.delay - 1 } }) hb hreset hx
      have hdelay' := hrun.delay.trans (congrArg (· - 1) hdelay)
      obtain ⟨k, t, hk, hrunk, ht⟩ := ih n (by omega) (step_inv h hstep) hrun.busy (hrun.inReset.trans hreset)
        (by rw [hdelay', hrun.inputs]; exact hxs) hdelay'
      exact ⟨k + 1, t, by omega, (run_succ core hstep).trans hrunk, ht⟩

end Sys2Proof.Machine
end

section
/-! CERTIFICATES. The statements of 60_exceptions.md. -/

namespace Sys2Proof.Machine

/-- Settles O55: each input that comes before the completion leaves the command running and counts the delay down. -/
theorem acceptedCommandsComplete : Obligations.AcceptedCommandsComplete :=
  fun _ h hb hreset hx => running_command_completes h hb hreset hx

/-- Settles O8: a length that is no power of two up to the number of slots fails the check of LEN. -/
theorem invalidLengthsAreRejected : Obligations.InvalidLengthsAreRejected := by
  rintro s data c i hbusy - hd ⟨p, r, hi⟩ hlen
  have huses : i.usesLen = true := by rcases hi with rfl | rfl | rfl | rfl <;> rfl
  exact ⟨writeIssues hbusy data,
    issue_of_operandError_some hd (operandError_invalidLen huses (validLen_eq_false hlen))⟩

/-- Settles O9: a width above 24 fails the check of BITS, and no issue changes RIDX. -/
theorem invalidBitsAreRejected : Obligations.InvalidBitsAreRejected := by
  intro s data c hbusy _ hd hbits
  obtain ⟨-, hridx, -, -⟩ := issue_frame s c
  exact ⟨writeIssues hbusy data, issue_of_operandError_some hd (operandError_invalidBits hbits), hridx⟩

/-- Settles O46: a bus error is the record and an answer, and the record touches three registers. -/
theorem errorRecordsKeepTheFirst : Obligations.ErrorRecordsKeepTheFirst := fun s e a =>
  ⟨(busError_spec s e a).recorded, congrArg (fun r => ({ s with regs := r } : State)) (record_frame s.regs e a)⟩

/-- Settles O48: a step that clears ERR or DONE takes a reset or a host write, and the write is to STATUS or CMD. -/
theorem interruptFollowsDoneAndErr : Obligations.InterruptFollowsDoneAndErr := by
  refine ⟨fun s => ?_, fun s t hstep => ⟨fun hs ht => ?_, fun hs ht => ?_⟩⟩
  · simp only [State.irq, Regs.irq, Regs.ieDone, Regs.done, Regs.ieErr, Regs.err, Bool.or_eq_true, Bool.and_eq_true]
  · refine (step_clears hstep (.inl ⟨hs, ht⟩)).imp_right ?_
    rintro ⟨addr, bytes, data, off, hx, ho, w, hw⟩
    obtain ⟨rfl, hdata⟩ := hw.err_cleared hs ht
    exact ⟨addr, bytes, data, hx, ho, hdata⟩
  · refine (step_clears hstep (.inr ⟨hs, ht⟩)).imp_right ?_
    rintro ⟨addr, bytes, data, off, hx, ho, w, hw⟩
    refine ⟨addr, bytes, data, hx, ?_⟩
    rcases hw.done_cleared hs ht with ⟨rfl, hdata⟩ | ⟨rfl, hidle, hbusy⟩
    · exact .inl ⟨ho, hdata⟩
    · exact .inr ⟨ho, hidle, hbusy⟩

/-- Settles O49: acceptance looks at the word and the operand registers only, which STATUS, ERRCODE and ERRADDR are
not. -/
theorem errorsDoNotBlockCommands : Obligations.ErrorsDoNotBlockCommands := by
  intro s c i st ec ea h
  obtain ⟨hd, ho⟩ := issue_accepted_iff.mp h
  exact issue_accepted hd ((operandError_congr rfl rfl rfl i).trans ho)

/-- Settles O5: the engine's turn is the pending command, and `withFetchWord` gives it the turn. -/
theorem stepRunsThePendingCommand : Obligations.StepRunsThePendingCommand :=
  ⟨fun _ _ hpending hready => step_of_engineReady hready hpending, fun _ _ _ _ hd =>
    step_of_engineReady (withFetchWord_engineReady hd) (withFetchWord_pending hd)⟩

end Sys2Proof.Machine
end

section
/-! SUPPORT. Register accesses the busy lockout leaves open, what keeps a command pending, and what the reset input does
(70_reset_and_hazards.md R119, R120, R122). -/

namespace Sys2Proof.Machine

/-! ## Registers the lockout leaves open (R122) -/

theorem lockedOnWrite_readOnly {r : Reg} (hr : r ∈ [Reg.id, .errcode, .erraddr, .ridx, .resRe, .resIm]) :
    r.lockedOnWrite = false := by
  fin_cases hr <;> rfl

section
variable (s : State) {bytes : Nat} (hb : bytes = 4 ∨ bytes = 8) (data : DWord)
include hb

theorem hostWrite_readOnly {r : Reg} (hr : r ∈ [Reg.id, .errcode, .erraddr, .ridx, .resRe, .resIm]) :
    s.hostWrite (BitVec.ofNat 32 r.offset) bytes data = s.respond 0 false := by
  rw [hostWrite_reg s r data hb (by rw [lockedOnWrite_readOnly hr, Bool.and_false]), writeReg_readOnly s hr]

theorem hostWrite_ctrl : s.hostWrite (BitVec.ofNat 32 Reg.ctrl.offset) bytes data =
    State.respond { s with regs := s.regs.writeCtrl (data.extractLsb' 0 32) } 0 false := by
  rw [hostWrite_reg s .ctrl data hb (Bool.and_false _), State.writeReg, if_pos (coversLow_offset _)]

end

/-! ## The pending command (R120) -/

theorem AnsweredOnly.pending {s t : State} (h : AnsweredOnly s t) : t.pending = s.pending := by
  obtain ⟨r, d, e, -, rfl⟩ := h
  rfl

/-- With BUSY = 1 no input but the assertion of reset touches the pending command. -/
theorem input_pending {s : State} {x : Input} (hb : s.regs.busy = true) (hx : x ≠ .reset true) :
    (s.input x).pending = s.pending := by
  rcases input_cases s x with heq | ⟨off, bytes, heq⟩ | ⟨addr, off, bytes, data, -, -, heq⟩ | ⟨a, rfl, heq⟩ <;>
    rw [heq]
  · rfl
  · exact (hostRead_answeredOnly s off bytes).pending
  · exact ((hostWrite_cases s off bytes data).answeredOnly hb).pending
  · cases a with
    | false => rfl
    | true => exact absurd rfl hx

/-! ## The reset input (R119) -/

theorem irq_reset : Regs.reset.irq = false := by decide

/-- The assertion is the reset of the machine, and the reset input then stays asserted. -/
theorem input_reset_true (s : State) : s.input (.reset true) =
    { s.afterReset with world := { s.afterReset.world with inReset := true } } := rfl

theorem input_reset_false (s : State) :
    s.input (.reset false) = { s with world := { s.world with inReset := false } } := rfl

/-- An unlisted byte is the one drawn at the last reset. -/
theorem byte_of_mem_nil {s : State} (h : s.mem = []) (x : Nat) : s.byte x = Config.resetByte s.epoch x := by
  rw [State.byte, h]
  rfl

theorem engineReady_of_inReset {s : State} (h : s.world.inReset = true) : engineReady s = false := by
  rw [engineReady, h]
  rfl

theorem input_of_inReset {s : State} (h : s.world.inReset = true) (addr bytes : Nat) (data : DWord) :
    s.input (.read addr bytes) = s.unanswered ∧ s.input (.write addr bytes data) = s.unanswered := by
  cases ho : s.inst.localOffset addr with
  | none => exact input_of_localOffset_none ho bytes data
  | some off => simp only [State.input, ho, h, if_true, and_self]

end Sys2Proof.Machine
end

section
/-! CERTIFICATES. The statements of 70_reset_and_hazards.md. -/

namespace Sys2Proof.Machine

/-- Settles O39: R122's lockout takes in no read of a register and no write to CTRL, STATUS or a read-only register. -/
theorem registersStayReachableWhileBusy : Obligations.RegistersStayReachableWhileBusy := by
  refine fun s r bytes data hb => ⟨⟨_, hostRead_reg s r hb⟩, hostWrite_readOnly s hb data, ?_, ?_⟩
  · rintro rfl
    exact hostWrite_ctrl s hb data
  · rintro rfl
    obtain ⟨st, ec, ea, hwrite, -⟩ := statusWritesClearWhereOne s bytes data hb
    exact ⟨st, ec, ea, hwrite⟩

/-- Settles O51: the assertion is the reset of the machine, and `inReset` alone holds off accesses and the engine. -/
theorem resetInput : Obligations.ResetInput := by
  refine fun s => ⟨?_, fun h => ⟨engineReady_of_inReset h, input_of_inReset h, input_reset_false s⟩⟩
  rw [input_reset_true]
  exact ⟨rfl, rfl, irq_reset, Nat.succ_ne_self s.epoch, rfl, byte_of_mem_nil rfl, rfl, rfl, rfl⟩

/-- Settles O56: BUSY = 1 while the command is pending, so that a host step short of the assertion of reset leaves it,
and the engine's step is its execution. -/
theorem pendingCommandsRunToCompletion : Obligations.PendingCommandsRunToCompletion := by
  intro s t i h hpending hstep
  have hb : s.regs.busy = true := by rw [h.busyPending, hpending]; rfl
  rcases step_cases hstep with ⟨-, j, hj, hexec⟩ | ⟨-, -, rfl⟩ | ⟨-, x, xs, hinputs, rfl⟩
  · obtain rfl : j = i := Option.some.inj (hj.symm.trans hpending)
    exact .inr (.inl hexec)
  · exact .inl hpending
  · rw [hinputs]
    by_cases hx : x = .reset true
    · exact .inr (.inr (congrArg some hx))
    · have hkept := input_pending
        (s := { s with world := { s.world with inputs := xs, delay := s.world.delay - 1 } }) hb hx
      exact .inl (hkept.trans hpending)

/-- Settles O50: every register is 0, with which no interrupt is enabled and LEN is no valid length. -/
theorem resetState : Obligations.ResetState :=
  ⟨rfl, rfl, rfl, rfl, rfl, rfl, rfl, rfl, rfl, rfl, rfl, rfl, rfl, rfl, rfl, rfl, rfl, irq_reset,
    validLen_eq_false (.inl rfl)⟩

/-- Settles O52: no byte is listed, the registers are all 0, and no command is pending with BUSY = 0. -/
theorem resetMeetsTheInvariant : Obligations.ResetMeetsTheInvariant :=
  inv_iff.mpr ⟨⟨rfl, fun _ hc => absurd hc List.not_mem_nil⟩, reset_regsInv, .of_idle busy_reset rfl⟩

end Sys2Proof.Machine
end
